-- ==== Sys2Proof/Word.lean ====
section
/-! DEFINITION. The word types of NS2-EDAC (spec/00_scope.md R2, R9): bytes, 32-bit registers, 64-bit messages
and 72-bit blocks. A block and a message are vectors of bits numbered from 0 (R9, R120, R122); bit `p` of one is
`getLsbD p`. -/

namespace Sys2Proof

/-- One byte, `u8` of R9. -/
abbrev Byte := BitVec 8

/-- One 32-bit control register or command word, `u32` of R9, R29 and R90. -/
abbrev Word := BitVec 32

/-- One message of 8 bytes seen as its 64 bits (R2, R122): message bit `j` is `getLsbD j`. -/
abbrev Message := BitVec 64

/-- One Hamming block of 72 bits (R120): block position `p` is `getLsbD p`. -/
abbrev Block := BitVec 72

/-- The 7-bit accumulator `indexParity` (R13 (a)). -/
abbrev Syndrome := BitVec 7

end Sys2Proof
end

