-- ==== Sys2Proof/Syntax.lean ====
section
/-! DEFINITION. The abstract syntax of the command set: one constructor for each of the 19 rows of
spec/opcode_table.json (spec/30_encoding.md R95). The operands that a command word carries are `sel` (R94), the
bit `v` of BSET and the byte `data` of EEWR (R92); the other operand, ARG0, is a register (R93) and no part of
the instruction. -/

namespace Sys2Proof

/-- The 19 commands (R95), in the order of the opcode table. -/
inductive Instr where
  | nop
  | init
  | bget (sel : BitVec 4)
  | bset (sel : BitVec 4) (v : Bool)
  | bflip (sel : BitVec 4)
  | henc
  | hscan
  | hcorr
  | hdec
  | fenc
  | fget
  | ffill
  | fscrub
  | fdec
  | rsave
  | rseek
  | rload
  | eerd
  | eewr (data : Byte)
  deriving DecidableEq, Repr

end Sys2Proof
end

