-- ==== Sys2Proof/WellFormed.lean ====
section
/-! DEFINITION. Well-formed instructions. The bit widths of the operand fields are in their types; the one check
left is that a buffer select names a buffer (spec/30_encoding.md R94, R100: `buf` assembles to `sel` 0..4). A word
with `sel` 5..15 still decodes, to an ill-formed instruction, and running it ends in BAD_SELECT (R111). -/

namespace Sys2Proof

/-- The five data buffers a select code names (spec/20_memory.md R62). -/
inductive Buffer where
  | msg
  | blk
  | lbuf
  | phys
  | fbw
  deriving DecidableEq, Repr

/-- The buffer of a select code, `none` for the reserved codes 5 and above (R62, R94). -/
def Buffer.ofSel (sel : Nat) : Option Buffer :=
  match sel with
  | 0 => some .msg
  | 1 => some .blk
  | 2 => some .lbuf
  | 3 => some .phys
  | 4 => some .fbw
  | _ => none

/-- The select code of a buffer (R62). -/
def Buffer.sel : Buffer → BitVec 4
  | .msg => 0
  | .blk => 1
  | .lbuf => 2
  | .phys => 3
  | .fbw => 4

/-- A select code names a buffer (R94). -/
def selNamesBuffer (sel : BitVec 4) : Bool := (Buffer.ofSel sel.toNat).isSome

/-- The check of well-formedness, one line for each constructor. -/
def Instr.wf : Instr → Bool
  | .nop => true
  | .init => true
  | .bget sel => selNamesBuffer sel
  | .bset sel _ => selNamesBuffer sel
  | .bflip sel => selNamesBuffer sel
  | .henc => true
  | .hscan => true
  | .hcorr => true
  | .hdec => true
  | .fenc => true
  | .fget => true
  | .ffill => true
  | .fscrub => true
  | .fdec => true
  | .rsave => true
  | .rseek => true
  | .rload => true
  | .eerd => true
  | .eewr _ => true

/-- The instruction is one the assembler of R100 can write: its `sel`, where it has one, names a buffer. -/
abbrev Instr.WellFormed (i : Instr) : Prop := i.wf = true

end Sys2Proof
end

