-- ==== Sys2Proof/Decode.lean ====
section
/-! DEFINITION. Decoding and encoding of command words (spec/30_encoding.md). `opcodeTable` is the opcode map of
R95, row by row; `decode` is the two-step classification of R97, total on all 32-bit words: a row matches, or else
the opcode is legal (RESERVED_FIELD) or not (ILLEGAL_OPCODE). `encode` is written from the fields of format C
(R91), not from the decoder. -/

namespace Sys2Proof

/-! ### Fields of format C (R91, R92) -/

/-- Bits 7:0, `opcode` (R91). -/
def fieldOpcode (w : Word) : BitVec 8 := w.extractLsb' 0 8

/-- Bits 11:8, `sel` (R91). -/
def fieldSel (w : Word) : BitVec 4 := w.extractLsb' 8 4

/-- Bit 16, the bit value `v = imm16[0]` of BSET (R92). -/
def fieldV (w : Word) : Bool := w.getLsbD 16

/-- Bits 23:16, the byte `data = imm16[7:0]` of EEWR (R92). -/
def fieldData (w : Word) : Byte := w.extractLsb' 16 8

/-! ### The opcode map -/

/-- One row of the opcode map: a word `w` selects the row when `w &&& mask = pattern` (R95, `match` and `mask`),
and then stands for the command `build w`. -/
structure OpcodeRow where
  pattern : Word
  mask    : Word
  build   : Word → Instr

/-- The rows of R95 that take the opcodes 0x00 to 0x23: system, BitView and HammingBlock. -/
def opcodeRowsLow : List OpcodeRow :=
  [ ⟨0x00000000, 0xFFFFFFFF, fun _ => .nop⟩,
    ⟨0x00000001, 0xFFFFFFFF, fun _ => .init⟩,
    ⟨0x00000010, 0xFFFFF0FF, fun w => .bget (fieldSel w)⟩,
    ⟨0x00000011, 0xFFFEF0FF, fun w => .bset (fieldSel w) (fieldV w)⟩,
    ⟨0x00000012, 0xFFFFF0FF, fun w => .bflip (fieldSel w)⟩,
    ⟨0x00000020, 0xFFFFFFFF, fun _ => .henc⟩,
    ⟨0x00000021, 0xFFFFFFFF, fun _ => .hscan⟩,
    ⟨0x00000022, 0xFFFFFFFF, fun _ => .hcorr⟩,
    ⟨0x00000023, 0xFFFFFFFF, fun _ => .hdec⟩ ]

/-- The rows of R95 that take the opcodes 0x30 to 0x51: EncodedFile, ring manager and raw EEPROM. -/
def opcodeRowsHigh : List OpcodeRow :=
  [ ⟨0x00000030, 0xFFFFFFFF, fun _ => .fenc⟩,
    ⟨0x00000031, 0xFFFFFFFF, fun _ => .fget⟩,
    ⟨0x00000032, 0xFFFFFFFF, fun _ => .ffill⟩,
    ⟨0x00000033, 0xFFFFFFFF, fun _ => .fscrub⟩,
    ⟨0x00000034, 0xFFFFFFFF, fun _ => .fdec⟩,
    ⟨0x00000040, 0xFFFFFFFF, fun _ => .rsave⟩,
    ⟨0x00000041, 0xFFFFFFFF, fun _ => .rseek⟩,
    ⟨0x00000042, 0xFFFFFFFF, fun _ => .rload⟩,
    ⟨0x00000050, 0xFFFFFFFF, fun _ => .eerd⟩,
    ⟨0x00000051, 0xFF00FFFF, fun w => .eewr (fieldData w)⟩ ]

/-- The complete opcode map (R95): 19 rows. -/
def opcodeTable : List OpcodeRow := opcodeRowsLow ++ opcodeRowsHigh

/-- The word selects the row (R95). -/
def OpcodeRow.selects (r : OpcodeRow) (w : Word) : Bool := w &&& r.mask == r.pattern

/-- The opcode is one of the table's (R95, R96). -/
def legalOpcode (op : BitVec 8) : Bool := opcodeTable.any fun r => fieldOpcode r.pattern == op

/-! ### Decoding -/

/-- Why a command word is no command (R96, R97). -/
inductive DecodeError where
  /-- `opcode` is not in the opcode map (R96): ILLEGAL_OPCODE. -/
  | illegalOpcode
  /-- A must-be-zero bit of a legal opcode is 1 (R97): RESERVED_FIELD. -/
  | reservedField
  deriving DecidableEq, Repr

/-- Decode a command word (R95 to R98): the row it selects, or the reason it selects none. -/
def decode (w : Word) : Except DecodeError Instr :=
  match opcodeTable.find? (·.selects w) with
  | some r => .ok (r.build w)
  | none => if legalOpcode (fieldOpcode w) then .error .reservedField else .error .illegalOpcode

/-- The instruction the decoder reads from an instruction of `nbits` bits `w`, bit 0 the least significant bit of
the command word. A command word is one 32-bit value written to CMD whole (R61, R90), so there is no byte order to
settle; bits above `nbits` are 0. -/
def decodeTableWord (nbits w : Nat) : Option Instr :=
  if nbits ≤ 32 then
    match decode (BitVec.ofNat 32 (w % 2 ^ nbits)) with
    | .ok i => some i
    | .error _ => none
  else none

/-! ### Encoding -/

/-- A command word of format C with its reserved bits 0 (R91). -/
def formatC (opcode : BitVec 8) (sel : BitVec 4) (imm16 : BitVec 16) : Word :=
  imm16 ++ (0#4 : BitVec 4) ++ sel ++ opcode

/-- The command word of an instruction, from the opcode map and the fields of format C (R91, R92, R95). -/
def encode : Instr → Word
  | .nop => formatC 0x00 0 0
  | .init => formatC 0x01 0 0
  | .bget sel => formatC 0x10 sel 0
  | .bset sel v => formatC 0x11 sel ((0#15 : BitVec 15) ++ BitVec.ofBool v)
  | .bflip sel => formatC 0x12 sel 0
  | .henc => formatC 0x20 0 0
  | .hscan => formatC 0x21 0 0
  | .hcorr => formatC 0x22 0 0
  | .hdec => formatC 0x23 0 0
  | .fenc => formatC 0x30 0 0
  | .fget => formatC 0x31 0 0
  | .ffill => formatC 0x32 0 0
  | .fscrub => formatC 0x33 0 0
  | .fdec => formatC 0x34 0 0
  | .rsave => formatC 0x40 0 0
  | .rseek => formatC 0x41 0 0
  | .rload => formatC 0x42 0 0
  | .eerd => formatC 0x50 0 0
  | .eewr data => formatC 0x51 0 ((0#8 : BitVec 8) ++ data)

end Sys2Proof
end

