-- ==== Sys2Proof/Config.lean ====
section
/-! DEFINITION. The parameters of one NS2-EDAC instance (spec/00_scope.md R7, R8): the two sizes the instance
chooses, the five conventions the spec decides but keeps as parameters, and the sizes derived from them. A state
carries its own `Config`, so every statement about the machine holds for every instance. -/

namespace Sys2Proof

/-- Which bit of a byte a bit index names (R7 `BITORDER`, R65). -/
inductive BitOrder where
  | lsb0
  | msb0
  deriving DecidableEq, Repr

/-- Order of the bytes of the write counter (R7 `BYTEORDER`, R66). -/
inductive ByteOrder where
  | le
  | be
  deriving DecidableEq, Repr

/-- What a scan reports when the parities differ and `indexParity >= 72` (R7 `OOR_POLICY`, R126). -/
inductive OorPolicy where
  | uncorrectable
  | literal
  deriving DecidableEq, Repr

/-- What RSAVE does when `WCTR = 2^32 - 1` (R7 `WRAP_POLICY`, R166). -/
inductive WrapPolicy where
  | fault
  | wrap
  deriving DecidableEq, Repr

/-- The comparison a seek uses (R7 `NEWER`, R163). -/
inductive NewerPolicy where
  | unsigned
  | serial
  deriving DecidableEq, Repr

/-- The parameters of an instance (R7): `dSize` is the spec's `D`, `eepromSize` its `EEPROM_SIZE`. -/
structure Config where
  dSize      : Nat
  eepromSize : Nat
  bitOrder   : BitOrder
  byteOrder  : ByteOrder
  oorPolicy  : OorPolicy
  wrapPolicy : WrapPolicy
  newer      : NewerPolicy
  deriving DecidableEq, Repr

namespace Config

/-- `BC = ceil(D / 8)`, the block count (R7, R140). -/
def bc (c : Config) : Nat := (c.dSize + 7) / 8

/-- `SLOT = BC * 9`, the physical size of the file in bytes (R7, R140). -/
def slot (c : Config) : Nat := c.bc * 9

/-- `NSLOTS = floor(EEPROM_SIZE / SLOT)` (R7, R72). -/
def nslots (c : Config) : Nat := c.eepromSize / c.slot

/-- `MAXADDR = NSLOTS * SLOT` (R7, R72). -/
def maxAddr (c : Config) : Nat := c.nslots * c.slot

/-- The constraints that make the parameters an NS2-EDAC instance (R8):
`4 <= D <= 65535` and `SLOT <= EEPROM_SIZE <= 2^32 - 1`. -/
abbrev Valid (c : Config) : Prop :=
  4 ≤ c.dSize ∧ c.dSize ≤ 65535 ∧ c.slot ≤ c.eepromSize ∧ c.eepromSize ≤ 2 ^ 32 - 1

/-- The instance with sizes `d` and `e` and the default of every convention (R7, last column). -/
def ofSizes (d e : Nat) : Config where
  dSize := d
  eepromSize := e
  bitOrder := .lsb0
  byteOrder := .le
  oorPolicy := .uncorrectable
  wrapPolicy := .fault
  newer := .unsigned

/-- The instance of `State.reset`: `I12` of spec/95_test_vectors.md section 0, `D = 12`, `EEPROM_SIZE = 64`,
default conventions. DESIGN CHOICE (notes/assumptions/1.md): the spec fixes no instance (N18). -/
def i12 : Config := ofSizes 12 64

end Config

end Sys2Proof
end

