-- ==== Sys2Proof/Machine/State.lean ====
section
/-! DEFINITION. The state of NS2-EDAC as plain data (spec/10_state.md): the five data buffers (R21 to R25), the
control registers (R27 to R38) and the EEPROM array (R40), with two fields of the model's own: the accesses the
host and the environment have yet to make, and the event history (spec/20_memory.md R80). -/

namespace Sys2Proof.Machine

/-- The value of `STATUS.ERR`: the seven command error codes of spec/60_exceptions.md R221, and no other (U18). -/
inductive ErrCode where
  | ok
  | illegalOpcode
  | reservedField
  | badSelect
  | indexOob
  | eeAddrOob
  | ctrWrap
  deriving DecidableEq, Repr

/-- An `ErrorReport{size, position}` (R27, spec/41_hamming_block.md R125). A report of size 0 or 2 has position -1;
one of size 1 names a position of seven bits (0..71, or 72..127 with `OOR_POLICY = literal`, R126). -/
inductive ErrorReport where
  | noError
  | single (position : Syndrome)
  | uncorrectable
  deriving DecidableEq, Repr

/-- The EEPROM's content (R40) as address and byte pairs, addresses strictly rising, no byte equal to what an
unlisted address reads as (`Memory.wf`). -/
abbrev Memory := List Host.Cell

/-- What the five buffers hold when power returns: a free input of the reset (R44, U1). Each list is fitted to the
size of its buffer. -/
structure BufferFill where
  msg  : List Byte
  blk  : List Byte
  lbuf : List Byte
  fb   : List Block
  phys : List Byte
  deriving DecidableEq, Repr

/-- One move of the outside world: a host access (spec/20_memory.md R60) or a move of the environment
(spec/60_exceptions.md R237 to R239). -/
inductive Input where
  /-- `RegRead(n)` (R60). -/
  | regRead (n : Nat)
  /-- `RegWrite(n, v)`; with `n = 0` it issues the command `v` (R30). -/
  | regWrite (n : Nat) (v : Word)
  /-- `BufRead(sel, off)` (R62). -/
  | bufRead (sel off : Nat)
  /-- `BufWrite(sel, off, v)` (R62). -/
  | bufWrite (sel off : Nat) (v : Byte)
  /-- The environment inverts one bit of one EEPROM byte (R238). -/
  | seu (addr : Nat) (bit : Fin 8)
  /-- Power is lost between host accesses and returns (R239, R250). -/
  | powerCycle (fill : BufferFill)
  /-- The host issues command `w`; power is lost after `accesses` of its EEPROM accesses and returns (R239,
  spec/70_reset_and_hazards.md R262: the cut point is the number of byte writes among them). -/
  | powerLossInCommand (w : Word) (accesses : Nat) (fill : BufferFill)
  deriving DecidableEq, Repr

/-- One event of a run, with the value a read returned. The host accesses, command issues and EEPROM accesses are those
R80 lists. DESIGN CHOICE (log entry 6): R80 names no move of the environment, and `seu` and `powerLoss` record those
too. -/
inductive Event where
  | regRead (n : Nat) (v : Word)
  | regWrite (n : Nat) (v : Word)
  | bufRead (sel off : Nat) (v : Byte)
  | bufWrite (sel off : Nat) (v : Byte)
  | command (w : Word)
  | eeRead (addr : Nat) (v : Byte)
  | eeWrite (addr : Nat) (v : Byte)
  | seu (addr : Nat) (bit : Fin 8)
  | powerLoss
  deriving DecidableEq, Repr

/-- The state. Every register has one home; `STATUS`, `ER`, `EVENTS` and the `CFG_*` registers are words computed
from the fields that hold their content (Machine/Flags.lean). -/
structure State where
  /-- The instance parameters, read through `CFG_*` (n = 16..22, R38); no step changes them. -/
  cfg         : Config
  /-- MSG, 8 bytes (R21). -/
  msg         : List Byte
  /-- BLK, 9 bytes (R22). -/
  blk         : List Byte
  /-- LBUF, `D` bytes (R23). -/
  lbuf        : List Byte
  /-- FB, `BC` blocks; FBW is its byte alias (R24, R63). -/
  fb          : List Block
  /-- PHYS, `SLOT` bytes (R25). -/
  phys        : List Byte
  /-- `STATUS.ERR` (n = 1, R31). -/
  err         : ErrCode
  /-- `STATUS.SEEK_VALID` (n = 1, R31). -/
  seekValid   : Bool
  /-- ARG0 (n = 2, R32). -/
  arg0        : Word
  /-- RET (n = 3, R33). -/
  ret         : Word
  /-- ER (n = 4, R27). -/
  er          : ErrorReport
  /-- SCRUB_NUMERR (n = 5, R28). -/
  scrubNumErr : Word
  /-- SCRUB_CORR (n = 6, R28). -/
  scrubCorr   : Word
  /-- SCRUB_UNCORR (n = 7, R28). -/
  scrubUncorr : Word
  /-- WCTR (n = 8, R34). -/
  wctr        : Word
  /-- SEEK_ADDR (n = 9, R35). -/
  seekAddr    : Word
  /-- SEEK_CTR (n = 10, R35). -/
  seekCtr     : Word
  /-- `EVENTS[0]`, EEPROM_CORRUPTED (n = 11, R36). -/
  evCorrupted : Bool
  /-- `EVENTS[1]`, CMD_ERROR (n = 11, R36). -/
  evCmdError  : Bool
  /-- ERRINFO (n = 12, R37). -/
  errInfo     : Word
  /-- EE, the EEPROM array (R40). -/
  ee          : Memory
  /-- The model's own: the moves of the host and the environment still to come, next first. -/
  pending     : List Input
  /-- The model's own: the event history (R80), oldest first. -/
  history     : List Event
  deriving DecidableEq, Repr

/-- Why a step stops with a fault. -/
inductive Fault where
  /-- A ring command would access the slot at `addr`, which does not lie inside the device: `EeRead` and `EeWrite`
  are defined only below `EEPROM_SIZE` (R64). Raised by RSAVE and RLOAD, and only where the parameters are not those
  of an instance (R8); safe. -/
  | eeAddress (addr : Nat)
  deriving DecidableEq, Repr

/-- Why a step has no meaning. -/
inductive Refusal where
  /-- An instruction that has no meaning in the model yet; raised by `exec`'s arms only; safe. -/
  | notModelled (mnemonic : String)
  /-- The parameters violate R8: not an NS2-EDAC instance, which a model refuses (R8, U20). Raised by `step`; safe. -/
  | notAnInstance
  /-- The environment has no such move: a bit flip outside the device (R238), or more EEPROM accesses before a
  power loss than the command makes (R239). Raised when an input is served; safe. -/
  | noSuchMove
  deriving DecidableEq, Repr

/-- The machine right after reset (R44, R251): every control register at the value R44 gives. R44 leaves the five
buffers unspecified, the EEPROM's first content too (R254) and the instance open (R7): here the buffers are zero,
the EEPROM lists nothing and the instance is `Config.i12`. DESIGN CHOICE, unsafe (notes/assumptions/1.md to 3.md);
`State.afterReset` takes any other contents. -/
def State.reset : State where
  cfg := Config.i12
  msg := List.replicate 8 0
  blk := List.replicate 9 0
  lbuf := List.replicate Config.i12.dSize 0
  fb := List.replicate Config.i12.bc 0
  phys := List.replicate Config.i12.slot 0
  err := .ok
  seekValid := false
  arg0 := 0
  ret := 0
  er := .noError
  scrubNumErr := 0
  scrubCorr := 0
  scrubUncorr := 0
  wctr := 0
  seekAddr := 0
  seekCtr := 0
  evCorrupted := false
  evCmdError := false
  errInfo := 0
  ee := []
  pending := []
  history := []

end Sys2Proof.Machine
end

