-- ==== Sys2Proof/Machine/Ops.lean ====
section
/-! DEFINITION. The operations every command shares: reading and writing the EEPROM (spec/10_state.md R40,
spec/20_memory.md R64), ending a command with and without an error (spec/60_exceptions.md R222, R229), the event
history (R80) and the reset (R44). -/

namespace Sys2Proof.Machine

/-! ### The EEPROM -/

/-- What an EEPROM address that the list does not name reads as. DESIGN CHOICE, unsafe (notes/assumptions/3.md):
the spec leaves the first content of a device unspecified (R254, U2). -/
def Memory.unlisted : Byte := 0

/-- The byte at address `a`: `EE[a]` of R40. -/
def Memory.read (m : Memory) (a : Nat) : Byte :=
  match m with
  | [] => Memory.unlisted
  | (b, v) :: rest => if a = b then v else Memory.read rest a

/-- `EE[a] <- v` and nothing else (R40), keeping the canonical form. -/
def Memory.write (m : Memory) (a : Nat) (v : Byte) : Memory :=
  match m with
  | [] => if v = Memory.unlisted then [] else [(a, v)]
  | (b, w) :: rest =>
    if a < b then (if v = Memory.unlisted then (b, w) :: rest else (a, v) :: (b, w) :: rest)
    else if a = b then (if v = Memory.unlisted then rest else (a, v) :: rest)
    else (b, w) :: Memory.write rest a v

/-- The canonical form: addresses strictly rising, no byte equal to what an unlisted address reads as. -/
def Memory.wf : Memory → Bool
  | [] => true
  | (a, v) :: rest => v != Memory.unlisted && rest.all (fun c => a < c.1) && Memory.wf rest

/-- The `n` bytes from address `a` up, in ascending order (R75). -/
def Memory.readBytes (m : Memory) (a n : Nat) : List Byte := (List.range n).map fun i => m.read (a + i)

/-- The `n` `EeRead` events of the bytes from address `a` up (R80). -/
def Memory.readEvents (m : Memory) (a n : Nat) : List Event :=
  (List.range n).map fun i => .eeRead (a + i) (m.read (a + i))

/-! ### The history -/

/-- Append events to the history (R80). -/
def State.record (s : State) (es : List Event) : State := { s with history := s.history ++ es }

/-! ### How a command ends -/

/-- The command completed without error: `STATUS.ERR <- 0` (R31, R180). Nothing returns from a command error
(R229): a later command that completes overwrites `ERR` and leaves ERRINFO and `EVENTS[1]` as they are. -/
def State.complete (s : State) : State := { s with err := .ok }

/-- `raise CmdError(code, info)` (R222): exactly the three writes `STATUS.ERR <- code`, `ERRINFO <- info`,
`EVENTS[1] <- 1`. The one exception of this machine; control goes nowhere. -/
def State.raise (s : State) (code : ErrCode) (info : Word) : State :=
  { s with err := code, errInfo := info, evCmdError := true }

/-- The error code of a refused command word (R96, R97, R221). -/
def decodeErrCode : DecodeError → ErrCode
  | .illegalOpcode => .illegalOpcode
  | .reservedField => .reservedField

/-! ### Reset -/

/-- A list brought to length `n`: cut, or filled up with `z`. -/
def fit {α : Type} (n : Nat) (z : α) (l : List α) : List α := (l ++ List.replicate n z).take n

/-- The machine after power returns, the buffers holding `fill` (R44, R239, R251, U1): the volatile state at its
reset values, the EEPROM and the instance parameters as they were. -/
def State.afterReset (s : State) (fill : BufferFill) : State :=
  { State.reset with
    cfg := s.cfg
    msg := fit 8 0 fill.msg
    blk := fit 9 0 fill.blk
    lbuf := fit s.cfg.dSize 0 fill.lbuf
    fb := fit s.cfg.bc 0 fill.fb
    phys := fit s.cfg.slot 0 fill.phys
    ee := s.ee
    pending := s.pending
    history := s.history }

end Sys2Proof.Machine
end

