-- ==== Sys2Proof/Machine/Flags.lean ====
section
/-! DEFINITION. The control register file as the host sees it (spec/10_state.md R29 to R39): the words computed from
the flags and reports of the state (STATUS, ER, EVENTS, CFG_FLAGS), and reading and writing a register by number. -/

namespace Sys2Proof.Machine

/-- The number of a command error code (spec/60_exceptions.md R221). -/
def ErrCode.code : ErrCode → Byte
  | .ok => 0
  | .illegalOpcode => 1
  | .reservedField => 2
  | .badSelect => 3
  | .indexOob => 4
  | .eeAddrOob => 5
  | .ctrWrap => 6

/-- `STATUS` (R31): `ERR` in bits 7:0, `SEEK_VALID` in bit 8, the others 0. -/
def State.statusWord (s : State) : Word :=
  (0#23 : BitVec 23) ++ BitVec.ofBool s.seekValid ++ s.err.code

/-- `size` of an ErrorReport (R27, R125). -/
def ErrorReport.size : ErrorReport → Nat
  | .noError => 0
  | .single _ => 1
  | .uncorrectable => 2

/-- `position` of an ErrorReport as an `i8` in its eight bits (R27): -1 is 0xFF. -/
def ErrorReport.positionByte : ErrorReport → Byte
  | .noError => 0xFF
  | .single p => p.setWidth 8
  | .uncorrectable => 0xFF

/-- The word of the ER register (R27): `size` in bits 1:0, `position` in bits 15:8, the others 0. -/
def ErrorReport.word (r : ErrorReport) : Word :=
  (0#16 : BitVec 16) ++ r.positionByte ++ BitVec.ofNat 8 r.size

/-- `EVENTS` (R36): EEPROM_CORRUPTED in bit 0, CMD_ERROR in bit 1, the others 0. -/
def State.eventsWord (s : State) : Word :=
  (0#30 : BitVec 30) ++ BitVec.ofBool s.evCmdError ++ BitVec.ofBool s.evCorrupted

/-- `CFG_FLAGS` (R38): bits 0 to 4 are BITORDER, BYTEORDER, OOR_POLICY, WRAP_POLICY, NEWER, the others 0; the
default of each reads 0. -/
def cfgFlagsWord (c : Config) : Word :=
  (0#27 : BitVec 27)
    ++ BitVec.ofBool (c.newer == .serial)
    ++ BitVec.ofBool (c.wrapPolicy == .wrap)
    ++ BitVec.ofBool (c.oorPolicy == .literal)
    ++ BitVec.ofBool (c.byteOrder == .be)
    ++ BitVec.ofBool (c.bitOrder == .msb0)

/-- `RegRead(n)` (R29, R39): CMD and the reserved numbers read 0. -/
def State.regRead (s : State) (n : Nat) : Word :=
  match n with
  | 1 => s.statusWord
  | 2 => s.arg0
  | 3 => s.ret
  | 4 => s.er.word
  | 5 => s.scrubNumErr
  | 6 => s.scrubCorr
  | 7 => s.scrubUncorr
  | 8 => s.wctr
  | 9 => s.seekAddr
  | 10 => s.seekCtr
  | 11 => s.eventsWord
  | 12 => s.errInfo
  | 16 => BitVec.ofNat 32 s.cfg.dSize
  | 17 => BitVec.ofNat 32 s.cfg.bc
  | 18 => BitVec.ofNat 32 s.cfg.slot
  | 19 => BitVec.ofNat 32 s.cfg.eepromSize
  | 20 => BitVec.ofNat 32 s.cfg.maxAddr
  | 21 => BitVec.ofNat 32 s.cfg.nslots
  | 22 => cfgFlagsWord s.cfg
  | _ => 0

/-- `RegWrite(n, v)` for a register other than CMD (R29): ARG0 and WCTR take the value, a 1 written to a bit of
EVENTS clears it (R36), every other number ignores the write (R39). -/
def State.regStore (s : State) (n : Nat) (v : Word) : State :=
  match n with
  | 2 => { s with arg0 := v }
  | 8 => { s with wctr := v }
  | 11 =>
    { s with
      evCorrupted := s.evCorrupted && !v.getLsbD 0
      evCmdError := s.evCmdError && !v.getLsbD 1 }
  | _ => s

end Sys2Proof.Machine
end

