-- ==== Sys2Proof/Machine/Operands.lean ====
section
/-! DEFINITION. The operand forms of the commands: bits of a byte buffer (spec/20_memory.md R65), the five buffers
as bits and as bytes (R62, R63, R110), and the ARG0 operands with their checks (spec/40_bitview.md R111,
spec/44_system_commands.md R184). -/

namespace Sys2Proof.Machine

/-! ### Bits and bytes -/

/-- The number whose bits, from the least significant up, are `l`. -/
def natOfBits : List Bool → Nat
  | [] => 0
  | b :: l => b.toNat + 2 * natOfBits l

/-- The `n`-bit vector whose bit `i` is `f i`. -/
def ofBitFn (n : Nat) (f : Nat → Bool) : BitVec n := BitVec.ofNat n (natOfBits ((List.range n).map f))

/-- `s(i)` of R65 for a bit index `j = i mod 8` within its byte. Its own inverse. -/
def bitPlace (o : BitOrder) (j : Nat) : Nat :=
  match o with
  | .lsb0 => j
  | .msb0 => 7 - j

/-- `bit(B, i)` (R65). -/
def bitAt (o : BitOrder) (B : List Byte) (i : Nat) : Bool :=
  (B.getD (i / 8) 0).getLsbD (bitPlace o (i % 8))

/-- A byte with its bit `n` replaced by `v` (R65). -/
def setByteBit (b : Byte) (n : Nat) (v : Bool) : Byte :=
  (b &&& ~~~(1#8 <<< n)) ||| ((BitVec.ofBool v).setWidth 8 <<< n)

/-- `bit(B, i) <- v` (R65). -/
def setBitAt (o : BitOrder) (B : List Byte) (i : Nat) (v : Bool) : List Byte :=
  B.set (i / 8) (setByteBit (B.getD (i / 8) 0) (bitPlace o (i % 8)) v)

/-- The byte that holds the eight bits `f 0` to `f 7`, each placed by R65. -/
def packByte (o : BitOrder) (f : Nat → Bool) : Byte := ofBitFn 8 fun n => f (bitPlace o n)

/-- The `n` bytes that hold the bits `f 0` to `f (8 * n - 1)`, each placed by R65. -/
def packBytes (o : BitOrder) (n : Nat) (f : Nat → Bool) : List Byte :=
  (List.range n).map fun i => packByte o fun j => f (8 * i + j)

/-- The 72 bits of a 9-byte block in the wire format (R67). -/
def blockOfBytes (o : BitOrder) (B : List Byte) : Block := ofBitFn 72 (bitAt o B)

/-- The 9 bytes of a block in the wire format (R67). -/
def bytesOfBlock (o : BitOrder) (c : Block) : List Byte := packBytes o 9 c.getLsbD

/-- The 64 bits of an 8-byte message (R122). -/
def messageOfBytes (o : BitOrder) (B : List Byte) : Message := ofBitFn 64 (bitAt o B)

/-- The 8 bytes of a message (R122). -/
def bytesOfMessage (o : BitOrder) (m : Message) : List Byte := packBytes o 8 m.getLsbD

/-- The u32 formed from the first four bytes of a record (R66). -/
def counterOfBytes (o : ByteOrder) (B : List Byte) : Word :=
  match o with
  | .le => B.getD 3 0 ++ B.getD 2 0 ++ B.getD 1 0 ++ B.getD 0 0
  | .be => B.getD 0 0 ++ B.getD 1 0 ++ B.getD 2 0 ++ B.getD 3 0

/-- The four bytes of a u32 in `BYTEORDER` (R66). -/
def counterBytes (o : ByteOrder) (w : Word) : List Byte :=
  match o with
  | .le => [w.extractLsb' 0 8, w.extractLsb' 8 8, w.extractLsb' 16 8, w.extractLsb' 24 8]
  | .be => [w.extractLsb' 24 8, w.extractLsb' 16 8, w.extractLsb' 8 8, w.extractLsb' 0 8]

/-! ### Single bits of a block -/

/-- Block `c` with bit `p` replaced by `v`. -/
def setBlockBit (c : Block) (p : Nat) (v : Bool) : Block :=
  ofBitFn 72 fun q => if q = p then v else c.getLsbD q

/-- Byte `i` (0 to 8) of a block in the wire format: the byte of the FBW window (R63). -/
def blockByte (o : BitOrder) (c : Block) (i : Nat) : Byte := packByte o fun j => c.getLsbD (8 * i + j)

/-- Block `c` with byte `i` of its wire format replaced by `v` (R63, R68): exactly the bits `8i` to `8i + 7`. -/
def setBlockByte (o : BitOrder) (c : Block) (i : Nat) (v : Byte) : Block :=
  ofBitFn 72 fun q => if q / 8 = i then v.getLsbD (bitPlace o (q % 8)) else c.getLsbD q

/-! ### The five buffers -/

/-- The size of a buffer in bytes (R62). -/
def bufferSize (c : Config) : Buffer → Nat
  | .msg => 8
  | .blk => 9
  | .lbuf => c.dSize
  | .phys => c.slot
  | .fbw => c.slot

/-- `bit(B, i)` of a buffer; index `72 k + b` of FBW is `FB[k][b]` (R62, R110). -/
def State.bufBit (s : State) (b : Buffer) (i : Nat) : Bool :=
  match b with
  | .msg => bitAt s.cfg.bitOrder s.msg i
  | .blk => bitAt s.cfg.bitOrder s.blk i
  | .lbuf => bitAt s.cfg.bitOrder s.lbuf i
  | .phys => bitAt s.cfg.bitOrder s.phys i
  | .fbw => (s.fb.getD (i / 72) 0).getLsbD (i % 72)

/-- `bit(B, i) <- v` of a buffer (R65, R110). -/
def State.setBufBit (s : State) (b : Buffer) (i : Nat) (v : Bool) : State :=
  match b with
  | .msg => { s with msg := setBitAt s.cfg.bitOrder s.msg i v }
  | .blk => { s with blk := setBitAt s.cfg.bitOrder s.blk i v }
  | .lbuf => { s with lbuf := setBitAt s.cfg.bitOrder s.lbuf i v }
  | .phys => { s with phys := setBitAt s.cfg.bitOrder s.phys i v }
  | .fbw => { s with fb := s.fb.set (i / 72) (setBlockBit (s.fb.getD (i / 72) 0) (i % 72) v) }

/-- Byte `off` of a buffer; byte `9 k + i` of FBW is byte `i` of block `k` (R62, R63). -/
def State.bufByte (s : State) (b : Buffer) (off : Nat) : Byte :=
  match b with
  | .msg => s.msg.getD off 0
  | .blk => s.blk.getD off 0
  | .lbuf => s.lbuf.getD off 0
  | .phys => s.phys.getD off 0
  | .fbw => blockByte s.cfg.bitOrder (s.fb.getD (off / 9) 0) (off % 9)

/-- Byte `off` of a buffer replaced by `v` (R62, R63). -/
def State.setBufByte (s : State) (b : Buffer) (off : Nat) (v : Byte) : State :=
  match b with
  | .msg => { s with msg := s.msg.set off v }
  | .blk => { s with blk := s.blk.set off v }
  | .lbuf => { s with lbuf := s.lbuf.set off v }
  | .phys => { s with phys := s.phys.set off v }
  | .fbw =>
    { s with fb := s.fb.set (off / 9) (setBlockByte s.cfg.bitOrder (s.fb.getD (off / 9) 0) (off % 9) v) }

/-- `BufRead(sel, off)` (R62): 0 for a reserved `sel` or an offset out of range. -/
def State.hostBufRead (s : State) (sel off : Nat) : Byte :=
  match Buffer.ofSel sel with
  | none => 0
  | some b => if off < bufferSize s.cfg b then s.bufByte b off else 0

/-- `BufWrite(sel, off, v)` (R62): nothing for a reserved `sel` or an offset out of range. -/
def State.hostBufWrite (s : State) (sel off : Nat) (v : Byte) : State :=
  match Buffer.ofSel sel with
  | none => s
  | some b => if off < bufferSize s.cfg b then s.setBufByte b off v else s

/-! ### The ARG0 operands -/

/-- A command error that an operand check found: its code and its detail (R221). -/
structure CmdError where
  code : ErrCode
  info : Word
  deriving DecidableEq, Repr

/-- The buffer a BitView command works on, after the checks of R111 in the order of R226: `sel` names a buffer, and
`ARG0 < 8 * len`. -/
def State.bitOperand (s : State) (sel : BitVec 4) : Except CmdError Buffer :=
  match Buffer.ofSel sel.toNat with
  | none => .error ⟨.badSelect, sel.setWidth 32⟩
  | some b => if s.arg0.toNat < 8 * bufferSize s.cfg b then .ok b else .error ⟨.indexOob, s.arg0⟩

/-- The EEPROM address of EERD and EEWR, after its check (R184, R185): `ARG0 < EEPROM_SIZE`. -/
def State.eeOperand (s : State) : Except CmdError Nat :=
  if s.arg0.toNat < s.cfg.eepromSize then .ok s.arg0.toNat else .error ⟨.eeAddrOob, s.arg0⟩

end Sys2Proof.Machine
end

