-- ==== Sys2Proof/Machine/BitView.lean ====
section
/-! DEFINITION. The BitView commands (spec/40_bitview.md): BGET, BSET, BFLIP. -/

namespace Sys2Proof.Machine

/-- BGET (R112): `RET <- bit(B, ARG0)`. -/
def execBget (sel : BitVec 4) (s : State) : Host.Outcome State Fault Refusal :=
  match s.bitOperand sel with
  | .error e => .next (s.raise e.code e.info)
  | .ok b => .next { s with ret := (BitVec.ofBool (s.bufBit b s.arg0.toNat)).setWidth 32 }.complete

/-- BSET (R113): `bit(B, ARG0) <- v`. -/
def execBset (sel : BitVec 4) (v : Bool) (s : State) : Host.Outcome State Fault Refusal :=
  match s.bitOperand sel with
  | .error e => .next (s.raise e.code e.info)
  | .ok b => .next (s.setBufBit b s.arg0.toNat v).complete

/-- BFLIP (R114): `bit(B, ARG0) <- 1 - bit(B, ARG0)`. -/
def execBflip (sel : BitVec 4) (s : State) : Host.Outcome State Fault Refusal :=
  match s.bitOperand sel with
  | .error e => .next (s.raise e.code e.info)
  | .ok b => .next (s.setBufBit b s.arg0.toNat (!s.bufBit b s.arg0.toNat)).complete

end Sys2Proof.Machine
end

