-- ==== Sys2Proof/Machine/HammingBlock.lean ====
section
/-! DEFINITION. HammingBlock (spec/41_hamming_block.md): the four functions on bit vectors of section 2 and the
commands HENC, HSCAN, HCORR, HDEC that apply them to MSG and BLK. -/

namespace Sys2Proof.Machine

/-! ### Block layout -/

/-- The group-parity positions `PP` (R120): position `2^t` at index `t`. -/
def groupPositions : List Nat := [1, 2, 4, 8, 16, 32, 64]

/-- The data positions `DP` (R121): message bit `j` stands at position `dataPositions[j]`. -/
def dataPositions : List Nat :=
  [3, 5, 6, 7, 9, 10, 11, 12] ++ [13, 14, 15, 17, 18, 19, 20, 21]
    ++ [22, 23, 24, 25, 26, 27, 28, 29] ++ [30, 31, 33, 34, 35, 36, 37, 38]
    ++ [39, 40, 41, 42, 43, 44, 45, 46] ++ [47, 48, 49, 50, 51, 52, 53, 54]
    ++ [55, 56, 57, 58, 59, 60, 61, 62] ++ [63, 65, 66, 67, 68, 69, 70, 71]

/-- The positions 1 to 71, which the overall parity and the syndrome run over (R123, R125). -/
def codePositions : List Nat := List.range' 1 71

/-- What a block position holds (R120). -/
inductive Role where
  | overall
  | group (t : Nat)
  | data (j : Nat)
  deriving DecidableEq, Repr

/-- The role of position `p` (R120, R121): 0 the overall parity, `2^t` group `t`, and any other the message bit whose
number is the count of data positions below `p`, so that bit `j` stands at `DP[j]`. -/
def roleOf (p : Nat) : Role :=
  if p = 0 then .overall
  else
    match groupPositions.idxOf? p with
    | some t => .group t
    | none => .data (p - 1 - groupPositions.countP (· < p))

/-! ### The two sums of R13 (a), (b) -/

/-- `indexParity`: the XOR of the positions `p` of `ps` with `f p` (R123, R125). -/
def indexParity (ps : List Nat) (f : Nat → Bool) : Syndrome :=
  ps.foldr (fun p acc => if f p then BitVec.ofNat 7 p ^^^ acc else acc) 0

/-- The number of positions `p` of `ps` with `f p`, mod 2 (R123, R125). -/
def oddCount (ps : List Nat) (f : Nat → Bool) : Bool := ps.countP f % 2 == 1

/-! ### The four functions -/

/-- Bit `p` of the block being encoded, position 0 aside: a message bit or, at a group position, its bit of
`indexParity` (R123). -/
def encodedBit (m : Message) (ip : Syndrome) (p : Nat) : Bool :=
  match roleOf p with
  | .overall => false
  | .group t => ip.getLsbD t
  | .data j => m.getLsbD j

/-- The `indexParity` that the encoder accumulates over the data positions (R123). -/
def messageParity (m : Message) : Syndrome := indexParity dataPositions (encodedBit m 0)

/-- `hamming_encode` (R123). -/
def hammingEncode (m : Message) : Block :=
  let ip := messageParity m
  ofBitFn 72 fun p => if p = 0 then oddCount codePositions (encodedBit m ip) else encodedBit m ip p

/-- `hamming_scan` (R125), with the out-of-range syndrome of R126. -/
def hammingScan (policy : OorPolicy) (c : Block) : ErrorReport :=
  let ip := indexParity codePositions c.getLsbD
  if c.getLsbD 0 = oddCount codePositions c.getLsbD then
    if ip = 0 then .noError else .uncorrectable
  else if ip.toNat ≤ 71 then .single ip
  else
    match policy with
    | .uncorrectable => .uncorrectable
    | .literal => .single ip

/-- The block with the bit at position `p` inverted; no change at a position outside the block (R127). -/
def flipBlockBit (c : Block) (p : Nat) : Block :=
  if p ≤ 71 then setBlockBit c p (!c.getLsbD p) else c

/-- The block part of `hamming_correct` (R127): what `report`, the scan of `c`, makes of `c`. -/
def correctedBlock (report : ErrorReport) (c : Block) : Block :=
  match report with
  | .noError => c
  | .single p => flipBlockBit c p.toNat
  | .uncorrectable => c

/-- `hamming_correct` (R127): the corrected block and the report of the scan made before the flip. -/
def hammingCorrect (policy : OorPolicy) (c : Block) : Block × ErrorReport :=
  (correctedBlock (hammingScan policy c) c, hammingScan policy c)

/-- `hamming_decode` (R128). -/
def hammingDecode (c : Block) : Message := ofBitFn 64 fun j => c.getLsbD (dataPositions.getD j 0)

/-! ### The commands -/

/-- HENC (R130): encode MSG into BLK. -/
def execHenc (s : State) : Host.Outcome State Fault Refusal :=
  let c := hammingEncode (messageOfBytes s.cfg.bitOrder s.msg)
  .next { s with blk := bytesOfBlock s.cfg.bitOrder c }.complete

/-- HSCAN (R131): scan BLK into ER. -/
def execHscan (s : State) : Host.Outcome State Fault Refusal :=
  let r := hammingScan s.cfg.oorPolicy (blockOfBytes s.cfg.bitOrder s.blk)
  .next { s with er := r }.complete

/-- HCORR (R132): correct a single-bit error of BLK in place; ER takes the report of the scan before the flip. -/
def execHcorr (s : State) : Host.Outcome State Fault Refusal :=
  let cr := hammingCorrect s.cfg.oorPolicy (blockOfBytes s.cfg.bitOrder s.blk)
  .next { s with blk := bytesOfBlock s.cfg.bitOrder cr.1, er := cr.2 }.complete

/-- HDEC (R133): extract the message of BLK into MSG, without a check. -/
def execHdec (s : State) : Host.Outcome State Fault Refusal :=
  let m := hammingDecode (blockOfBytes s.cfg.bitOrder s.blk)
  .next { s with msg := bytesOfMessage s.cfg.bitOrder m }.complete

end Sys2Proof.Machine
end

