-- ==== Sys2Proof/Machine/EncodedFile.lean ====
section
/-! DEFINITION. EncodedFile (spec/42_encoded_file.md): the five file functions and the commands FENC, FGET, FFILL,
FSCRUB, FDEC that apply them to LBUF, FB and PHYS. -/

namespace Sys2Proof.Machine

/-! ### The file functions -/

/-- Message `k` of the padded logical buffer (R141, R142): its bit `j` is `bit(padded(L), 64 k + j)`. Bytes beyond
the buffer are 0. -/
def fileMessage (o : BitOrder) (L : List Byte) (k : Nat) : Message := ofBitFn 64 fun j => bitAt o L (64 * k + j)

/-- `file_encode` (R142) of a `D`-byte buffer into `n` blocks. -/
def fileEncode (o : BitOrder) (n : Nat) (L : List Byte) : List Block :=
  (List.range n).map fun k => hammingEncode (fileMessage o L k)

/-- `file_getdata` (R144): bit `g` of the image is bit `g div BC` of block `g mod BC`, the inverse of
`g(k, b) = k + b * BC` (R143). -/
def fileGetData (o : BitOrder) (F : List Block) : List Byte :=
  packBytes o (F.length * 9) fun g => (F.getD (g % F.length) 0).getLsbD (g / F.length)

/-- `file_fill` (R145): `F[k][b] <- bit(P, k + b * BC)`. -/
def fileFill (o : BitOrder) (n : Nat) (P : List Byte) : List Block :=
  (List.range n).map fun k => ofBitFn 72 fun b => bitAt o P (k + b * n)

/-- One block of `file_scrub` (R146): corrected, or zero-cleared when uncorrectable. -/
def scrubBlock (policy : OorPolicy) (c : Block) : Block :=
  match hammingCorrect policy c with
  | (_, .noError) => c
  | (c', .single _) => c'
  | (_, .uncorrectable) => 0

/-- The three counters of a scrub (R28, R146). -/
structure ScrubReport where
  numErrors   : Nat
  corrected   : Nat
  uncorrected : Nat
  deriving DecidableEq, Repr

/-- The counters of `file_scrub` (R146): the blocks whose report has size 1 or 2, size 1, size 2. -/
def scrubReport (policy : OorPolicy) (F : List Block) : ScrubReport where
  numErrors := F.countP fun c => (hammingScan policy c).size != 0
  corrected := F.countP fun c => (hammingScan policy c).size == 1
  uncorrected := F.countP fun c => (hammingScan policy c).size == 2

/-- `file_scrub` (R146). -/
def fileScrub (policy : OorPolicy) (F : List Block) : List Block × ScrubReport :=
  (F.map (scrubBlock policy), scrubReport policy F)

/-- `file_decode` (R147): the decoded messages one after another, cut to `d` bytes. -/
def fileDecode (o : BitOrder) (d : Nat) (F : List Block) : List Byte :=
  (F.flatMap fun c => bytesOfMessage o (hammingDecode c)).take d

/-- The scrub registers take a report (R28). -/
def State.withScrub (s : State) (r : ScrubReport) : State :=
  { s with
    scrubNumErr := BitVec.ofNat 32 r.numErrors
    scrubCorr := BitVec.ofNat 32 r.corrected
    scrubUncorr := BitVec.ofNat 32 r.uncorrected }

/-! ### The commands -/

/-- FENC (R148): `FB <- file_encode(LBUF)`. -/
def execFenc (s : State) : Host.Outcome State Fault Refusal :=
  .next { s with fb := fileEncode s.cfg.bitOrder s.cfg.bc s.lbuf }.complete

/-- FGET (R149): `PHYS <- file_getdata(FB)`. -/
def execFget (s : State) : Host.Outcome State Fault Refusal :=
  .next { s with phys := fileGetData s.cfg.bitOrder s.fb }.complete

/-- FFILL (R150): `FB <- file_fill(PHYS)`. -/
def execFfill (s : State) : Host.Outcome State Fault Refusal :=
  .next { s with fb := fileFill s.cfg.bitOrder s.cfg.bc s.phys }.complete

/-- FSCRUB (R151): scrub FB and report. -/
def execFscrub (s : State) : Host.Outcome State Fault Refusal :=
  let fr := fileScrub s.cfg.oorPolicy s.fb
  .next (({ s with fb := fr.1 }.withScrub fr.2).complete)

/-- FDEC (R152): `LBUF <- file_decode(FB)`. -/
def execFdec (s : State) : Host.Outcome State Fault Refusal :=
  .next { s with lbuf := fileDecode s.cfg.bitOrder s.cfg.dSize s.fb }.complete

end Sys2Proof.Machine
end

