-- ==== Sys2Proof/Machine/RingManager.lean ====
section
/-! DEFINITION. The ring manager (spec/43_ring_manager.md): slot addresses, the differential write, the seek and the
load, and the commands RSAVE, RSEEK, RLOAD. -/

namespace Sys2Proof.Machine

/-! ### Geometry and helper functions -/

/-- `slotAddress(w) = (w * SLOT) mod MAXADDR`, the product exact (R161). -/
def slotAddress (c : Config) (w : Word) : Nat := (w.toNat * c.slot) % c.maxAddr

/-- The slot at `a` lies inside the device (R64). -/
def slotFits (c : Config) (a : Nat) : Bool := a + c.slot ≤ c.eepromSize

/-- `ctr_of(F)` (R162): the u32 of the first four bytes of block 0's message. -/
def counterOfFile (c : Config) (F : List Block) : Word :=
  counterOfBytes c.byteOrder (bytesOfMessage c.bitOrder (hammingDecode (F.getD 0 0)))

/-- `NEWER(a, b)` (R163). -/
def newerThan (p : NewerPolicy) (a b : Word) : Bool :=
  match p with
  | .unsigned => b.toNat < a.toNat
  | .serial => 1 ≤ (a - b).toNat && (a - b).toNat ≤ 2 ^ 31 - 1

/-- `LBUF[0..3] <-` the four bytes of a counter in `BYTEORDER` (R164). -/
def putCounter (o : ByteOrder) (w : Word) (L : List Byte) : List Byte := counterBytes o w ++ L.drop 4

/-! ### RSAVE -/

/-- What a differential write leaves (R165): the EEPROM, the count of bytes rewritten, the events. -/
structure DiffResult where
  ee     : Memory
  count  : Nat
  events : List Event
  deriving DecidableEq, Repr

/-- `differential_write(A, P)` (R165): byte by byte in ascending order, one read, then a write where the byte
differs. -/
def diffWrite (ee : Memory) (a : Nat) : List Byte → DiffResult
  | [] => ⟨ee, 0, []⟩
  | v :: P =>
    if ee.read a = v then
      let r := diffWrite ee (a + 1) P
      ⟨r.ee, r.count, .eeRead a (ee.read a) :: r.events⟩
    else
      let r := diffWrite (ee.write a v) (a + 1) P
      ⟨r.ee, r.count + 1, .eeRead a (ee.read a) :: .eeWrite a v :: r.events⟩

/-- The body of RSAVE once the counter is known not to overflow (R164). -/
def saveRecord (s : State) : Host.Outcome State Fault Refusal :=
  let w := s.wctr + 1
  let lbuf := putCounter s.cfg.byteOrder w s.lbuf
  let fb := fileEncode s.cfg.bitOrder s.cfg.bc lbuf
  let phys := fileGetData s.cfg.bitOrder fb
  let a := slotAddress s.cfg w
  if slotFits s.cfg a then
    let r := diffWrite s.ee a phys
    .next
      (({ s with
          wctr := w, lbuf := lbuf, fb := fb, phys := phys, ee := r.ee, ret := BitVec.ofNat 32 r.count }.record
        r.events).complete)
  else .fault (.eeAddress a)

/-- RSAVE (R164), with the overflow check of R166 before any change. -/
def execRsave (s : State) : Host.Outcome State Fault Refusal :=
  if s.wctr = BitVec.allOnes 32 ∧ s.cfg.wrapPolicy = .fault then .next (s.raise .ctrWrap (BitVec.allOnes 32))
  else saveRecord s

/-! ### RSEEK -/

/-- Read the slot at `a` into PHYS, fill FB from it and scrub it (the first steps of R167's loop and of R172's
load). -/
def State.readSlot (s : State) (a : Nat) : State :=
  let phys := s.ee.readBytes a s.cfg.slot
  let fr := fileScrub s.cfg.oorPolicy (fileFill s.cfg.bitOrder s.cfg.bc phys)
  ({ s with phys := phys, fb := fr.1 }.withScrub fr.2).record (s.ee.readEvents a s.cfg.slot)

/-- One round of the seek (R167): slot `k` is read and scrubbed, rejected if it has an uncorrectable block (R168),
and otherwise taken when it is the first valid one or newer than the best so far (R169). The running best stands in
SEEK_VALID, SEEK_ADDR and SEEK_CTR, which hold its final value (R41). -/
def State.seekSlot (s : State) (k : Nat) : State :=
  let t := s.readSlot (k * s.cfg.slot)
  let ctr := counterOfFile t.cfg t.fb
  if t.scrubUncorr = 0 ∧ (t.seekValid = false ∨ newerThan t.cfg.newer ctr t.seekCtr = true) then
    { t with seekValid := true, seekAddr := BitVec.ofNat 32 (k * s.cfg.slot), seekCtr := ctr }
  else t

/-- Every step of RSEEK but its write of RET (R167): from no valid slot, the slots in ascending order. -/
def State.seek (s : State) : State :=
  (List.range s.cfg.nslots).foldl State.seekSlot { s with seekValid := false, seekAddr := 0, seekCtr := 0 }

/-- RSEEK (R167): RET takes the address of the chosen slot. -/
def execRseek (s : State) : Host.Outcome State Fault Refusal :=
  let t := s.seek
  .next { t with ret := t.seekAddr }.complete

/-! ### RLOAD -/

/-- The load from the slot at `a` (R172): on an uncorrectable block the event and nothing decoded (R173), otherwise
LBUF, WCTR and RET = 1. -/
def State.loadSlot (s : State) (a : Nat) : State :=
  let t := s.readSlot a
  if t.scrubUncorr = 0 then
    let lbuf := fileDecode t.cfg.bitOrder t.cfg.dSize t.fb
    { t with lbuf := lbuf, wctr := counterOfBytes t.cfg.byteOrder lbuf, ret := 1 }
  else { t with evCorrupted := true, ret := 0 }

/-- RLOAD (R172). -/
def execRload (s : State) : Host.Outcome State Fault Refusal :=
  let t := s.seek
  let a := t.seekAddr.toNat
  if slotFits s.cfg a then .next (t.loadSlot a).complete else .fault (.eeAddress a)

end Sys2Proof.Machine
end

