-- ==== Sys2Proof/Machine/System.lean ====
section
/-! DEFINITION. The system commands (spec/44_system_commands.md): NOP, INIT, EERD, EEWR. -/

namespace Sys2Proof.Machine

/-- NOP (R181): nothing but `STATUS.ERR <- 0`. -/
def execNop (s : State) : Host.Outcome State Fault Refusal := .next s.complete

/-- INIT (R182): every buffer zero and every register at the value of R44's last column; the EEPROM and the instance
parameters are not touched. -/
def execInit (s : State) : Host.Outcome State Fault Refusal :=
  .next
    { s with
      msg := List.replicate 8 0
      blk := List.replicate 9 0
      lbuf := List.replicate s.cfg.dSize 0
      fb := List.replicate s.cfg.bc 0
      phys := List.replicate s.cfg.slot 0
      seekValid := false
      arg0 := 0
      ret := 0
      er := .noError
      scrubNumErr := 0
      scrubCorr := 0
      scrubUncorr := 0
      wctr := 0
      seekAddr := 0
      seekCtr := 0
      evCorrupted := false
      evCmdError := false
      errInfo := 0 }.complete

/-- EERD (R184): `RET <- EE[ARG0]`, one `EeRead`. -/
def execEerd (s : State) : Host.Outcome State Fault Refusal :=
  match s.eeOperand with
  | .error e => .next (s.raise e.code e.info)
  | .ok a => .next (({ s with ret := (s.ee.read a).setWidth 32 }.record [.eeRead a (s.ee.read a)]).complete)

/-- EEWR (R185): `EE[ARG0] <- data`, one `EeWrite` even where the byte already holds `data`. -/
def execEewr (data : Byte) (s : State) : Host.Outcome State Fault Refusal :=
  match s.eeOperand with
  | .error e => .next (s.raise e.code e.info)
  | .ok a => .next (({ s with ee := s.ee.write a data }.record [.eeWrite a data]).complete)

end Sys2Proof.Machine
end

