-- ==== Sys2Proof/Machine/Dispatch.lean ====
section
/-! DEFINITION. The dispatch: one arm per constructor of `Instr`, each one direct call of its meaning. -/

namespace Sys2Proof.Machine

/-- Run one decoded command to completion (spec/10_state.md R30). -/
def exec (i : Instr) (s : State) : Host.Outcome State Fault Refusal :=
  match i with
  | .nop => Sys2Proof.Machine.execNop s
  | .init => Sys2Proof.Machine.execInit s
  | .bget sel => Sys2Proof.Machine.execBget sel s
  | .bset sel v => Sys2Proof.Machine.execBset sel v s
  | .bflip sel => Sys2Proof.Machine.execBflip sel s
  | .henc => Sys2Proof.Machine.execHenc s
  | .hscan => Sys2Proof.Machine.execHscan s
  | .hcorr => Sys2Proof.Machine.execHcorr s
  | .hdec => Sys2Proof.Machine.execHdec s
  | .fenc => Sys2Proof.Machine.execFenc s
  | .fget => Sys2Proof.Machine.execFget s
  | .ffill => Sys2Proof.Machine.execFfill s
  | .fscrub => Sys2Proof.Machine.execFscrub s
  | .fdec => Sys2Proof.Machine.execFdec s
  | .rsave => Sys2Proof.Machine.execRsave s
  | .rseek => Sys2Proof.Machine.execRseek s
  | .rload => Sys2Proof.Machine.execRload s
  | .eerd => Sys2Proof.Machine.execEerd s
  | .eewr data => Sys2Proof.Machine.execEewr data s

end Sys2Proof.Machine
end

