-- ==== Sys2Proof/Machine/HostPort.lean ====
section
/-! DEFINITION. How the outside world drives the core: host accesses (spec/20_memory.md R60 to R62, R71), the issue
of a command by a write to CMD (spec/10_state.md R30), and the moves of the environment (spec/60_exceptions.md
R238, R239). -/

namespace Sys2Proof.Machine

/-- The host writes `w` to CMD (R30): the word is decoded and, where it is a command, run to completion; a word that
is none ends in the command error of R96 or R97, its detail the word itself (R221). -/
def issueCommand (w : Word) (s : State) : Host.Outcome State Fault Refusal :=
  match decode w with
  | .ok i => exec i (s.record [.command w])
  | .error e => .next ((s.record [.command w]).raise (decodeErrCode e) w)

/-- `RegWrite(n, v)` (R30, R71): register 0 issues a command, any other stores or is ignored. -/
def hostRegWrite (n : Nat) (v : Word) (s : State) : Host.Outcome State Fault Refusal :=
  if n = 0 then issueCommand v s else .next ((s.regStore n v).record [.regWrite n v])

/-- A single-event upset (R238): bit `bit` of `EE[a]` inverted. That it stands in the history is the model's choice (log
entry 6). -/
def flipEeBit (a : Nat) (bit : Fin 8) (s : State) : Host.Outcome State Fault Refusal :=
  if a < s.cfg.eepromSize then
    .next ({ s with ee := s.ee.write a (s.ee.read a ^^^ (1#8 <<< bit.val)) }.record [.seu a bit])
  else .refused .noSuchMove

/-- What the EEPROM holds after the writes among some events. -/
def applyWrites (ee : Memory) : List Event → Memory
  | [] => ee
  | .eeWrite a v :: es => applyWrites (ee.write a v) es
  | _ :: es => applyWrites ee es

/-- Power is lost after the first `n` EEPROM accesses of command `w` and returns (R239, R262): the bytes written so
far stay, each whole (R70), and the volatile state is lost. -/
def losePowerIn (w : Word) (n : Nat) (fill : BufferFill) (s : State) : Host.Outcome State Fault Refusal :=
  match issueCommand w s with
  | .next t =>
    let es := t.history.drop (s.history.length + 1)
    if n ≤ es.length then
      let done := es.take n
      .next
        (({ s with ee := applyWrites s.ee done }.record
          (Event.command w :: done ++ [Event.powerLoss])).afterReset fill)
    else .refused .noSuchMove
  | .fault f => .fault f
  | .refused r => .refused r

/-- Serve one move of the outside world. A read changes no state but the history, where its value stands (R71,
R80). That the environment's moves stand in it too is the model's choice (log entry 6). -/
def serve (x : Input) (s : State) : Host.Outcome State Fault Refusal :=
  match x with
  | .regRead n => .next (s.record [.regRead n (s.regRead n)])
  | .regWrite n v => hostRegWrite n v s
  | .bufRead sel off => .next (s.record [.bufRead sel off (s.hostBufRead sel off)])
  | .bufWrite sel off v => .next ((s.hostBufWrite sel off v).record [.bufWrite sel off v])
  | .seu a bit => flipEeBit a bit s
  | .powerCycle fill => .next ((s.record [.powerLoss]).afterReset fill)
  | .powerLossInCommand w n fill => losePowerIn w n fill s

/-- The machine with instruction word `w` of `nbits` bits as the next move: the host writes it to CMD. -/
def enqueueWord (s : State) (nbits w : Nat) : State :=
  { s with pending := .regWrite 0 (BitVec.ofNat 32 (w % 2 ^ nbits)) :: s.pending }

/-- One step of an instance: the next pending move is taken from the queue and served; with none the core rests,
for it acts only when a command is issued (R243). -/
def stepPending (s : State) : Host.Outcome State Fault Refusal :=
  match s.pending with
  | [] => .next s
  | x :: rest => serve x { s with pending := rest }

end Sys2Proof.Machine
end

