-- ==== Sys2Proof/Machine/Step.lean ====
section
/-! DEFINITION. The step. There is no program counter and no fetch from memory (spec/10_state.md R26,
spec/20_memory.md R78): what comes next is the host's or the environment's next move, which stands in
`State.pending`. -/

namespace Sys2Proof.Machine

/-- One step: the next move is served. Parameters that are not those of an instance are refused (R8, U20). -/
def step (s : State) : Host.Outcome State Fault Refusal :=
  if s.cfg.Valid then stepPending s else .refused .notAnInstance

/-- `s` with the instruction `w` of `nbits` bits (bit 0 its least significant, bits above `nbits` 0) as the word the
host writes to CMD next, so that the next step decodes and runs exactly it. -/
def State.withFetchWord (s : State) (nbits w : Nat) : State := enqueueWord s nbits w

end Sys2Proof.Machine
end

