-- ==== Sys2Proof/Machine/HostSoftware.lean ====
section
/-! DEFINITION. The host software contract (spec/48_host_software_contract.md). It is not hardware and no part of
`State` (spec/00_scope.md R4, spec/10_state.md R42): these are procedures of the host agent, built from host accesses
and commands served by the core. -/

namespace Sys2Proof.Machine

/-! ### What the host keeps (R190) -/

/-- The parameters of the host software (R7, R198): `NF`, the sentinel's value, and the fault codes the dispatch
table names, which the source leaves without numbers (N11). -/
structure HostParams where
  nf                : Nat
  sentinelMagic     : Byte
  unexpectedRestart : Nat
  eepromCorrupted   : Nat
  temperatureFaults : List Nat
  deriving DecidableEq, Repr

/-- The constraints on the host's parameters for a core of configuration `c` (R7, R191, R198): at least one fault
code, a sentinel other than 0, the two named codes in range, and the record of R191 filling LBUF. DESIGN CHOICE (log
entry 17): the spec gives the named codes no numbers and does not say that they differ, so the two may be one number, a
temperature code may equal either of them, and a temperature code outside the table is a code that is never logged. -/
abbrev HostParams.Valid (p : HostParams) (c : Config) : Prop :=
  1 ≤ p.nf ∧ p.sentinelMagic ≠ 0 ∧ p.unexpectedRestart < p.nf ∧ p.eepromCorrupted < p.nf ∧ c.dSize = 10 + 7 * p.nf

/-- PayloadData, the persistent header (R190). -/
structure PayloadData where
  writeCounter           : Word
  startCount             : BitVec 16
  consecutiveBadRestarts : BitVec 16
  recoveredMode          : Byte
  expectingRestart       : Byte
  deriving DecidableEq, Repr

/-- One entry of the FaultReport table (R190). -/
structure FaultReport where
  occurrences   : Byte
  startNum      : BitVec 16
  timestamp     : Word
  pendingAction : Bool
  deriving DecidableEq, Repr

/-- What the host emits to its surroundings, in order (R199, R204): warnings and log lines, and calls of the actuator
surface. -/
inductive HostAction where
  | warnInvalidCode (code : Int)
  | logNoAction (code : Nat)
  | enterSafeMode
  | setHeaterOverride (on : Bool)
  deriving DecidableEq, Repr

/-- The host's own state: the two singletons, the mark and switches of R42 and R205, and what it emitted. -/
structure HostState where
  params       : HostParams
  payload      : PayloadData
  table        : List FaultReport
  saveRequired : Bool
  actOnFaults  : Bool
  messaging    : Bool
  emitted      : List HostAction
  deriving DecidableEq, Repr

/-- Default values of PayloadData (R194). -/
def PayloadData.default : PayloadData := ⟨0, 0, 0, 0, 0⟩

/-- Default values of a FaultReport entry (R194). -/
def FaultReport.default : FaultReport := ⟨0, 0, 0, false⟩

/-- The host before any load: the singletons at the defaults of R194. DESIGN CHOICE (log entry 18): the "save required"
mark of R42, for which no rule gives a value here, starts false. -/
def HostState.initial (p : HostParams) (actOnFaults messaging : Bool) : HostState where
  params := p
  payload := PayloadData.default
  table := List.replicate p.nf FaultReport.default
  saveRequired := false
  actOnFaults := actOnFaults
  messaging := messaging
  emitted := []

/-! ### The record (R191) -/

/-- The `n` bytes of an unsigned field in `BYTEORDER` (R66, R191). -/
def fieldBytes (o : ByteOrder) (n v : Nat) : List Byte :=
  match o with
  | .le => (List.range n).map fun i => BitVec.ofNat 8 (v >>> (8 * i))
  | .be => ((List.range n).map fun i => BitVec.ofNat 8 (v >>> (8 * i))).reverse

/-- The number whose bytes, lowest first, are `l`. -/
def natOfBytes : List Byte → Nat
  | [] => 0
  | b :: l => b.toNat + 256 * natOfBytes l

/-- The value of an unsigned field whose bytes are `l` (R66, R191). -/
def fieldValue (o : ByteOrder) (l : List Byte) : Nat :=
  match o with
  | .le => natOfBytes l
  | .be => natOfBytes l.reverse

/-- The seven bytes of one fault code (R191). -/
def FaultReport.bytes (o : ByteOrder) (r : FaultReport) : List Byte :=
  r.occurrences :: (fieldBytes o 2 r.startNum.toNat ++ fieldBytes o 4 r.timestamp.toNat)

/-- The record's bytes from offset 4 up (R191, R192); offsets 0 to 3 are RSAVE's. -/
def HostState.recordBody (o : ByteOrder) (h : HostState) : List Byte :=
  fieldBytes o 2 h.payload.startCount.toNat ++ fieldBytes o 2 h.payload.consecutiveBadRestarts.toNat
    ++ [h.payload.recoveredMode] ++ h.table.flatMap (FaultReport.bytes o) ++ [h.payload.expectingRestart]

/-- The field of `n` bytes at offset `at` of a record. -/
def recordField (o : ByteOrder) (L : List Byte) (offset n : Nat) : Nat := fieldValue o ((L.drop offset).take n)

/-- Entry `c` of the table as the record holds it, no action pending (R191, R193). -/
def recordEntry (o : ByteOrder) (L : List Byte) (c : Nat) : FaultReport where
  occurrences := BitVec.ofNat 8 (recordField o L (9 + 7 * c) 1)
  startNum := BitVec.ofNat 16 (recordField o L (10 + 7 * c) 2)
  timestamp := BitVec.ofNat 32 (recordField o L (12 + 7 * c) 4)
  pendingAction := false

/-- The host's singletons set field by field from a record, the write counter from WCTR (R193). -/
def HostState.deserialise (h : HostState) (o : ByteOrder) (L : List Byte) (wctr : Word) : HostState :=
  { h with
    payload :=
      { writeCounter := wctr
        startCount := BitVec.ofNat 16 (recordField o L 4 2)
        consecutiveBadRestarts := BitVec.ofNat 16 (recordField o L 6 2)
        recoveredMode := BitVec.ofNat 8 (recordField o L 8 1)
        expectingRestart := BitVec.ofNat 8 (recordField o L (9 + 7 * h.params.nf) 1) }
    table := (List.range h.params.nf).map (recordEntry o L) }

/-! ### Fault logging (R198 to R202) -/

/-- One occurrence counted in an entry (R200): `startNum` and `timestamp` always, `occurrences` up to 255, the
pending action on the transitions to 1 and to 255 only. -/
def FaultReport.count (r : FaultReport) (startCount : BitVec 16) (nowMs : Nat) : FaultReport :=
  let occurrences := if r.occurrences.toNat < 255 then r.occurrences + 1 else r.occurrences
  { occurrences := occurrences
    startNum := startCount
    timestamp := BitVec.ofNat 32 nowMs
    pendingAction :=
      r.pendingAction || (occurrences != r.occurrences && (occurrences == 1 || occurrences == 255)) }

/-- Emit a warning or log line if messaging is enabled (R205). -/
def HostState.say (h : HostState) (a : HostAction) : HostState :=
  if h.messaging then { h with emitted := h.emitted ++ [a] } else h

/-- `logFault(code)` at time `nowMs` (R199, R200). -/
def HostState.logFault (h : HostState) (code : Int) (nowMs : Nat) : HostState :=
  if 0 ≤ code ∧ code < h.params.nf then
    { h with
      table := h.table.modify code.toNat fun r => r.count h.payload.startCount nowMs
      saveRequired := true }
  else h.say (.warnInvalidCode code)

/-- Every value of the two singletons the default (R194). DESIGN CHOICE (log entry 18): the "save required" mark, which is
none of these values, stays as it was. -/
def HostState.withDefaults (h : HostState) : HostState :=
  { h with payload := PayloadData.default, table := List.replicate h.params.nf FaultReport.default }

/-! ### Host accesses -/

/-- Serve accesses one after another, stopping at the first fault or refusal. -/
def serveAll : List Input → State → Host.Outcome State Fault Refusal
  | [], s => .next s
  | x :: xs, s =>
    match serve x s with
    | .next t => serveAll xs t
    | .fault f => .fault f
    | .refused r => .refused r

/-- `BufWrite(sel, off + i, l[i])` for every byte of `l` (R101). -/
def bufWrites (sel : Nat) (off : Nat) (l : List Byte) : List Input :=
  (List.range l.length).map fun i => .bufWrite sel (off + i) (l.getD i 0)

/-- `BufRead(sel, i)` for `i` below `n` (R101). -/
def bufReads (sel : Nat) (n : Nat) : List Input := (List.range n).map fun i => .bufRead sel i

/-- Issue the command `i`. -/
def issue (i : Instr) : Input := .regWrite 0 (encode i)

/-- Run accesses and go on with the core's next state. -/
def withCore (xs : List Input) (s : State) (k : State → Host.Outcome (HostState × State) Fault Refusal) :
    Host.Outcome (HostState × State) Fault Refusal :=
  match serveAll xs s with
  | .next t => k t
  | .fault f => .fault f
  | .refused r => .refused r

/-- Go on from what a host procedure leaves. -/
def thenHost (o : Host.Outcome (HostState × State) Fault Refusal)
    (k : HostState → State → Host.Outcome (HostState × State) Fault Refusal) :
    Host.Outcome (HostState × State) Fault Refusal :=
  match o with
  | .next (h, s) => k h s
  | .fault f => .fault f
  | .refused r => .refused r

/-! ### The procedures -/

/-- `save()` (R192, spec/30_encoding.md R102): serialise offsets 4 to D-1, RSAVE, read RET. The host's write counter
equals WCTR afterwards (R192); DEDUCED (log entry 12): without an access, for R102 has none. -/
def HostState.save (h : HostState) (s : State) : Host.Outcome (HostState × State) Fault Refusal :=
  withCore (bufWrites 2 4 (h.recordBody s.cfg.byteOrder) ++ [issue .rsave, .regRead 3]) s fun t =>
    .next ({ h with payload := { h.payload with writeCounter := t.wctr } }, t)

/-- EVENTS[0] seen set (R193, R225): the host clears it and logs EEPROM_CORRUPTED. -/
def HostState.noteCorruption (h : HostState) (nowMs : Nat) (s : State) :
    Host.Outcome (HostState × State) Fault Refusal :=
  withCore [.regWrite 11 1] s fun u => .next (h.logFault h.params.eepromCorrupted nowMs, u)

/-- `load()` (R193, spec/30_encoding.md R102): RLOAD, read RET, read EVENTS; where RET = 1 every field from LBUF,
otherwise the defaults of R194 (spec/92_eei_decisions.md D18). EVENTS[0], which a failed RLOAD has set, is then cleared
and EEPROM_CORRUPTED logged. DEDUCED (log entry 12): the defaults come before the log, for otherwise they would wipe it
out. DEDUCED (log entry 19): an EVENTS[0] seen set beside RET = 1 is treated alike, after the record's fields. DESIGN
CHOICE (log entry 18): no load changes the "save required" mark but through `logFault`. -/
def HostState.load (h : HostState) (nowMs : Nat) (s : State) : Host.Outcome (HostState × State) Fault Refusal :=
  withCore [issue .rload, .regRead 3, .regRead 11] s fun t =>
    if t.regRead 3 = 1 then
      withCore (bufReads 2 t.cfg.dSize ++ [.regRead 8]) t fun u =>
        let g := h.deserialise u.cfg.byteOrder ((List.range u.cfg.dSize).map (u.hostBufRead 2)) (u.regRead 8)
        if (t.regRead 11).getLsbD 0 then g.noteCorruption nowMs u else .next (g, u)
    else h.withDefaults.noteCorruption nowMs t

/-- The bookkeeping of `recordNewStart()` before its save (R195). -/
def HostState.countStart (h : HostState) (nowMs : Nat) : HostState :=
  let h1 := { h with payload := { h.payload with startCount := h.payload.startCount + 1 } }
  let h2 :=
    if h1.payload.expectingRestart ≠ h1.params.sentinelMagic then
      let f := h1.logFault h1.params.unexpectedRestart nowMs
      { f with payload := { f.payload with consecutiveBadRestarts := f.payload.consecutiveBadRestarts + 1 } }
    else { h1 with payload := { h1.payload with consecutiveBadRestarts := 0 } }
  { h2 with payload := { h2.payload with expectingRestart := 0 } }

/-- `recordNewStart()` (R195), called once per boot after `load()`. -/
def HostState.recordNewStart (h : HostState) (nowMs : Nat) (s : State) :
    Host.Outcome (HostState × State) Fault Refusal :=
  (h.countStart nowMs).save s

/-- `prepareForRestart()` (R196); `mode` is what the external `getMode()` returns. -/
def HostState.prepareForRestart (h : HostState) (mode : Byte) (s : State) :
    Host.Outcome (HostState × State) Fault Refusal :=
  { h with
    payload := { h.payload with expectingRestart := h.params.sentinelMagic, recoveredMode := mode } }.save s

/-- The boot sequence after a reset of the core (R257, spec/70_reset_and_hazards.md R258): the host's program starts with
its singletons at the defaults (R194), issues INIT, and runs `load()` and then `recordNewStart()`, whose save ends it. The
switches (R205) and the times of the two procedures are arguments (log entry 12). -/
def HostState.boot (p : HostParams) (actOnFaults messaging : Bool) (loadMs startMs : Nat) (s : State) :
    Host.Outcome (HostState × State) Fault Refusal :=
  withCore [issue .init] s fun t =>
    thenHost ((HostState.initial p actOnFaults messaging).load loadMs t) fun h u => h.recordNewStart startMs u

/-- A restart of the whole subsystem (R197, R250): power is lost and returns, the host's memory with it, so that of the
host only its parameters reach the boot; everything else reaches it through the EEPROM. -/
def HostState.restart (h : HostState) (fill : BufferFill) (actOnFaults messaging : Bool) (loadMs startMs : Nat)
    (s : State) : Host.Outcome (HostState × State) Fault Refusal :=
  withCore [.powerCycle fill] s (HostState.boot h.params actOnFaults messaging loadMs startMs)

/-- `resetPersistentData` of the host's singletons: every value the default (R194). Its effect on the EEPROM is not
in the source (N12, U24) and not modelled. DESIGN CHOICE (log entry 12): REG.WCTR stays as it was, though R34 names a
write of 0 to it here as an example. -/
def HostState.resetPersistentData (h : HostState) : HostState := h.withDefaults

/-- The corrective action of a fault code (R204). DESIGN CHOICE (log entry 17): a temperature code that is also one of the
two named codes takes the named code's action. -/
def HostState.dispatch (h : HostState) (code : Nat) : HostState :=
  if code = h.params.unexpectedRestart ∨ code = h.params.eepromCorrupted then
    { h with emitted := h.emitted ++ [.enterSafeMode] }
  else if code ∈ h.params.temperatureFaults then
    { h with emitted := h.emitted ++ [.setHeaterOverride false] }
  else h.say (.logNoAction code)

/-- One round of `handleFaults()` (R203): a pending action is cleared and, where faults are acted on, dispatched. -/
def HostState.handleCode (h : HostState) (code : Nat) : HostState :=
  if (h.table.getD code FaultReport.default).pendingAction then
    let h1 := { h with table := h.table.modify code fun r => { r with pendingAction := false } }
    if h1.actOnFaults then h1.dispatch code else h1
  else h

/-- The loop of `handleFaults()` over the fault codes in ascending order (R203). -/
def HostState.handleCodes (h : HostState) : HostState := (List.range h.params.nf).foldl HostState.handleCode h

/-- `handleFaults()` (R203): a save where one is marked required, then the pending actions. -/
def HostState.handleFaults (h : HostState) (s : State) : Host.Outcome (HostState × State) Fault Refusal :=
  if h.saveRequired then
    thenHost (h.save s) fun g t => .next ({ g with saveRequired := false }.handleCodes, t)
  else .next (h.handleCodes, s)

end Sys2Proof.Machine
end

