-- ==== Sys2Proof/Safety.lean ====
section
/-! DEFINITION. What claims are stated in: the invariant of the machine and what a run of steps or commands leaves. -/

namespace Sys2Proof.Machine

/-! ### Reading outcomes -/

/-- The next state of an outcome, where it has one. -/
def nextState {σ : Type} : Host.Outcome σ Fault Refusal → Option σ
  | .next s => some s
  | .fault _ => none
  | .refused _ => none

/-- Go on from an outcome's next state. -/
def andThen (o : Host.Outcome State Fault Refusal) (k : State → Host.Outcome State Fault Refusal) :
    Host.Outcome State Fault Refusal :=
  match o with
  | .next s => k s
  | .fault f => .fault f
  | .refused r => .refused r

/-! ### The invariant -/

/-- The five buffers have the sizes of spec/20_memory.md R62. -/
abbrev State.Sized (s : State) : Prop :=
  s.msg.length = 8 ∧ s.blk.length = 9 ∧ s.lbuf.length = s.cfg.dSize ∧ s.fb.length = s.cfg.bc
    ∧ s.phys.length = s.cfg.slot

/-- The EEPROM is in canonical form and holds no byte outside the device (spec/10_state.md R40). -/
abbrev State.EeOk (s : State) : Prop := s.ee.wf = true ∧ ∀ c ∈ s.ee, c.1 < s.cfg.eepromSize

/-- A report names no position above 71 under the default policy (R27). -/
def reportInRange (p : OorPolicy) : ErrorReport → Bool
  | .noError => true
  | .single q => q.toNat ≤ 71 || p == .literal
  | .uncorrectable => true

/-- The scrub registers describe a scrub (spec/42_encoded_file.md R155): `numErrors = corrected + uncorrected`, at
most `BC`. -/
abbrev State.ScrubOk (s : State) : Prop :=
  s.scrubNumErr.toNat = s.scrubCorr.toNat + s.scrubUncorr.toNat ∧ s.scrubNumErr.toNat ≤ s.cfg.bc

/-- SEEK_ADDR is the address of a slot, and both seek registers are 0 where no seek found one (R35, R170). -/
abbrev State.SeekOk (s : State) : Prop :=
  s.seekAddr.toNat % s.cfg.slot = 0 ∧ s.seekAddr.toNat < s.cfg.maxAddr
    ∧ (s.seekValid = false → s.seekAddr = 0 ∧ s.seekCtr = 0)

/-- The invariant: the parameters are those of an instance (R8) and every part of the state is as the rules of
spec/10_state.md say it always is. -/
abbrev State.Inv (s : State) : Prop :=
  s.cfg.Valid ∧ s.Sized ∧ s.EeOk ∧ reportInRange s.cfg.oorPolicy s.er = true ∧ s.ScrubOk ∧ s.SeekOk

/-! ### What a slot holds -/

/-- The blocks of the slot at `a` after its scrub (spec/43_ring_manager.md R167). -/
def slotBlocks (s : State) (a : Nat) : List Block :=
  (fileScrub s.cfg.oorPolicy (fileFill s.cfg.bitOrder s.cfg.bc (s.ee.readBytes a s.cfg.slot))).1

/-- The scrub report of the slot at `a`. -/
def slotReport (s : State) (a : Nat) : ScrubReport :=
  (fileScrub s.cfg.oorPolicy (fileFill s.cfg.bitOrder s.cfg.bc (s.ee.readBytes a s.cfg.slot))).2

/-- The slot at `a` is a candidate of a seek (R168): its scrub reports no uncorrectable block. -/
def slotAccepted (s : State) (a : Nat) : Bool := (slotReport s a).uncorrected == 0

/-- The counter of the slot at `a`, read after correction (R162, R168). -/
def slotCounter (s : State) (a : Nat) : Word := counterOfFile s.cfg (slotBlocks s a)

/-- The slot a seek chooses and its counter (R167 to R170): over the slots in ascending order, the first accepted
one, replaced by each later accepted one that is newer. -/
def seekChoice (s : State) : Option (Nat × Word) :=
  (List.range s.cfg.nslots).foldl
    (fun best k =>
      let a := k * s.cfg.slot
      match best with
      | none => if slotAccepted s a then some (a, slotCounter s a) else none
      | some (b, ctr) =>
        if slotAccepted s a && newerThan s.cfg.newer (slotCounter s a) ctr then some (a, slotCounter s a)
        else some (b, ctr))
    none

/-- The image that RSAVE writes (R164): the record with its new counter, encoded and interleaved. -/
def savedImage (s : State) : List Byte :=
  fileGetData s.cfg.bitOrder
    (fileEncode s.cfg.bitOrder s.cfg.bc (putCounter s.cfg.byteOrder (s.wctr + 1) s.lbuf))

/-- RSAVE does not end in CTR_WRAP (R166). -/
abbrev State.CanSave (s : State) : Prop := s.wctr ≠ BitVec.allOnes 32 ∨ s.cfg.wrapPolicy = .wrap

/-! ### The opcode map as the spec prints it -/

/-- The columns `match` and `mask` of R95, in the table's order. -/
def matchAndMask : List (Word × Word) :=
  [(0x00000000, 0xFFFFFFFF), (0x00000001, 0xFFFFFFFF), (0x00000010, 0xFFFFF0FF), (0x00000011, 0xFFFEF0FF),
    (0x00000012, 0xFFFFF0FF)]
    ++ [(0x00000020, 0xFFFFFFFF), (0x00000021, 0xFFFFFFFF), (0x00000022, 0xFFFFFFFF), (0x00000023, 0xFFFFFFFF)]
    ++ [(0x00000030, 0xFFFFFFFF), (0x00000031, 0xFFFFFFFF), (0x00000032, 0xFFFFFFFF), (0x00000033, 0xFFFFFFFF),
      (0x00000034, 0xFFFFFFFF)]
    ++ [(0x00000040, 0xFFFFFFFF), (0x00000041, 0xFFFFFFFF), (0x00000042, 0xFFFFFFFF)]
    ++ [(0x00000050, 0xFFFFFFFF), (0x00000051, 0xFF00FFFF)]

/-! ### Sequences -/

/-- One RSAVE after another, the host filling LBUF with the next payload before each (R175). -/
def saveAll : List (List Byte) → State → Host.Outcome State Fault Refusal
  | [], s => .next s
  | L :: rest, s => andThen (exec .rsave { s with lbuf := L }) (saveAll rest)

/-- The number of `EeWrite` events among some events (R80). -/
def countWrites (es : List Event) : Nat :=
  es.countP fun e => match e with
    | .eeWrite _ _ => true
    | _ => false

/-- The number of `EeRead` events among some events (R80, R271). -/
def countReads (es : List Event) : Nat :=
  es.countP fun e => match e with
    | .eeRead _ _ => true
    | _ => false

end Sys2Proof.Machine
end

