-- ==== Sys2Proof/Certificates/Slice0/Obligations.lean ====
section
/-! DEFINITION. The statements for the provers. Each says what a rule of the spec says of every state, or of every
state that meets its premises; a statement about FBW or the EEPROM reads them through the model's own read of one bit
or one byte. -/

open Sys2Proof Sys2Proof.Machine

/-! ### Encoding -/

/-- Decoding and encoding agree on all 32-bit words and all instructions (R91, R95): a word decodes to `i` exactly
when it is the word of `i`. -/
def Obligations.DecodeEncodeAgree : Prop :=
  ∀ (w : Word) (i : Instr), decode w = .ok i ↔ w = encode i

/-- Words written out from the opcode map (R95) and the worked encodings (R103), one or more of each family. -/
def Obligations.WrittenWordsDecode : Prop :=
  decode 0x00000000 = .ok .nop ∧ decode 0x00000001 = .ok .init ∧ decode 0x00000410 = .ok (.bget 4)
    ∧ decode 0x00010311 = .ok (.bset 3 true) ∧ decode 0x00000112 = .ok (.bflip 1) ∧ decode 0x00000020 = .ok .henc
    ∧ decode 0x00000023 = .ok .hdec ∧ decode 0x00000033 = .ok .fscrub ∧ decode 0x00000040 = .ok .rsave
    ∧ decode 0x00000042 = .ok .rload ∧ decode 0x00000050 = .ok .eerd ∧ decode 0x00270051 = .ok (.eewr 0x27)
    ∧ decode 0x00000002 = .error .illegalOpcode ∧ decode 0x00000120 = .error .reservedField
    ∧ decode 0x00020311 = .error .reservedField ∧ decode 0x00000512 = .ok (.bflip 5)

/-- Words that are no command (R96, R97): a word whose opcode no row of the map has ends in ILLEGAL_OPCODE, a word whose
opcode some row has but that no row matches under its mask in RESERVED_FIELD; the detail is the word and nothing else
changes. Every other word is a command. -/
def Obligations.RejectedWordsRaise : Prop :=
  ∀ (s : State) (w : Word),
    let legal := ∃ r ∈ matchAndMask, w &&& 0xFF = r.1 &&& 0xFF
    let matched := ∃ r ∈ matchAndMask, w &&& r.2 = r.1
    (¬ legal →
        serve (.regWrite 0 w) s =
          .next { s with err := .illegalOpcode, errInfo := w, evCmdError := true, history := s.history ++ [.command w] })
      ∧ (legal → ¬ matched →
        serve (.regWrite 0 w) s =
          .next { s with err := .reservedField, errInfo := w, evCmdError := true, history := s.history ++ [.command w] })
      ∧ (matched → legal ∧ ∃ i, decode w = .ok i)

/-! ### Steps and host accesses -/

/-- A write to CMD runs the command the word decodes to, as the next thing that happens (R30); CMD reads 0. -/
def Obligations.StepRunsDecodedCommand : Prop :=
  ∀ (s : State) (w : Word) (rest : List Input) (i : Instr),
    s.cfg.Valid → s.pending = .regWrite 0 w :: rest → decode w = .ok i →
      step s = exec i { s with pending := rest, history := s.history ++ [.command w] } ∧ s.regRead 0 = 0

/-- Host accesses other than a write to CMD never raise a command error (R231) and never reach the EEPROM (R40); the
reads change no state at all (R71), but that the value they return is recorded. -/
def Obligations.HostAccessesNeverRaise : Prop :=
  ∀ (s : State) (x : Input) (rest : List Input),
    s.cfg.Valid → s.pending = x :: rest →
      (∀ n, x = .regRead n →
          step s = .next { s with pending := rest, history := s.history ++ [.regRead n (s.regRead n)] })
        ∧ (∀ sel off, x = .bufRead sel off →
          step s = .next { s with pending := rest, history := s.history ++ [.bufRead sel off (s.hostBufRead sel off)] })
        ∧ ∀ n sel off u v, (n ≠ 0 ∧ x = .regWrite n u) ∨ x = .bufWrite sel off v →
          ∃ t, step s = .next t ∧ t.err = s.err ∧ t.errInfo = s.errInfo ∧ (t.evCmdError = true → s.evCmdError = true)
            ∧ t.ee = s.ee ∧ t.cfg = s.cfg ∧ t.pending = rest

/-- Register numbers (R29, R39): the reserved ones and CMD read 0, only ARG0, WCTR and EVENTS take a write, and a 1
written to a bit of EVENTS clears it. -/
def Obligations.RegisterFileRules : Prop :=
  ∀ (s : State) (n : Nat) (v : Word),
    (n = 0 ∨ (13 ≤ n ∧ n ≤ 15) ∨ 23 ≤ n → s.regRead n = 0)
      ∧ (n ≠ 2 ∧ n ≠ 8 ∧ n ≠ 11 → s.regStore n v = s)
      ∧ (n ≠ 0 → serve (.regWrite n v) s = .next ((s.regStore n v).record [.regWrite n v]))
      ∧ s.regStore 2 v = { s with arg0 := v } ∧ s.regStore 8 v = { s with wctr := v }
      ∧ (s.regStore 11 v).regRead 11 = s.regRead 11 &&& ~~~v
      ∧ s.regStore 11 v
        = { s with evCorrupted := (s.regStore 11 v).evCorrupted, evCmdError := (s.regStore 11 v).evCmdError }

/-- What every register reads (R27 to R38, numbers R29): STATUS, ER, EVENTS and CFG_FLAGS bit field by bit field, the
error codes with the numbers of R221, and the others the value of the state they show. -/
def Obligations.RegisterLayouts : Prop :=
  ∀ s : State,
    (∀ p ∈ [(ErrCode.ok, (0 : Byte)), (.illegalOpcode, 1), (.reservedField, 2), (.badSelect, 3), (.indexOob, 4),
        (.eeAddrOob, 5), (.ctrWrap, 6)], s.err = p.1 → (s.regRead 1).extractLsb' 0 8 = p.2)
      ∧ (s.regRead 1).getLsbD 8 = s.seekValid ∧ (s.regRead 1).extractLsb' 9 23 = 0
      ∧ [2, 3, 5, 6, 7, 8, 9, 10, 12].map s.regRead
        = [s.arg0, s.ret, s.scrubNumErr, s.scrubCorr, s.scrubUncorr, s.wctr, s.seekAddr, s.seekCtr, s.errInfo]
      ∧ ((s.regRead 4).extractLsb' 0 2).toNat = s.er.size ∧ (s.regRead 4).extractLsb' 2 6 = 0
      ∧ (s.regRead 4).extractLsb' 16 16 = 0
      ∧ (∀ p, s.er = .single p → s.er.size = 1 ∧ ((s.regRead 4).extractLsb' 8 8).toInt = p.toNat)
      ∧ (s.er = .noError → s.er.size = 0 ∧ ((s.regRead 4).extractLsb' 8 8).toInt = -1)
      ∧ (s.er = .uncorrectable → s.er.size = 2 ∧ ((s.regRead 4).extractLsb' 8 8).toInt = -1)
      ∧ (s.regRead 11).getLsbD 0 = s.evCorrupted ∧ (s.regRead 11).getLsbD 1 = s.evCmdError
      ∧ (s.regRead 11).extractLsb' 2 30 = 0
      ∧ ((s.regRead 22).getLsbD 0 = true ↔ s.cfg.bitOrder = .msb0)
      ∧ ((s.regRead 22).getLsbD 1 = true ↔ s.cfg.byteOrder = .be)
      ∧ ((s.regRead 22).getLsbD 2 = true ↔ s.cfg.oorPolicy = .literal)
      ∧ ((s.regRead 22).getLsbD 3 = true ↔ s.cfg.wrapPolicy = .wrap)
      ∧ ((s.regRead 22).getLsbD 4 = true ↔ s.cfg.newer = .serial)
      ∧ (s.regRead 22).extractLsb' 5 27 = 0
      ∧ [16, 17, 18, 19, 20, 21].map s.regRead
        = [s.cfg.dSize, s.cfg.bc, s.cfg.slot, s.cfg.eepromSize, s.cfg.maxAddr, s.cfg.nslots].map (BitVec.ofNat 32)

/-- Host buffer accesses (R62, R63): a byte written in range reads back, every other byte of every buffer stays, and
an access with a reserved select code or out of range reads 0 and writes nothing. -/
def Obligations.BufferReadAfterWrite : Prop :=
  ∀ (s : State) (sel off : Nat) (v : Byte), s.Sized →
    (∀ b, Buffer.ofSel sel = some b → off < bufferSize s.cfg b →
        (s.hostBufWrite sel off v).hostBufRead sel off = v
          ∧ (∀ sel' off', (sel', off') ≠ (sel, off) →
            (s.hostBufWrite sel off v).hostBufRead sel' off' = s.hostBufRead sel' off')
          ∧ (s.hostBufWrite sel off v).Sized)
      ∧ (5 ≤ sel ∨ (∃ b, Buffer.ofSel sel = some b ∧ bufferSize s.cfg b ≤ off) →
        s.hostBufRead sel off = 0 ∧ s.hostBufWrite sel off v = s)

/-- The byte view and the bit view of a buffer are one storage (R62, R63, R65, R68): bit `i` of any buffer, FBW among
them, is the bit of byte `i div 8` at the place R65 gives. -/
def Obligations.BitAndByteViewsAgree : Prop :=
  ∀ (s : State) (b : Buffer) (i : Nat),
    s.bufBit b i
      = (s.bufByte b (i / 8)).getLsbD (match s.cfg.bitOrder with
        | .lsb0 => i % 8
        | .msb0 => 7 - i % 8)

/-! ### System commands -/

/-- NOP clears ERR and does nothing else (R181). -/
def Obligations.NopClearsErrOnly : Prop :=
  ∀ s : State, exec .nop s = .next { s with err := .ok }

/-- INIT (R182): every buffer byte 0, every register at its value, the EEPROM and the parameters untouched. -/
def Obligations.InitClearsVolatileState : Prop :=
  ∀ s : State,
    exec .init s =
      .next
        { cfg := s.cfg, ee := s.ee, pending := s.pending, history := s.history
          msg := List.replicate 8 0, blk := List.replicate 9 0, lbuf := List.replicate s.cfg.dSize 0
          fb := List.replicate s.cfg.bc 0, phys := List.replicate s.cfg.slot 0
          arg0 := 0, ret := 0, er := .noError, scrubNumErr := 0, scrubCorr := 0, scrubUncorr := 0
          wctr := 0, seekAddr := 0, seekCtr := 0, seekValid := false
          evCorrupted := false, evCmdError := false, errInfo := 0, err := .ok }

/-- EERD (R184): RET takes the byte at ARG0; an address beyond the device is refused and RET keeps its value. -/
def Obligations.EerdReadsByte : Prop :=
  ∀ s : State,
    (s.arg0.toNat < s.cfg.eepromSize →
        exec .eerd s =
          .next
            { s with
              ret := BitVec.ofNat 32 (s.ee.read s.arg0.toNat).toNat
              err := .ok
              history := s.history ++ [.eeRead s.arg0.toNat (s.ee.read s.arg0.toNat)] })
      ∧ (s.cfg.eepromSize ≤ s.arg0.toNat →
        exec .eerd s = .next { s with err := .eeAddrOob, errInfo := s.arg0, evCmdError := true })

/-- EEWR (R185): the byte at ARG0 takes `data`, every other byte and every register but ERR stays; an address beyond
the device is refused and the EEPROM stays. -/
def Obligations.EewrWritesByte : Prop :=
  ∀ (s : State) (data : Byte), s.EeOk →
    (s.arg0.toNat < s.cfg.eepromSize →
        ∃ t, exec (.eewr data) s = .next t ∧ t.ee.read s.arg0.toNat = data
          ∧ (∀ a, a ≠ s.arg0.toNat → t.ee.read a = s.ee.read a)
          ∧ t = { s with ee := t.ee, err := .ok, history := s.history ++ [.eeWrite s.arg0.toNat data] })
      ∧ (s.cfg.eepromSize ≤ s.arg0.toNat →
        exec (.eewr data) s = .next { s with err := .eeAddrOob, errInfo := s.arg0, evCmdError := true })

/-! ### BitView -/

/-- BGET in range (R112): RET takes the bit at ARG0, no buffer changes. -/
def Obligations.BgetReadsBit : Prop :=
  ∀ (s : State) (sel : BitVec 4) (b : Buffer),
    Buffer.ofSel sel.toNat = some b → s.arg0.toNat < 8 * bufferSize s.cfg b →
      exec (.bget sel) s = .next { s with ret := if s.bufBit b s.arg0.toNat then 1 else 0, err := .ok }

/-- BSET in range (R113): the bit at ARG0 takes `v`, every other bit of every buffer and every register but ERR
stays. -/
def Obligations.BsetWritesBit : Prop :=
  ∀ (s : State) (sel : BitVec 4) (v : Bool) (b : Buffer),
    s.Sized → Buffer.ofSel sel.toNat = some b → s.arg0.toNat < 8 * bufferSize s.cfg b →
      ∃ t, exec (.bset sel v) s = .next t ∧ t.bufBit b s.arg0.toNat = v
        ∧ (∀ b' j, (b', j) ≠ (b, s.arg0.toNat) → t.bufBit b' j = s.bufBit b' j) ∧ t.Sized
        ∧ t = { s with msg := t.msg, blk := t.blk, lbuf := t.lbuf, fb := t.fb, phys := t.phys, err := .ok }

/-- BFLIP in range (R114): the bit at ARG0 is inverted, every other bit of every buffer and every register but ERR
stays. -/
def Obligations.BflipInvertsBit : Prop :=
  ∀ (s : State) (sel : BitVec 4) (b : Buffer),
    s.Sized → Buffer.ofSel sel.toNat = some b → s.arg0.toNat < 8 * bufferSize s.cfg b →
      ∃ t, exec (.bflip sel) s = .next t ∧ t.bufBit b s.arg0.toNat = !s.bufBit b s.arg0.toNat
        ∧ (∀ b' j, (b', j) ≠ (b, s.arg0.toNat) → t.bufBit b' j = s.bufBit b' j) ∧ t.Sized
        ∧ t = { s with msg := t.msg, blk := t.blk, lbuf := t.lbuf, fb := t.fb, phys := t.phys, err := .ok }

/-- Reading back (R115): BGET after BSET returns the bit written, BGET after BFLIP the complement of BGET before, and
neither changes what BGET returns at any other index. -/
def Obligations.BitViewReadsBack : Prop :=
  ∀ (s : State) (sel : BitVec 4) (v : Bool) (b : Buffer),
    s.Sized → Buffer.ofSel sel.toNat = some b → s.arg0.toNat < 8 * bufferSize s.cfg b →
      ∃ g t u f e, exec (.bget sel) s = .next g ∧ exec (.bset sel v) s = .next t ∧ exec (.bget sel) t = .next u
        ∧ exec (.bflip sel) s = .next f ∧ exec (.bget sel) f = .next e
        ∧ u.ret = (if v then 1 else 0) ∧ e.ret = 1 - g.ret
        ∧ ∀ j : Word, j ≠ s.arg0 → j.toNat < 8 * bufferSize s.cfg b →
          ∃ g' u' e', exec (.bget sel) { s with arg0 := j } = .next g' ∧ exec (.bget sel) { t with arg0 := j } = .next u'
            ∧ exec (.bget sel) { f with arg0 := j } = .next e' ∧ u'.ret = g'.ret ∧ e'.ret = g'.ret

/-- The checks of R111 for all three BitView commands: a reserved `sel` is BAD_SELECT, otherwise an index out of range
is INDEX_OOB, and no buffer and no RET changes. -/
def Obligations.BitViewRefusals : Prop :=
  ∀ (s : State) (sel : BitVec 4) (i : Instr),
    i = .bget sel ∨ (∃ v, i = .bset sel v) ∨ i = .bflip sel →
      (4 < sel.toNat →
          exec i s =
            .next { s with err := .badSelect, errInfo := BitVec.ofNat 32 sel.toNat, evCmdError := true })
        ∧ (∀ b, Buffer.ofSel sel.toNat = some b → 8 * bufferSize s.cfg b ≤ s.arg0.toNat →
          exec i s = .next { s with err := .indexOob, errInfo := s.arg0, evCmdError := true })

/-! ### HammingBlock -/

/-- The four guarantees of R134: decode after encode is the message; an encoded block scans clean; a single flipped
bit, parity or data, is reported at its position and corrected; two distinct flipped bits are reported as
uncorrectable and left as they are. -/
def Obligations.SecdedGuarantees : Prop :=
  ∀ (policy : OorPolicy) (m : Message),
    hammingDecode (hammingEncode m) = m
      ∧ hammingScan policy (hammingEncode m) = .noError
      ∧ (∀ i, i < 72 →
        hammingCorrect policy (flipBlockBit (hammingEncode m) i) = (hammingEncode m, .single (BitVec.ofNat 7 i)))
      ∧ (∀ i j, i < 72 → j < 72 → i ≠ j →
        hammingCorrect policy (flipBlockBit (flipBlockBit (hammingEncode m) i) j)
          = (flipBlockBit (flipBlockBit (hammingEncode m) i) j, .uncorrectable))

/-- The valid blocks (R124): a block scans clean exactly when its syndrome is 0 and bit 0 is the parity of the others,
which is to say that each of the seven groups has even parity; exactly then it is the encoding of a message, and of one
only. The all-zero and the all-one block are among them. -/
def Obligations.ValidBlocksAreCodewords : Prop :=
  (∀ (policy : OorPolicy) (c : Block),
      (hammingScan policy c = .noError ↔
          indexParity codePositions c.getLsbD = 0 ∧ c.getLsbD 0 = oddCount codePositions c.getLsbD)
        ∧ (indexParity codePositions c.getLsbD = 0 ↔
          ∀ t, t < 7 → oddCount (codePositions.filter fun p => p.testBit t) c.getLsbD = false)
        ∧ (hammingScan policy c = .noError ↔ ∃! m, c = hammingEncode m))
    ∧ hammingEncode 0 = 0 ∧ hammingEncode (BitVec.allOnes 64) = BitVec.allOnes 72

/-- What the encoder puts at each position (R121, R123): message bit `j` at `DP[j]`, the positions in 1..71 that are no
power of two in ascending order; bit `t` of the XOR of the data positions that hold a 1 at `2^t`; the parity of
positions 1 to 71 at 0. -/
def Obligations.EncoderPlacesBits : Prop :=
  dataPositions = (List.range' 1 71).filter (fun p => p ∉ [1, 2, 4, 8, 16, 32, 64]) ∧ dataPositions.length = 64
    ∧ ∀ m : Message,
      (∀ j, j < 64 → (hammingEncode m).getLsbD (dataPositions.getD j 0) = m.getLsbD j)
        ∧ (∀ t, t < 7 →
          (hammingEncode m).getLsbD (2 ^ t) = (indexParity dataPositions (hammingEncode m).getLsbD).getLsbD t)
        ∧ (hammingEncode m).getLsbD 0
          = decide ((List.range' 1 71).countP (hammingEncode m).getLsbD % 2 = 1)

/-- HENC (R130): all 72 bits of BLK are those of the encoding of MSG, whatever BLK held; nothing else changes. -/
def Obligations.HencEncodesMessage : Prop :=
  ∀ s : State,
    ∃ t, exec .henc s = .next t ∧ t = { s with blk := t.blk, err := .ok } ∧ t.blk.length = 9
      ∧ ∀ p, p < 72 → t.bufBit .blk p = (hammingEncode (ofBitFn 64 (s.bufBit .msg))).getLsbD p

/-- HSCAN (R131 with R125 and R126): the report of BLK by its syndrome and its two parities; only ER and ERR
change. -/
def Obligations.HscanReports : Prop :=
  ∀ s : State,
    let ip := indexParity (List.range' 1 71) (s.bufBit .blk)
    let par := decide ((List.range' 1 71).countP (s.bufBit .blk) % 2 = 1)
    ∃ r, exec .hscan s = .next { s with er := r, err := .ok }
      ∧ (s.bufBit .blk 0 = par → ip = 0 → r = .noError)
      ∧ (s.bufBit .blk 0 = par → ip ≠ 0 → r = .uncorrectable)
      ∧ (s.bufBit .blk 0 ≠ par → ip.toNat ≤ 71 → r = .single ip)
      ∧ (s.bufBit .blk 0 ≠ par → 72 ≤ ip.toNat → s.cfg.oorPolicy = .uncorrectable → r = .uncorrectable)
      ∧ (s.bufBit .blk 0 ≠ par → 72 ≤ ip.toNat → s.cfg.oorPolicy = .literal → r = .single ip)

/-- HCORR (R127, R132): ER takes the report of the scan before the flip, and of the 72 bits of BLK exactly the one at
the reported position of a single-bit error is inverted; MSG, RET and the rest stay. -/
def Obligations.HcorrInvertsReportedBit : Prop :=
  ∀ s : State,
    ∃ t, exec .hcorr s = .next t ∧ t = { s with blk := t.blk, er := t.er, err := .ok } ∧ t.blk.length = 9
      ∧ t.er = hammingScan s.cfg.oorPolicy (ofBitFn 72 (s.bufBit .blk))
      ∧ ∀ p, p < 72 →
        t.bufBit .blk p = (s.bufBit .blk p != decide (t.er = .single (BitVec.ofNat 7 p)))

/-- HDEC (R128, R133): bit `j` of MSG takes bit `DP[j]` of BLK, without a check; nothing else changes. -/
def Obligations.HdecExtractsMessage : Prop :=
  ∀ s : State,
    ∃ t, exec .hdec s = .next t ∧ t = { s with msg := t.msg, err := .ok } ∧ t.msg.length = 8
      ∧ ∀ j, j < 64 → t.bufBit .msg j = s.bufBit .blk (dataPositions.getD j 0)

/-- HENC, then BFLIP of any bit of BLK, then HCORR leaves BLK as HENC left it and reports the bit's position
(spec/95_test_vectors.md T2), for every message and either bit order. -/
def Obligations.SingleErrorRepairedByCommands : Prop :=
  ∀ s : State, s.arg0.toNat < 72 →
    ∃ t u v, exec .henc s = .next t ∧ exec (.bflip 1) t = .next u ∧ exec .hcorr u = .next v
      ∧ u.blk ≠ t.blk ∧ v.blk = t.blk ∧ v.er = .single (BitVec.ofNat 7 s.arg0.toNat)

/-! ### EncodedFile -/

/-- FENC (R141, R142, R148): block `k` is the encoding of the bits `64 k ..` of LBUF, zeros beyond its `D` bytes; PHYS
and everything else stay. -/
def Obligations.FencEncodesFile : Prop :=
  ∀ s : State, s.Sized →
    ∃ t, exec .fenc s = .next t ∧ t = { s with fb := t.fb, err := .ok } ∧ t.fb.length = s.cfg.bc
      ∧ ∀ k, k < s.cfg.bc →
        t.fb.getD k 0
          = hammingEncode
              (ofBitFn 64 fun j => if 64 * k + j < 8 * s.cfg.dSize then s.bufBit .lbuf (64 * k + j) else false)

/-- FGET (R143, R144, R149): bit `k + b * BC` of PHYS takes bit `b` of block `k`; FB and everything else stay. -/
def Obligations.FgetInterleaves : Prop :=
  ∀ s : State, s.Sized →
    ∃ t, exec .fget s = .next t ∧ t = { s with phys := t.phys, err := .ok } ∧ t.phys.length = s.cfg.slot
      ∧ ∀ k b, k < s.cfg.bc → b < 72 → t.bufBit .phys (k + b * s.cfg.bc) = s.bufBit .fbw (72 * k + b)

/-- FFILL (R145, R150): bit `b` of block `k` takes bit `k + b * BC` of PHYS; PHYS and everything else stay. -/
def Obligations.FfillDeinterleaves : Prop :=
  ∀ s : State,
    ∃ t, exec .ffill s = .next t ∧ t = { s with fb := t.fb, err := .ok } ∧ t.fb.length = s.cfg.bc
      ∧ ∀ k b, k < s.cfg.bc → b < 72 → t.bufBit .fbw (72 * k + b) = s.bufBit .phys (k + b * s.cfg.bc)

/-- FSCRUB (R146, R151): each block by its own scan, kept, corrected or zero-cleared, and the three counters of this
scrub; ER, RET, EVENTS, LBUF, PHYS and the rest stay. -/
def Obligations.FscrubScrubsFile : Prop :=
  ∀ s : State, s.cfg.Valid → s.Sized →
    ∃ t, exec .fscrub s = .next t
      ∧ t
        = { s with
            fb := t.fb, scrubNumErr := t.scrubNumErr, scrubCorr := t.scrubCorr, scrubUncorr := t.scrubUncorr
            err := .ok }
      ∧ t.fb.length = s.cfg.bc
      ∧ (∀ k, k < s.cfg.bc →
        (hammingScan s.cfg.oorPolicy (s.fb.getD k 0) = .noError → t.fb.getD k 0 = s.fb.getD k 0)
          ∧ (∀ p, hammingScan s.cfg.oorPolicy (s.fb.getD k 0) = .single p →
            t.fb.getD k 0 = flipBlockBit (s.fb.getD k 0) p.toNat)
          ∧ (hammingScan s.cfg.oorPolicy (s.fb.getD k 0) = .uncorrectable → t.fb.getD k 0 = 0))
      ∧ t.scrubNumErr.toNat = s.fb.countP (fun c => hammingScan s.cfg.oorPolicy c != .noError)
      ∧ t.scrubCorr.toNat = s.fb.countP (fun c => (hammingScan s.cfg.oorPolicy c).size == 1)
      ∧ t.scrubUncorr.toNat = s.fb.countP (fun c => hammingScan s.cfg.oorPolicy c == .uncorrectable)

/-- FDEC (R147, R152): bit `64 k + j` of LBUF takes bit `DP[j]` of block `k`, for the `D` bytes of LBUF; no scrub, and
everything else stays. -/
def Obligations.FdecDecodesFile : Prop :=
  ∀ s : State, s.Sized →
    ∃ t, exec .fdec s = .next t ∧ t = { s with lbuf := t.lbuf, err := .ok } ∧ t.lbuf.length = s.cfg.dSize
      ∧ ∀ n, n < 8 * s.cfg.dSize → t.bufBit .lbuf n = s.bufBit .fbw (72 * (n / 64) + dataPositions.getD (n % 64) 0)

/-- The round trips of R153: filling from the image gives the blocks back, the image of what was filled is the image,
decoding an encoded buffer gives the buffer back, and a scrub of an encoded buffer changes nothing and reports
0, 0, 0. -/
def Obligations.FileRoundTrips : Prop :=
  ∀ (o : BitOrder) (policy : OorPolicy),
    (∀ F : List Block, fileFill o F.length (fileGetData o F) = F)
      ∧ (∀ (n : Nat) (P : List Byte), P.length = 9 * n → fileGetData o (fileFill o n P) = P)
      ∧ (∀ L : List Byte, fileDecode o L.length (fileEncode o ((L.length + 7) / 8) L) = L)
      ∧ ∀ (n : Nat) (L : List Byte), fileScrub policy (fileEncode o n L) = (fileEncode o n L, ⟨0, 0, 0⟩)

/-- The burst property (R154) of a file of `n` blocks: `n` consecutive bit offsets belong to `n` different blocks, `m`
consecutive ones put at most `ceil (m / n)` into any one block, and where an image differs from that of an encoded
buffer in at most `n` consecutive offsets, the scrub after the fill restores every block, none is lost, and the buffer
decodes. -/
def Obligations.BurstIsCorrected : Prop :=
  ∀ (o : BitOrder) (policy : OorPolicy) (L P : List Byte) (g : Nat), L ≠ [] →
    let n := (L.length + 7) / 8
    let F := fileEncode o n L
    (∀ i j, i < n → j < n → i ≠ j → (g + i) % n ≠ (g + j) % n)
      ∧ (∀ m k, (List.range m).countP (fun i => (g + i) % n == k) ≤ (m + n - 1) / n)
      ∧ ((∀ i, i < 72 * n → ¬ (g ≤ i ∧ i < g + n) → bitAt o P i = bitAt o (fileGetData o F) i) →
        (fileScrub policy (fileFill o n P)).1 = F ∧ (fileScrub policy (fileFill o n P)).2.uncorrected = 0
          ∧ fileDecode o L.length (fileScrub policy (fileFill o n P)).1 = L)

/-- The counter identities (R155) after any scrub, of the counts and of the registers a command leaves them in:
`numErrors = corrected + uncorrected`, each at most the number of blocks, and `uncorrected` the number of blocks that
were zero-cleared, which a scrub does for a report of size 2 only. -/
def Obligations.ScrubCounterIdentities : Prop :=
  (∀ (policy : OorPolicy) (F : List Block),
      let r := (fileScrub policy F).2
      r.numErrors = r.corrected + r.uncorrected ∧ r.numErrors ≤ F.length ∧ r.corrected ≤ F.length
        ∧ r.uncorrected ≤ F.length
        ∧ r.uncorrected
          = (List.range F.length).countP (fun k =>
              (fileScrub policy F).1.getD k 0 == 0 && hammingScan policy (F.getD k 0) == .uncorrectable)
        ∧ ∀ k, k < F.length → (fileScrub policy F).1.getD k 0 = 0 → F.getD k 0 ≠ 0 →
          hammingScan policy (F.getD k 0) = .uncorrectable ∨ ∃ p, F.getD k 0 = flipBlockBit 0 p)
    ∧ ∀ (s : State) (i : Instr), s.Inv → i ∈ [.fscrub, .rseek, .rload] →
      ∃ t, exec i s = .next t ∧ t.scrubNumErr.toNat = t.scrubCorr.toNat + t.scrubUncorr.toNat
        ∧ t.scrubNumErr.toNat ≤ s.cfg.bc

/-- Every block a scrub leaves is valid, so a second scrub changes no block and reports 0, 0, 0 (R151, corner cases).
Stated for the default OOR_POLICY: with `literal` a block whose flip was refused is left as it was (log entry 8). -/
def Obligations.SecondScrubIsClean : Prop :=
  ∀ s : State, s.cfg.oorPolicy = .uncorrectable →
    ∃ t, exec .fscrub s = .next t
      ∧ exec .fscrub t = .next { t with scrubNumErr := 0, scrubCorr := 0, scrubUncorr := 0 }

/-! ### Ring manager -/

/-- Slot addresses (R161): `(w * SLOT) mod MAXADDR` of the exact product, which is the start of slot `w mod NSLOTS`, one
slot further round the ring for the next counter, and with its whole slot inside the usable range. -/
def Obligations.SlotAddressOfCounter : Prop :=
  ∀ (c : Config) (w : Word), c.Valid →
    slotAddress c w = (w.toNat * c.slot) % c.maxAddr ∧ slotAddress c w = (w.toNat % c.nslots) * c.slot
      ∧ (w ≠ 0xFFFFFFFF → slotAddress c (w + 1) = (slotAddress c w + c.slot) % c.maxAddr)
      ∧ slotAddress c w + c.slot ≤ c.maxAddr ∧ c.maxAddr ≤ c.eepromSize

/-- The counter of a file (R66, R162) in every bit and byte order: bit `n` is bit `DP[8 i + j]` of block 0, where `i` is
the byte of the counter's bit and `j` its place. The four bytes that a save writes make up the counter in the order of
R66. -/
def Obligations.CounterBitsOfBlockZero : Prop :=
  (∀ (c : Config) (F : List Block) (n : Nat), n < 32 →
      let i := match c.byteOrder with
        | .le => n / 8
        | .be => 3 - n / 8
      let j := match c.bitOrder with
        | .lsb0 => n % 8
        | .msb0 => 7 - n % 8
      (counterOfFile c F).getLsbD n = (F.getD 0 0).getLsbD (dataPositions.getD (8 * i + j) 0))
    ∧ ∀ w : Word,
      (∃ a b c d, counterBytes .le w = [a, b, c, d]
          ∧ w.toNat = a.toNat + 2 ^ 8 * b.toNat + 2 ^ 16 * c.toNat + 2 ^ 24 * d.toNat)
        ∧ ∃ a b c d, counterBytes .be w = [a, b, c, d]
          ∧ w.toNat = d.toNat + 2 ^ 8 * c.toNat + 2 ^ 16 * b.toNat + 2 ^ 24 * a.toNat

/-- RSAVE (R164, R165): the counter incremented and written to LBUF[0..3], the record encoded and interleaved, the
slot of the new counter holding the image, every EEPROM byte outside that slot as before, and RET the number of bytes
that differed; SCRUB_*, SEEK_*, EVENTS, ER and the rest stay. -/
def Obligations.RsaveWritesRecord : Prop :=
  ∀ s : State, s.Inv → s.CanSave →
    ∃ t, exec .rsave s = .next t
      ∧ t.wctr = s.wctr + 1
      ∧ t.lbuf = counterBytes s.cfg.byteOrder t.wctr ++ s.lbuf.drop 4
      ∧ t.fb = fileEncode s.cfg.bitOrder s.cfg.bc t.lbuf
      ∧ t.phys = fileGetData s.cfg.bitOrder t.fb
      ∧ (∀ i, i < s.cfg.slot → t.ee.read (slotAddress s.cfg t.wctr + i) = t.phys.getD i 0)
      ∧ (∀ a, a < slotAddress s.cfg t.wctr ∨ slotAddress s.cfg t.wctr + s.cfg.slot ≤ a → t.ee.read a = s.ee.read a)
      ∧ t.ret.toNat
        = (List.range s.cfg.slot).countP (fun i => s.ee.read (slotAddress s.cfg t.wctr + i) != t.phys.getD i 0)
      ∧ t
        = { s with
            wctr := t.wctr, lbuf := t.lbuf, fb := t.fb, phys := t.phys, ee := t.ee, ret := t.ret
            history := t.history, err := .ok }

/-- The differential write of RSAVE (R165): for each byte of the slot in ascending order one read, and after it one write
exactly where the byte differs; afterwards the slot holds the image, and RET is the number of writes. -/
def Obligations.RsaveAccessesInOrder : Prop :=
  ∀ s : State, s.Inv → s.CanSave →
    let a := slotAddress s.cfg (s.wctr + 1)
    let es := (List.range s.cfg.slot).flatMap fun i =>
      Event.eeRead (a + i) (s.ee.read (a + i))
        :: if s.ee.read (a + i) = (savedImage s).getD i 0 then [] else [.eeWrite (a + i) ((savedImage s).getD i 0)]
    ∃ t, exec .rsave s = .next t ∧ t.history = s.history ++ es ∧ countWrites es = t.ret.toNat
      ∧ countReads es = s.cfg.slot ∧ t.ee.readBytes a s.cfg.slot = savedImage s

/-- RSAVE at the maximum counter (R166): with the default policy CTR_WRAP and nothing else changes; with `wrap` the
counter becomes 0 and the save goes to address 0. -/
def Obligations.RsaveCounterOverflow : Prop :=
  ∀ s : State, s.wctr = 0xFFFFFFFF →
    (s.cfg.wrapPolicy = .fault →
        exec .rsave s = .next { s with err := .ctrWrap, errInfo := 0xFFFFFFFF, evCmdError := true })
      ∧ (s.cfg.wrapPolicy = .wrap → s.Inv →
        ∃ t, exec .rsave s = .next t ∧ t.err = .ok ∧ t.wctr = 0
          ∧ ∀ i, i < s.cfg.slot → t.ee.read i = t.phys.getD i 0)

/-- The two comparisons (R163), and RSEEK (R167 to R171) for either: the seek registers hold the choice of the loop over
all slots, all 0 where none is accepted; PHYS, FB and SCRUB_* are left with the last slot visited; the accesses are the
reads of every slot and no write; LBUF, WCTR, EVENTS, ER and the rest stay. -/
def Obligations.RseekFollowsLoop : Prop :=
  (∀ a b : Word,
      (newerThan .unsigned a b = true ↔ b.toNat < a.toNat)
        ∧ (newerThan .serial a b = true ↔
          1 ≤ (a.toNat + 2 ^ 32 - b.toNat) % 2 ^ 32 ∧ (a.toNat + 2 ^ 32 - b.toNat) % 2 ^ 32 ≤ 2 ^ 31 - 1))
    ∧ ∀ s : State, s.Inv →
      let last := (s.cfg.nslots - 1) * s.cfg.slot
      ∃ t, exec .rseek s = .next t
        ∧ (∀ a ctr, seekChoice s = some (a, ctr) → t.seekValid = true ∧ t.seekAddr.toNat = a ∧ t.seekCtr = ctr)
        ∧ (seekChoice s = none → t.seekValid = false ∧ t.seekAddr = 0 ∧ t.seekCtr = 0)
        ∧ t.ret = t.seekAddr
        ∧ t.phys = s.ee.readBytes last s.cfg.slot ∧ t.fb = slotBlocks s last
        ∧ t.scrubNumErr.toNat = (slotReport s last).numErrors ∧ t.scrubCorr.toNat = (slotReport s last).corrected
        ∧ t.scrubUncorr.toNat = (slotReport s last).uncorrected
        ∧ t.history = s.history ++ s.ee.readEvents 0 (s.cfg.nslots * s.cfg.slot)
        ∧ t
          = { s with
              phys := t.phys, fb := t.fb, scrubNumErr := t.scrubNumErr, scrubCorr := t.scrubCorr
              scrubUncorr := t.scrubUncorr, seekValid := t.seekValid, seekAddr := t.seekAddr, seekCtr := t.seekCtr
              ret := t.ret, history := t.history, err := .ok }

/-- What RSEEK chooses (R163, R168, R169, R170): an accepted slot exactly where there is one, and no accepted slot above it
is newer. With the default comparison it has the greatest counter of all accepted slots, with the serial one the
greatest counted from any base that all accepted counters lie less than `2^31` above; of those with that counter it is
the one at the lowest address. -/
def Obligations.RseekFindsGreatestCounter : Prop :=
  ∀ s : State, s.Inv →
    let accepted := fun j => j < s.cfg.nslots ∧ slotAccepted s (j * s.cfg.slot) = true
    let counter := fun j => slotCounter s (j * s.cfg.slot)
    ∃ t, exec .rseek s = .next t
      ∧ (t.seekValid = true ↔ ∃ k, accepted k)
      ∧ (t.seekValid = true →
        ∃ k, accepted k ∧ t.seekAddr.toNat = k * s.cfg.slot ∧ t.seekCtr = counter k
          ∧ (∀ j, k < j → accepted j → newerThan s.cfg.newer (counter j) t.seekCtr = false)
          ∧ (s.cfg.newer = .unsigned →
            ∀ j, accepted j → (counter j).toNat ≤ t.seekCtr.toNat ∧ (counter j = t.seekCtr → k ≤ j))
          ∧ (s.cfg.newer = .serial →
            ∀ base : Word, (∀ j, accepted j → (counter j - base).toNat < 2 ^ 31) →
              ∀ j, accepted j →
                (counter j - base).toNat ≤ (t.seekCtr - base).toNat ∧ (counter j = t.seekCtr → k ≤ j)))
      ∧ (t.seekValid = false → t.seekAddr = 0 ∧ t.seekCtr = 0 ∧ t.ret = 0 ∧ t.err = .ok)

/-- RLOAD (R172, R173, R174): where the seek chooses a slot, its record is decoded into LBUF, WCTR takes its counter
and RET is 1; where it chooses none, the event is set, RET is 0 and LBUF and WCTR keep their values. The EEPROM is read
`(NSLOTS + 1) * SLOT` times and never written; ER, MSG, BLK, ARG0 and the rest stay. -/
def Obligations.RloadLoadsFreshest : Prop :=
  ∀ s : State, s.Inv →
    ∃ t, exec .rload s = .next t
      ∧ (∀ a ctr, seekChoice s = some (a, ctr) →
        t.seekValid = true ∧ t.seekAddr.toNat = a ∧ t.seekCtr = ctr ∧ t.ret = 1
          ∧ t.phys = s.ee.readBytes a s.cfg.slot ∧ t.fb = slotBlocks s a
          ∧ t.scrubNumErr.toNat = (slotReport s a).numErrors ∧ t.scrubCorr.toNat = (slotReport s a).corrected
          ∧ t.scrubUncorr = 0
          ∧ t.lbuf = fileDecode s.cfg.bitOrder s.cfg.dSize (slotBlocks s a) ∧ t.wctr = ctr
          ∧ t.evCorrupted = s.evCorrupted)
      ∧ (seekChoice s = none →
        t.seekValid = false ∧ t.seekAddr = 0 ∧ t.seekCtr = 0 ∧ t.ret = 0
          ∧ t.phys = s.ee.readBytes 0 s.cfg.slot ∧ t.fb = slotBlocks s 0
          ∧ t.scrubNumErr.toNat = (slotReport s 0).numErrors ∧ t.scrubCorr.toNat = (slotReport s 0).corrected
          ∧ t.scrubUncorr.toNat = (slotReport s 0).uncorrected ∧ t.scrubUncorr ≠ 0
          ∧ t.lbuf = s.lbuf ∧ t.wctr = s.wctr ∧ t.evCorrupted = true)
      ∧ (∃ es, t.history = s.history ++ es ∧ countWrites es = 0
        ∧ countReads es = (s.cfg.nslots + 1) * s.cfg.slot)
      ∧ t
        = { s with
            phys := t.phys, fb := t.fb, scrubNumErr := t.scrubNumErr, scrubCorr := t.scrubCorr
            scrubUncorr := t.scrubUncorr, seekValid := t.seekValid, seekAddr := t.seekAddr, seekCtr := t.seekCtr
            ret := t.ret, lbuf := t.lbuf, wctr := t.wctr, evCorrupted := t.evCorrupted, history := t.history
            err := .ok }

/-- Wear-leveling monotonicity (R175), with the default comparison: where every accepted slot's counter is at most WCTR,
after any `N >= 1` saves of any records a seek returns the slot and the counter of the last one. -/
def Obligations.WearLevelingMonotonicity : Prop :=
  ∀ (s : State) (records : List (List Byte)),
    s.Inv → s.cfg.newer = .unsigned → records ≠ [] → (∀ L ∈ records, L.length = s.cfg.dSize) →
    (∀ k, k < s.cfg.nslots → slotAccepted s (k * s.cfg.slot) = true →
      (slotCounter s (k * s.cfg.slot)).toNat ≤ s.wctr.toNat) →
    s.wctr.toNat + records.length < 2 ^ 32 →
      ∃ t u, saveAll records s = .next t ∧ exec .rseek t = .next u ∧ u.seekValid = true
        ∧ u.seekCtr.toNat = s.wctr.toNat + records.length
        ∧ u.seekAddr.toNat = slotAddress s.cfg (s.wctr + BitVec.ofNat 32 records.length)

/-- Power loss inside a command (R70, R239, R262; the move and its use on commands other than RSAVE are log entry 7). In
an RSAVE that does not overflow: for every `j` up to the number of bytes the save rewrites, the environment can cut it
after exactly `j` byte writes; and wherever it cuts, there is an address below which the bytes of the slot are the new
image's, while those above it and all outside the slot are as they were. In any other command word the EEPROM is as
before, but for the byte of an EEWR cut after its one access. The volatile state is that of reset in every case, and a
cut before the first access is always there. -/
def Obligations.PowerLossCutsCommand : Prop :=
  ∀ (s : State) (fill : BufferFill), s.Inv →
    let a := slotAddress s.cfg (s.wctr + 1)
    let differs := fun i => s.ee.read (a + i) != (savedImage s).getD i 0
    let lost := fun u : State => u = { s with ee := u.ee, history := u.history }.afterReset fill
    let torn := fun (u : State) (cut : Nat) =>
      cut ≤ s.cfg.slot ∧ (∀ i, i < cut → u.ee.read (a + i) = (savedImage s).getD i 0)
        ∧ ∀ x, x < a ∨ a + cut ≤ x → u.ee.read x = s.ee.read x
    (s.CanSave →
        (∀ j, j ≤ (List.range s.cfg.slot).countP differs →
            ∃ n u cut, serve (.powerLossInCommand 0x00000040 n fill) s = .next u ∧ torn u cut
              ∧ (List.range cut).countP differs = j)
          ∧ ∀ n u, serve (.powerLossInCommand 0x00000040 n fill) s = .next u → ∃ cut, torn u cut)
      ∧ (∀ w n u, serve (.powerLossInCommand w n fill) s = .next u →
        lost u
          ∧ (w ≠ 0x00000040 ∨ ¬ s.CanSave →
            u.ee = s.ee
              ∨ ∃ d, decode w = .ok (.eewr d) ∧ n = 1 ∧ s.arg0.toNat < s.cfg.eepromSize
                ∧ u.ee.read s.arg0.toNat = d ∧ ∀ x, x ≠ s.arg0.toNat → u.ee.read x = s.ee.read x))
      ∧ (∀ w, ∃ u, serve (.powerLossInCommand w 0 fill) s = .next u ∧ u.ee = s.ee)
      ∧ ∀ d, s.arg0.toNat < s.cfg.eepromSize →
        ∃ u, serve (.powerLossInCommand (encode (.eewr d)) 1 fill) s = .next u ∧ u.ee.read s.arg0.toNat = d

/-- A single upset anywhere in the EEPROM loses nothing: a slot that scrubbed without error before is still accepted,
with the same blocks and the same counter, after any one bit of the device was inverted. -/
def Obligations.SingleUpsetIsHarmless : Prop :=
  ∀ (s : State) (k a : Nat) (bit : Fin 8),
    s.Inv → k < s.cfg.nslots → (slotReport s (k * s.cfg.slot)).numErrors = 0 → a < s.cfg.eepromSize →
      ∃ t, serve (.seu a bit) s = .next t ∧ slotAccepted t (k * s.cfg.slot) = true
        ∧ slotBlocks t (k * s.cfg.slot) = slotBlocks s (k * s.cfg.slot)
        ∧ slotCounter t (k * s.cfg.slot) = slotCounter s (k * s.cfg.slot)

/-! ### Command errors, reset and the whole machine -/

/-- Command errors are precise (R222): a command word that ends in an error leaves the state as before but for ERR,
ERRINFO and EVENTS[1]; in particular no EEPROM access was made. So does a decoded command. -/
def Obligations.CommandErrorsArePrecise : Prop :=
  (∀ (w : Word) (s t : State), issueCommand w s = .next t → t.err ≠ .ok →
      t
        = { s with
            err := t.err, errInfo := t.errInfo, evCmdError := true, history := s.history ++ [.command w] })
    ∧ ∀ (i : Instr) (s t : State), exec i s = .next t → t.err ≠ .ok →
      t = { s with err := t.err, errInfo := t.errInfo, evCmdError := true }

/-- Which errors a command word can end in (R223), with the detail of each: RESERVED_FIELD and ILLEGAL_OPCODE are
those of words that do not decode, and a command that decodes has at most its own. -/
def Obligations.ErrorsOfEachCommand : Prop :=
  ∀ (w : Word) (s t : State), issueCommand w s = .next t → t.err ≠ .ok →
    (decode w = .error .illegalOpcode ∧ t.err = .illegalOpcode ∧ t.errInfo = w)
      ∨ (decode w = .error .reservedField ∧ t.err = .reservedField ∧ t.errInfo = w)
      ∨ (∃ sel, (decode w = .ok (.bget sel) ∨ decode w = .ok (.bflip sel) ∨ ∃ v, decode w = .ok (.bset sel v))
        ∧ ((t.err = .badSelect ∧ t.errInfo.toNat = sel.toNat) ∨ (t.err = .indexOob ∧ t.errInfo = s.arg0)))
      ∨ ((decode w = .ok .eerd ∨ ∃ d, decode w = .ok (.eewr d)) ∧ t.err = .eeAddrOob ∧ t.errInfo = s.arg0)
      ∨ (decode w = .ok .rsave ∧ t.err = .ctrWrap ∧ t.errInfo = 0xFFFFFFFF ∧ s.wctr = 0xFFFFFFFF
        ∧ s.cfg.wrapPolicy = .fault)

/-- Which command writes which state (R43, R183): every other command leaves it as it was. -/
def Obligations.CommandsTouchOnlyTheirState : Prop :=
  ∀ (i : Instr) (s t : State), exec i s = .next t →
    t.cfg = s.cfg ∧ t.pending = s.pending ∧ (i ≠ .init → t.arg0 = s.arg0)
      ∧ (i ∉ [.init, .hdec, .bset 0 true, .bset 0 false, .bflip 0] → t.msg = s.msg)
      ∧ (i ∉ [.init, .henc, .hcorr, .bset 1 true, .bset 1 false, .bflip 1] → t.blk = s.blk)
      ∧ (i ∉ [.init, .fdec, .rsave, .rload, .bset 2 true, .bset 2 false, .bflip 2] → t.lbuf = s.lbuf)
      ∧ (i ∉ [.init, .fget, .rsave, .rseek, .rload, .bset 3 true, .bset 3 false, .bflip 3] → t.phys = s.phys)
      ∧ (i ∉ [.init, .fenc, .ffill, .fscrub, .rsave, .rseek, .rload, .bset 4 true, .bset 4 false, .bflip 4] →
        t.fb = s.fb)
      ∧ (i ∉ [.init, .hscan, .hcorr] → t.er = s.er)
      ∧ (i ∉ [.init, .fscrub, .rseek, .rload] →
        t.scrubNumErr = s.scrubNumErr ∧ t.scrubCorr = s.scrubCorr ∧ t.scrubUncorr = s.scrubUncorr)
      ∧ (i ∉ [.init, .rsave, .rload] → t.wctr = s.wctr)
      ∧ (i ∉ [.init, .rseek, .rload] →
        t.seekValid = s.seekValid ∧ t.seekAddr = s.seekAddr ∧ t.seekCtr = s.seekCtr)
      ∧ ((∀ sel, i ≠ .bget sel) → i ∉ [.init, .rsave, .rseek, .rload, .eerd] → t.ret = s.ret)
      ∧ (i ∉ [.init, .rload] → t.evCorrupted = s.evCorrupted)
      ∧ (i = .rload → s.evCorrupted = true → t.evCorrupted = true)
      ∧ (i ≠ .init → t.err = .ok → t.errInfo = s.errInfo ∧ t.evCmdError = s.evCmdError)
      ∧ (i ≠ .rsave → (∀ d, i ≠ .eewr d) → t.ee = s.ee)

/-- The table of R44: what every register reads after a reset and after INIT, the buffers holding any bytes after a
reset and 0 after INIT, the EEPROM and the parameters retained. -/
def Obligations.ResetAndInitValues : Prop :=
  ∀ (s : State) (fill : BufferFill),
    fill.msg.length = 8 → fill.blk.length = 9 → fill.lbuf.length = s.cfg.dSize → fill.fb.length = s.cfg.bc →
    fill.phys.length = s.cfg.slot →
      ∃ r t, serve (.powerCycle fill) s = .next r ∧ exec .init s = .next t
        ∧ (∀ u, u = r ∨ u = t →
          [1, 2, 3, 5, 6, 7, 8, 9, 10, 11, 12].map u.regRead = List.replicate 11 0 ∧ u.regRead 4 = 0x0000FF00
            ∧ (∀ n, 16 ≤ n → n ≤ 22 → u.regRead n = s.regRead n) ∧ u.ee = s.ee)
        ∧ r.msg = fill.msg ∧ r.blk = fill.blk ∧ r.lbuf = fill.lbuf ∧ r.fb = fill.fb ∧ r.phys = fill.phys
        ∧ t.Sized
        ∧ (∀ x ∈ t.msg, x = 0) ∧ (∀ x ∈ t.blk, x = 0) ∧ (∀ x ∈ t.lbuf, x = 0) ∧ (∀ x ∈ t.fb, x = 0)
        ∧ ∀ x ∈ t.phys, x = 0

/-- The reset state meets the invariant. -/
def Obligations.ResetMeetsInvariant : Prop := State.reset.Inv

/-- Every step from a state that meets the invariant leads to one that meets it: the parameters are an instance's and
the buffers have their sizes, the EEPROM is canonical and inside the device, ER names a position of the block, the
scrub counters add up, and SEEK_ADDR is a slot's address. -/
def Obligations.StepKeepsInvariant : Prop :=
  ∀ s t : State, s.Inv → step s = .next t → t.Inv

/-- From a state that meets the invariant every step completes (R30, R64), but for a move that the environment does not
have, which is refused by name (log entry 7): an upset outside the device (R238), or a power loss inside a command
after more EEPROM accesses than the command makes (R239). No step faults. -/
def Obligations.StepCompletesOrMoveIsMissing : Prop :=
  ∀ s : State, s.Inv →
    let accesses := fun t : State => countReads t.history + countWrites t.history
    let missing := ∃ rest,
      (∃ a bit, s.pending = .seu a bit :: rest ∧ s.cfg.eepromSize ≤ a)
        ∨ ∃ w n fill t, s.pending = .powerLossInCommand w n fill :: rest
          ∧ issueCommand w { s with pending := rest } = .next t ∧ accesses t < accesses s + n
    (¬ missing → ∃ t, step s = .next t) ∧ (missing → step s = .refused .noSuchMove)

/-- A single-event upset (R238) inverts exactly one bit of one byte of the EEPROM and changes no other state. The model's
choices: that the upset stands in the history (log entry 6), and that one outside the device is refused as a move there
is not (log entry 7). -/
def Obligations.UpsetInvertsOneBit : Prop :=
  ∀ (s : State) (a : Nat) (bit : Fin 8), s.EeOk →
    (a < s.cfg.eepromSize →
        ∃ t, serve (.seu a bit) s = .next t ∧ (∀ x, x ≠ a → t.ee.read x = s.ee.read x)
          ∧ (∀ j, j < 8 → (t.ee.read a).getLsbD j = ((s.ee.read a).getLsbD j != decide (j = bit.val)))
          ∧ t = { s with ee := t.ee, history := s.history ++ [.seu a bit] })
      ∧ (s.cfg.eepromSize ≤ a → serve (.seu a bit) s = .refused .noSuchMove)

/-! ### The host software -/

/-- `logFault` (R199, R200): an invalid code changes nothing but the warning; a valid one sets `startNum` and
`timestamp` of its entry, counts up to 255, marks an action on the transitions to 1 and to 255 only, and marks a save;
no other entry changes. -/
def Obligations.LogFaultRules : Prop :=
  ∀ (h : HostState) (code : Int) (nowMs : Nat), h.table.length = h.params.nf →
    (code < 0 ∨ (h.params.nf : Int) ≤ code →
        h.logFault code nowMs
          = { h with emitted := if h.messaging then h.emitted ++ [.warnInvalidCode code] else h.emitted })
      ∧ ∀ c : Nat, code = c → c < h.params.nf →
        let g := h.logFault code nowMs
        let old := h.table.getD c FaultReport.default
        let new := g.table.getD c FaultReport.default
        g = { h with table := g.table, saveRequired := true } ∧ g.table.length = h.table.length
          ∧ (∀ d, d ≠ c → g.table.getD d FaultReport.default = h.table.getD d FaultReport.default)
          ∧ new.startNum = h.payload.startCount ∧ new.timestamp.toNat = nowMs % 2 ^ 32
          ∧ new.occurrences.toNat = min 255 (old.occurrences.toNat + 1)
          ∧ (new.pendingAction = true ↔
            old.pendingAction = true ∨ old.occurrences.toNat = 0 ∨ old.occurrences.toNat = 254)

/-- Saturation and edge-triggering (R202): after `k` calls from a cleared entry the count is `k` up to 255, and the
next call, the pending mark having been cleared, sets it exactly when it is call number 1 or 255. -/
def Obligations.FaultCountSaturates : Prop :=
  ∀ (startCount : BitVec 16) (nowMs k : Nat),
    let r := (fun r => { FaultReport.count r startCount nowMs with pendingAction := false })^[k] FaultReport.default
    r.occurrences.toNat = min k 255
      ∧ ((r.count startCount nowMs).pendingAction = true ↔ k + 1 = 1 ∨ k + 1 = 255)

/-- The record round trip (R191, R193): a host that deserialises what it serialised has every field back, in either
byte order, and no action pending. `load()` (R193): where RLOAD loads a record the host has it, the counter from WCTR, and
where EVENTS[0] was set already, as R241 asks, EEPROM_CORRUPTED logged over it; where RLOAD loads none the host has the
defaults of R194 with EEPROM_CORRUPTED logged over them. Either way EVENTS[0] is clear afterwards, and the core otherwise
as RLOAD left it but for the history. The model's choices: record and defaults come before the log (log entries 12 and
19), an EVENTS[0] set already is cleared (log entry 19), and the "save required" mark is not touched but by the log (log
entry 18). -/
def Obligations.RecordRoundTrip : Prop :=
  (∀ (o : ByteOrder) (h g : HostState) (w : Word),
      h.table.length = h.params.nf → g.params = h.params →
        (g.deserialise o (counterBytes o w ++ h.recordBody o) w).payload = { h.payload with writeCounter := w }
          ∧ (g.deserialise o (counterBytes o w ++ h.recordBody o) w).table
            = h.table.map fun r => { r with pendingAction := false })
    ∧ ∀ (h : HostState) (s : State) (nowMs : Nat), s.Inv → h.params.Valid s.cfg →
      ∃ g t u, exec .rload s = .next t ∧ h.load nowMs s = .next (g, u)
        ∧ (∀ k : HostState, seekChoice s ≠ none → k.params = h.params → k.table.length = k.params.nf →
          t.lbuf = counterBytes s.cfg.byteOrder t.wctr ++ k.recordBody s.cfg.byteOrder →
            let loaded : HostState :=
              { h with
                payload := { k.payload with writeCounter := t.wctr }
                table := k.table.map fun r => { r with pendingAction := false } }
            g = (if s.evCorrupted then loaded.logFault h.params.eepromCorrupted nowMs else loaded)
              ∧ u = { t with evCorrupted := false, history := u.history })
        ∧ (seekChoice s = none →
          g
              = { h with
                    payload := ⟨0, 0, 0, 0, 0⟩
                    table := List.replicate h.params.nf ⟨0, 0, 0, false⟩ }.logFault h.params.eepromCorrupted nowMs
            ∧ u = { t with evCorrupted := false, history := u.history })

/-- `save()` on the host (R192): the record of R191 with the new counter is in LBUF and its image in the slot of the
new counter, and the host's counter equals WCTR. `prepareForRestart()` (R196) does so with the sentinel set and the mode
stored. -/
def Obligations.HostSaveStoresRecord : Prop :=
  ∀ (h : HostState) (s : State) (mode : Byte),
    s.Inv → s.CanSave → h.params.Valid s.cfg → h.table.length = h.params.nf →
      let stored := fun (k : HostState) (o : Host.Outcome (HostState × State) Fault Refusal) =>
        ∃ g t, o = .next (g, t)
          ∧ t.wctr = s.wctr + 1 ∧ t.lbuf = counterBytes s.cfg.byteOrder t.wctr ++ k.recordBody s.cfg.byteOrder
          ∧ t.ee.readBytes (slotAddress s.cfg t.wctr) s.cfg.slot
            = fileGetData s.cfg.bitOrder (fileEncode s.cfg.bitOrder s.cfg.bc t.lbuf)
          ∧ g = { k with payload := { k.payload with writeCounter := t.wctr } }
      stored h (h.save s)
        ∧ stored
          { h with
            payload := { h.payload with expectingRestart := h.params.sentinelMagic, recoveredMode := mode } }
          (h.prepareForRestart mode s)

/-- The restart bookkeeping. First (R195) the boot counted, a mismatched sentinel counted and logged as an unplanned
restart with the new boot's number, a matching one resetting the count, and the sentinel cleared either way before the
save. Then (R197, R258) across a restart of core and host, with the default comparison and no stored counter above WCTR:
after `prepareForRestart()` it counts as planned and the record survives, after a plain `save()` without the sentinel it
counts as unplanned. Last, a boot that finds no valid slot has the defaults, counts as unplanned, and logs both faults;
the times and switches of a boot are its arguments (log entry 12). -/
def Obligations.NewStartBookkeeping : Prop :=
  (∀ (h : HostState) (nowMs : Nat) (s : State),
      h.recordNewStart nowMs s = (h.countStart nowMs).save s
        ∧ (h.countStart nowMs).payload.startCount = h.payload.startCount + 1
        ∧ (h.countStart nowMs).payload.expectingRestart = 0
        ∧ (h.payload.expectingRestart = h.params.sentinelMagic →
          (h.countStart nowMs).payload.consecutiveBadRestarts = 0 ∧ (h.countStart nowMs).table = h.table)
        ∧ (h.payload.expectingRestart ≠ h.params.sentinelMagic → h.params.unexpectedRestart < h.params.nf →
          h.table.length = h.params.nf →
            (h.countStart nowMs).payload.consecutiveBadRestarts = h.payload.consecutiveBadRestarts + 1
              ∧ ((h.countStart nowMs).table.getD h.params.unexpectedRestart FaultReport.default).startNum
                = h.payload.startCount + 1))
    ∧ (∀ (h : HostState) (s : State) (fill : BufferFill) (actOnFaults messaging : Bool) (mode : Byte) (t₁ t₂ : Nat),
      s.Inv → s.cfg.newer = .unsigned → h.params.Valid s.cfg → h.table.length = h.params.nf →
      (∀ k, k < s.cfg.nslots → slotAccepted s (k * s.cfg.slot) = true →
        (slotCounter s (k * s.cfg.slot)).toNat ≤ s.wctr.toNat) →
      s.wctr.toNat + 2 < 2 ^ 32 →
        let cleared := h.table.map fun r => { r with pendingAction := false }
        (∃ g t g' u, h.prepareForRestart mode s = .next (g, t)
            ∧ g.restart fill actOnFaults messaging t₁ t₂ t = .next (g', u)
            ∧ g'.payload = ⟨s.wctr + 2, h.payload.startCount + 1, 0, mode, 0⟩ ∧ g'.table = cleared
            ∧ u.wctr = s.wctr + 2)
          ∧ (h.payload.expectingRestart ≠ h.params.sentinelMagic →
            ∃ g t g' u, h.save s = .next (g, t) ∧ g.restart fill actOnFaults messaging t₁ t₂ t = .next (g', u)
              ∧ g'.payload
                = ⟨s.wctr + 2, h.payload.startCount + 1, h.payload.consecutiveBadRestarts + 1, h.payload.recoveredMode, 0⟩
              ∧ g'.table
                = cleared.modify h.params.unexpectedRestart (fun r => r.count (h.payload.startCount + 1) t₂)
              ∧ u.wctr = s.wctr + 2))
    ∧ ∀ (p : HostParams) (s : State) (actOnFaults messaging : Bool) (t₁ t₂ : Nat),
      s.Inv → p.Valid s.cfg → seekChoice s = none →
        ∃ g u, HostState.boot p actOnFaults messaging t₁ t₂ s = .next (g, u)
          ∧ g.payload = ⟨1, 1, 1, 0, 0⟩
          ∧ g.table
            = ((List.replicate p.nf FaultReport.default).modify p.eepromCorrupted (fun r => r.count 0 t₁)).modify
                p.unexpectedRestart (fun r => r.count 1 t₂)
          ∧ u.wctr = 1 ∧ u.evCorrupted = false

/-- The action loop of `handleFaults()` (R203): afterwards no action is pending and no count or stamp has changed. With
the switch off nothing was emitted; with it on the action of R204 for each code that was pending, in ascending order:
safe mode, the heater override off, or a log line where messaging is enabled. -/
def Obligations.HandleFaultsClearsActions : Prop :=
  ∀ h : HostState, h.table.length = h.params.nf →
    let pending := (List.range h.params.nf).filter fun c => (h.table.getD c FaultReport.default).pendingAction
    let action := fun c =>
      if c = h.params.unexpectedRestart ∨ c = h.params.eepromCorrupted then [HostAction.enterSafeMode]
      else if c ∈ h.params.temperatureFaults then [.setHeaterOverride false]
      else if h.messaging then [.logNoAction c] else []
    h.handleCodes.table = h.table.map (fun r => { r with pendingAction := false })
      ∧ (h.actOnFaults = false → h.handleCodes.emitted = h.emitted)
      ∧ (h.actOnFaults = true → h.handleCodes.emitted = h.emitted ++ pending.flatMap action)
      ∧ h.handleCodes = { h with table := h.handleCodes.table, emitted := h.handleCodes.emitted }
end

