-- ==== Sys2Proof/Laws/Bits.lean ====
section
/-! SUPPORT. The laws of bits and bytes: what a bit of a built vector is, and reading bits of a byte buffer after a
write (spec/20_memory.md R65, R67; spec/40_bitview.md R115). -/

namespace Sys2Proof.Machine

/-! ### Vectors built from a function -/

theorem testBit_natOfBits (l : List Bool) (i : Nat) : (natOfBits l).testBit i = l.getD i false := by
  induction l generalizing i with
  | nil => simp [natOfBits]
  | cons b l ih =>
    cases i with
    | zero => cases b <;> simp [natOfBits]
    | succ i =>
      rw [natOfBits, Nat.testBit_succ]
      have : (b.toNat + 2 * natOfBits l) / 2 = natOfBits l := by (cases b; all_goals (simp; try omega))
      rw [this, ih, List.getD_cons_succ]

/-- Bit `i` of `ofBitFn n f` is `f i`. -/
@[simp] theorem getLsbD_ofBitFn (n : Nat) (f : Nat → Bool) (i : Nat) :
    (ofBitFn n f).getLsbD i = (decide (i < n) && f i) := by
  rw [ofBitFn, BitVec.getLsbD_ofNat, testBit_natOfBits]
  by_cases h : i < n <;> simp [h, List.getD_eq_getElem?_getD]

@[simp] theorem getElem_ofBitFn (n : Nat) (f : Nat → Bool) (i : Nat) (h : i < n) : (ofBitFn n f)[i] = f i := by
  rw [← BitVec.getLsbD_eq_getElem, getLsbD_ofBitFn]
  simp [h]

/-- A vector is `ofBitFn` of its own bits. -/
@[simp] theorem ofBitFn_getLsbD {n : Nat} (x : BitVec n) : ofBitFn n x.getLsbD = x := by
  apply BitVec.eq_of_getLsbD_eq
  intro i hi
  rw [getLsbD_ofBitFn]
  simp [hi]

theorem ofBitFn_congr {n : Nat} {f g : Nat → Bool} (h : ∀ i, i < n → f i = g i) : ofBitFn n f = ofBitFn n g := by
  apply BitVec.eq_of_getLsbD_eq
  intro i hi
  rw [getLsbD_ofBitFn, getLsbD_ofBitFn, h i hi]

/-! ### Places in a byte -/

theorem bitPlace_lt (o : BitOrder) {j : Nat} (hj : j < 8) : bitPlace o j < 8 := by
  cases o; all_goals (simp only [bitPlace]; omega)

@[simp] theorem bitPlace_bitPlace (o : BitOrder) {j : Nat} (hj : j < 8) : bitPlace o (bitPlace o j) = j := by
  cases o
  · rfl
  · simp only [bitPlace]
    omega

theorem bitPlace_inj (o : BitOrder) {i j : Nat} (hi : i < 8) (hj : j < 8) (h : bitPlace o i = bitPlace o j) :
    i = j := by
  rw [← bitPlace_bitPlace o hi, h, bitPlace_bitPlace o hj]

/-! ### Bytes from bits and back -/

/-- The bit at index `j` of a packed byte. -/
theorem getLsbD_packByte (o : BitOrder) (f : Nat → Bool) {j : Nat} (hj : j < 8) :
    (packByte o f).getLsbD (bitPlace o j) = f j := by
  rw [packByte, getLsbD_ofBitFn]
  simp [bitPlace_lt o hj, hj]

@[simp] theorem length_packBytes (o : BitOrder) (n : Nat) (f : Nat → Bool) : (packBytes o n f).length = n := by
  simp [packBytes]

/-- Bit `i` of packed bytes is `f i`. -/
theorem bitAt_packBytes (o : BitOrder) {n : Nat} (f : Nat → Bool) {i : Nat} (hi : i < 8 * n) :
    bitAt o (packBytes o n f) i = f i := by
  have h1 : i / 8 < n := by omega
  have h2 : i % 8 < 8 := by omega
  have h3 : 8 * (i / 8) + i % 8 = i := by omega
  simp [bitAt, packBytes, List.getD_eq_getElem?_getD, h1, getLsbD_packByte o _ h2, h3]

/-- Beyond the end of a buffer every bit reads 0. -/
theorem bitAt_of_length_le (o : BitOrder) {B : List Byte} {i : Nat} (h : 8 * B.length ≤ i) : bitAt o B i = false := by
  have : B.length ≤ i / 8 := by omega
  simp [bitAt, List.getD_eq_getElem?_getD, List.getElem?_eq_none this]

/-- Two buffers of one length with the same bits are the same buffer. -/
theorem ext_bitAt (o : BitOrder) {A B : List Byte} (hl : A.length = B.length)
    (h : ∀ i, i < 8 * A.length → bitAt o A i = bitAt o B i) : A = B := by
  apply List.ext_getElem hl
  intro k h1 h2
  apply BitVec.eq_of_getLsbD_eq
  intro j hj
  have hb := h (8 * k + bitPlace o j) (by have := bitPlace_lt o hj; omega)
  have hd : (8 * k + bitPlace o j) / 8 = k := by have := bitPlace_lt o hj; omega
  have hm : (8 * k + bitPlace o j) % 8 = bitPlace o j := by have := bitPlace_lt o hj; omega
  simpa [bitAt, hd, hm, bitPlace_bitPlace o hj, List.getD_eq_getElem?_getD, h1, h2] using hb

/-- Bytes packed from a buffer's own bits are the buffer. -/
theorem packBytes_bitAt (o : BitOrder) (B : List Byte) : packBytes o B.length (bitAt o B) = B :=
  ext_bitAt o (by simp) fun i hi => bitAt_packBytes o _ (by simpa using hi)

theorem packBytes_congr (o : BitOrder) {n : Nat} {f g : Nat → Bool} (h : ∀ i, i < 8 * n → f i = g i) :
    packBytes o n f = packBytes o n g :=
  ext_bitAt o (by simp) fun i hi => by
    rw [length_packBytes] at hi
    rw [bitAt_packBytes o f hi, bitAt_packBytes o g hi, h i hi]

@[simp] theorem blockOfBytes_bytesOfBlock (o : BitOrder) (c : Block) : blockOfBytes o (bytesOfBlock o c) = c := by
  exact (ofBitFn_congr fun i hi => bitAt_packBytes o c.getLsbD (by omega)).trans (ofBitFn_getLsbD c)

theorem bytesOfBlock_blockOfBytes (o : BitOrder) {B : List Byte} (h : B.length = 9) :
    bytesOfBlock o (blockOfBytes o B) = B :=
  (packBytes_congr o fun i hi => by rw [blockOfBytes, getLsbD_ofBitFn]; simp; omega).trans
    (h ▸ packBytes_bitAt o B)

@[simp] theorem messageOfBytes_bytesOfMessage (o : BitOrder) (m : Message) :
    messageOfBytes o (bytesOfMessage o m) = m := by
  exact (ofBitFn_congr fun i hi => bitAt_packBytes o m.getLsbD (by omega)).trans (ofBitFn_getLsbD m)

theorem bytesOfMessage_messageOfBytes (o : BitOrder) {B : List Byte} (h : B.length = 8) :
    bytesOfMessage o (messageOfBytes o B) = B :=
  (packBytes_congr o fun i hi => by rw [messageOfBytes, getLsbD_ofBitFn]; simp; omega).trans
    (h ▸ packBytes_bitAt o B)

@[simp] theorem length_bytesOfBlock (o : BitOrder) (c : Block) : (bytesOfBlock o c).length = 9 := by
  simp [bytesOfBlock]

@[simp] theorem length_bytesOfMessage (o : BitOrder) (m : Message) : (bytesOfMessage o m).length = 8 := by
  simp [bytesOfMessage]

/-! ### Writing one bit -/

theorem getLsbD_setByteBit (b : Byte) (n : Nat) (v : Bool) {i : Nat} (hi : i < 8) :
    (setByteBit b n v).getLsbD i = if i = n then v else b.getLsbD i := by
  simp only [setByteBit, BitVec.getLsbD_or, BitVec.getLsbD_and, BitVec.getLsbD_not, BitVec.getLsbD_shiftLeft,
    BitVec.getLsbD_setWidth, BitVec.getLsbD_ofBool, BitVec.getLsbD_one, hi, decide_true]
  rcases Nat.lt_trichotomy i n with h | h | h
  · simp [h, Nat.ne_of_lt h]
  · simp [h]
  · have h1 : i - n ≠ 0 := by omega
    have h2 : ¬ i < n := by omega
    have h3 : i ≠ n := by omega
    simp [h1, h2, h3]

@[simp] theorem length_setBitAt (o : BitOrder) (B : List Byte) (i : Nat) (v : Bool) :
    (setBitAt o B i v).length = B.length := by
  simp [setBitAt]

/-- Reading a bit after writing one (R115), for either bit order. -/
theorem bitAt_setBitAt (o : BitOrder) {B : List Byte} {i : Nat} (hi : i < 8 * B.length) (v : Bool) (j : Nat) :
    bitAt o (setBitAt o B i v) j = if j = i then v else bitAt o B j := by
  have h8 : i / 8 < B.length := by omega
  have hmi : i % 8 < 8 := by omega
  have hmj : j % 8 < 8 := by omega
  have hset : (setBitAt o B i v).getD (j / 8) 0
      = if j / 8 = i / 8 then setByteBit (B.getD (i / 8) 0) (bitPlace o (i % 8)) v else B.getD (j / 8) 0 := by
    rw [setBitAt, List.getD_eq_getElem?_getD, List.getElem?_set]
    by_cases h : j / 8 = i / 8
    · rw [if_pos h.symm, h]; simp [h8]
    · rw [if_neg (fun h' => h h'.symm), if_neg h, List.getD_eq_getElem?_getD]
  rw [bitAt, hset]
  by_cases h : j / 8 = i / 8
  · rw [if_pos h, getLsbD_setByteBit _ _ _ (bitPlace_lt o hmj), bitAt, h]
    by_cases hji : j = i
    · simp [hji]
    · rw [if_neg hji, if_neg fun he => hji ?_]
      have := bitPlace_inj o hmj hmi he
      omega
  · rw [if_neg h, if_neg (fun h' => h (by rw [h'])), bitAt]

/-! ### Bits of a block -/

@[simp] theorem getLsbD_setBlockBit (c : Block) (p : Nat) (v : Bool) (q : Nat) :
    (setBlockBit c p v).getLsbD q = (decide (q < 72) && if q = p then v else c.getLsbD q) := by
  rw [setBlockBit, getLsbD_ofBitFn]

theorem getLsbD_setBlockByte (o : BitOrder) (c : Block) (i : Nat) (v : Byte) {q : Nat} (hq : q < 72) :
    (setBlockByte o c i v).getLsbD q = if q / 8 = i then v.getLsbD (bitPlace o (q % 8)) else c.getLsbD q := by
  rw [setBlockByte, getLsbD_ofBitFn]
  simp [hq]

/-- The bit at index `j` of byte `i` of a block. -/
theorem getLsbD_blockByte (o : BitOrder) (c : Block) (i : Nat) {j : Nat} (hj : j < 8) :
    (blockByte o c i).getLsbD (bitPlace o j) = c.getLsbD (8 * i + j) :=
  getLsbD_packByte o _ hj

/-! ### The four bytes of a counter -/

@[simp] theorem length_counterBytes (o : ByteOrder) (w : Word) : (counterBytes o w).length = 4 := by
  cases o <;> rfl

/-- A u32 is its four bytes, the highest first. -/
theorem joinBytes (w : Word) :
    w.extractLsb' 24 8 ++ w.extractLsb' 16 8 ++ w.extractLsb' 8 8 ++ w.extractLsb' 0 8 = w := by
  apply BitVec.eq_of_getLsbD_eq
  intro i hi
  simp only [BitVec.getLsbD_append, BitVec.getLsbD_extractLsb']
  interval_cases i <;> rfl

/-- A counter written to the first four bytes of a record reads back (spec/20_memory.md R66). -/
theorem counterOfBytes_putCounter (o : ByteOrder) (w : Word) (L : List Byte) :
    counterOfBytes o (putCounter o w L) = w := by
  cases o <;> (simp [counterOfBytes, putCounter, counterBytes, List.getD_eq_getElem?_getD]; exact joinBytes w)

end Sys2Proof.Machine
end

