-- ==== Sys2Proof/Laws/Hamming.lean ====
section
/-! SUPPORT. The laws of the Hamming code (spec/41_hamming_block.md): the syndrome and the parity are linear, the
positions 1 to 71 are the group positions and the data positions, and what one flipped bit does to a scan. -/

namespace Sys2Proof.Machine

/-! ### The syndrome as a sum -/

@[simp] theorem indexParity_nil (f : Nat → Bool) : indexParity [] f = 0 := rfl

theorem indexParity_cons (p : Nat) (ps : List Nat) (f : Nat → Bool) :
    indexParity (p :: ps) f = (if f p then BitVec.ofNat 7 p else 0) ^^^ indexParity ps f := by
  cases h : f p <;> simp [indexParity, h]

theorem indexParity_append (ps qs : List Nat) (f : Nat → Bool) :
    indexParity (ps ++ qs) f = indexParity ps f ^^^ indexParity qs f := by
  induction ps with
  | nil => simp
  | cons p ps ih => rw [List.cons_append, indexParity_cons, indexParity_cons, ih, BitVec.xor_assoc]

theorem indexParity_perm {ps qs : List Nat} (h : ps.Perm qs) (f : Nat → Bool) :
    indexParity ps f = indexParity qs f := by
  induction h with
  | nil => rfl
  | cons p _ ih => rw [indexParity_cons, indexParity_cons, ih]
  | swap p q l =>
    simp only [indexParity_cons, ← BitVec.xor_assoc]
    rw [BitVec.xor_comm (if f q then _ else _)]
  | trans _ _ ih1 ih2 => rw [ih1, ih2]

theorem indexParity_congr {ps : List Nat} {f g : Nat → Bool} (h : ∀ p ∈ ps, f p = g p) :
    indexParity ps f = indexParity ps g := by
  induction ps with
  | nil => rfl
  | cons p ps ih =>
    rw [indexParity_cons, indexParity_cons, h p (by simp), ih fun q hq => h q (by simp [hq])]

/-- The syndrome is linear. -/
theorem indexParity_xor (ps : List Nat) (f g : Nat → Bool) :
    indexParity ps (fun p => f p ^^ g p) = indexParity ps f ^^^ indexParity ps g := by
  induction ps with
  | nil => simp
  | cons p ps ih =>
    simp only [indexParity_cons, ih]
    apply BitVec.eq_of_getLsbD_eq
    intro i hi
    simp only [BitVec.getLsbD_xor]
    cases f p <;> cases g p <;> simp <;> cases (indexParity ps f).getLsbD i <;> cases (BitVec.ofNat 7 p).getLsbD i
      <;> simp

/-- The syndrome of one set bit is its position. -/
theorem indexParity_single {ps : List Nat} (hn : ps.Nodup) {q : Nat} (hq : q ∈ ps) :
    indexParity ps (fun p => decide (p = q)) = BitVec.ofNat 7 q := by
  induction ps with
  | nil => simp at hq
  | cons p ps ih =>
    obtain ⟨hp, hn⟩ := List.nodup_cons.1 hn
    rw [indexParity_cons]
    rcases List.mem_cons.1 hq with rfl | hq
    · rw [indexParity_congr (g := fun _ => false) fun r hr => by
        simp only [decide_eq_false_iff_not]; rintro rfl; exact hp hr]
      have : ∀ l : List Nat, indexParity l (fun _ => false) = 0 := fun l => by
        induction l with
        | nil => rfl
        | cons a l ih => rw [indexParity_cons, ih]; simp
      simp [this]
    · rw [ih hn hq, if_neg (by simp only [decide_eq_true_eq]; rintro rfl; exact hp hq)]
      simp

/-! ### The parity as a sum -/

@[simp] theorem oddCount_nil (f : Nat → Bool) : oddCount [] f = false := rfl

theorem oddCount_cons (p : Nat) (ps : List Nat) (f : Nat → Bool) :
    oddCount (p :: ps) f = (f p ^^ oddCount ps f) := by
  simp only [oddCount, List.countP_cons]
  cases f p
  · simp
  · rcases Nat.mod_two_eq_zero_or_one (ps.countP f) with h | h <;> simp [Nat.add_mod, h]

theorem oddCount_congr {ps : List Nat} {f g : Nat → Bool} (h : ∀ p ∈ ps, f p = g p) :
    oddCount ps f = oddCount ps g := by
  rw [oddCount, oddCount, List.countP_congr fun p hp => by rw [h p hp]]

/-- The parity is linear. -/
theorem oddCount_xor (ps : List Nat) (f g : Nat → Bool) :
    oddCount ps (fun p => f p ^^ g p) = (oddCount ps f ^^ oddCount ps g) := by
  induction ps with
  | nil => rfl
  | cons p ps ih =>
    simp only [oddCount_cons, ih]
    cases f p <;> cases g p <;> cases oddCount ps f <;> cases oddCount ps g <;> rfl

/-- The parity of one set bit is odd. -/
theorem oddCount_single {ps : List Nat} (hn : ps.Nodup) {q : Nat} (hq : q ∈ ps) :
    oddCount ps (fun p => decide (p = q)) = true := by
  have : ps.countP (fun p => decide (p = q)) = 1 := by
    have h := List.count_eq_one_of_mem hn hq
    rw [List.count] at h
    rw [← h]
    exact List.countP_congr fun p _ => by simp
  simp [oddCount, this]

/-! ### Positions -/

theorem codePositions_nodup : codePositions.Nodup := List.nodup_range' ..

@[simp] theorem mem_codePositions {p : Nat} : p ∈ codePositions ↔ 1 ≤ p ∧ p < 72 := by
  simp [codePositions, List.mem_range'_1]

/-- The positions 1 to 71 are the seven group positions and the 64 data positions. -/
theorem codePositions_perm : codePositions.Perm (groupPositions ++ dataPositions) := by decide

theorem dataPositions_nodup : dataPositions.Nodup := by decide

theorem dataPositions_getD_lt {j : Nat} (hj : j < 64) : dataPositions.getD j 0 < 72 := by
  revert hj; revert j; decide

theorem dataPositions_getD_pos {j : Nat} (hj : j < 64) : 1 ≤ dataPositions.getD j 0 := by
  revert hj; revert j; decide

/-- Message bit `j` stands at position `DP[j]` (R121). -/
@[simp] theorem roleOf_dataPosition {j : Nat} (hj : j < 64) : roleOf (dataPositions.getD j 0) = .data j := by
  revert hj; revert j; decide

/-- Group `t` stands at position `2^t` (R120). -/
@[simp] theorem roleOf_groupPosition {t : Nat} (ht : t < 7) : roleOf (2 ^ t) = .group t := by
  revert ht; revert t; decide

theorem mem_dataPositions {p : Nat} : p ∈ dataPositions ↔ ∃ j, j < 64 ∧ p = dataPositions.getD j 0 := by
  constructor
  · intro h
    obtain ⟨j, hj, rfl⟩ := List.getElem_of_mem h
    exact ⟨j, hj, by simp [List.getD_eq_getElem?_getD, hj]⟩
  · rintro ⟨j, hj, rfl⟩
    have hj' : j < dataPositions.length := hj
    rw [List.getD_eq_getElem?_getD, List.getElem?_eq_getElem hj']
    exact List.getElem_mem hj'

/-- Every position above 0 is a group position or a data position. -/
theorem role_cases {p : Nat} (h1 : 1 ≤ p) (h2 : p < 72) :
    (∃ t, t < 7 ∧ p = 2 ^ t) ∨ ∃ j, j < 64 ∧ p = dataPositions.getD j 0 := by
  have h : p ∈ groupPositions ++ dataPositions := codePositions_perm.subset (by simp; omega)
  rcases List.mem_append.1 h with h | h
  · left
    have : ∀ p ∈ groupPositions, ∃ t, t < 7 ∧ p = 2 ^ t := by decide
    exact this p h
  · exact .inr (mem_dataPositions.1 h)

/-- The XOR of two distinct positions is not 0. -/
theorem position_xor_ne_zero {i j : Nat} (hi : i < 72) (hj : j < 72) (hij : i ≠ j) :
    BitVec.ofNat 7 i ^^^ BitVec.ofNat 7 j ≠ 0 := by
  intro h
  have h1 : BitVec.ofNat 7 i = BitVec.ofNat 7 j := by
    have := congrArg (· ^^^ BitVec.ofNat 7 j) h
    simpa [BitVec.xor_assoc] using this
  have := congrArg BitVec.toNat h1
  simp at this
  omega

/-- Bit `t` of the XOR over the group positions is the bit at position `2^t`. -/
theorem getLsbD_indexParity_groupPositions (f : Nat → Bool) {t : Nat} (ht : t < 7) :
    (indexParity groupPositions f).getLsbD t = f (2 ^ t) := by
  simp only [groupPositions, indexParity_cons, indexParity_nil]
  generalize ha : f 1 = a; generalize hb : f 2 = b; generalize hc : f 4 = c; generalize hd : f 8 = d
  generalize he : f 16 = e; generalize hg : f 32 = g; generalize hh : f 64 = h
  have : f (2 ^ t) = match t with
      | 0 => a
      | 1 => b
      | 2 => c
      | 3 => d
      | 4 => e
      | 5 => g
      | _ => h := by
    interval_cases t <;> simp_all
  rw [this]
  clear this ha hb hc hd he hg hh
  revert t a b c d e g h
  decide

/-! ### The encoder bit by bit -/

theorem getLsbD_hammingEncode (m : Message) {p : Nat} (hp : p < 72) :
    (hammingEncode m).getLsbD p
      = if p = 0 then oddCount codePositions (encodedBit m (messageParity m)) else encodedBit m (messageParity m) p := by
  rw [hammingEncode, getLsbD_ofBitFn]
  simp [hp]

theorem hammingEncode_data (m : Message) {j : Nat} (hj : j < 64) :
    (hammingEncode m).getLsbD (dataPositions.getD j 0) = m.getLsbD j := by
  have := dataPositions_getD_pos hj
  rw [getLsbD_hammingEncode m (dataPositions_getD_lt hj), if_neg (by omega), encodedBit, roleOf_dataPosition hj]

theorem hammingEncode_group (m : Message) {t : Nat} (ht : t < 7) :
    (hammingEncode m).getLsbD (2 ^ t) = (messageParity m).getLsbD t := by
  have h : ∀ t, t < 7 → 2 ^ t < 72 ∧ 2 ^ t ≠ 0 := by decide
  rw [getLsbD_hammingEncode m (h t ht).1, if_neg (h t ht).2, encodedBit, roleOf_groupPosition ht]

/-- The XOR over the group positions of the bits of `ip` is `ip`. -/
theorem indexParity_groupPositions (m : Message) (ip : Syndrome) :
    indexParity groupPositions (encodedBit m ip) = ip := by
  have h : ∀ ip : Syndrome, indexParity groupPositions (fun p => ip.getLsbD (groupPositions.idxOf p)) = ip := by decide
  conv_rhs => rw [← h ip]
  apply indexParity_congr
  have hr : ∀ p ∈ groupPositions, roleOf p = .group (groupPositions.idxOf p) := by decide
  intro p hp
  rw [encodedBit, hr p hp]

/-- The syndrome of the bits an encoder places is 0 (R124). -/
theorem indexParity_encodedBit (m : Message) :
    indexParity codePositions (encodedBit m (messageParity m)) = 0 := by
  rw [indexParity_perm codePositions_perm, indexParity_append, indexParity_groupPositions]
  have : indexParity dataPositions (encodedBit m (messageParity m)) = messageParity m := by
    rw [messageParity]
    apply indexParity_congr
    intro p hp
    obtain ⟨j, hj, rfl⟩ := mem_dataPositions.1 hp
    rw [encodedBit, encodedBit, roleOf_dataPosition hj]
  rw [this, BitVec.xor_self]
  rfl

/-! ### One flipped bit -/

theorem getLsbD_flipBlockBit (c : Block) {q : Nat} (hq : q < 72) {p : Nat} (hp : p < 72) :
    (flipBlockBit c q).getLsbD p = (c.getLsbD p ^^ decide (p = q)) := by
  rw [flipBlockBit, if_pos (by omega), getLsbD_setBlockBit]
  by_cases h : p = q <;> simp [h, hp, hq]

/-- What flipping position `q` does to the syndrome: XOR with `q`. -/
theorem indexParity_flip (c : Block) {q : Nat} (hq : q < 72) :
    indexParity codePositions (flipBlockBit c q).getLsbD
      = indexParity codePositions c.getLsbD ^^^ BitVec.ofNat 7 q := by
  rw [indexParity_congr (g := fun p => c.getLsbD p ^^ decide (p = q)) fun p hp =>
    getLsbD_flipBlockBit c hq (mem_codePositions.1 hp).2, indexParity_xor]
  by_cases h0 : q = 0
  · subst h0
    rw [indexParity_congr (ps := codePositions) (f := fun p => decide (p = 0)) (g := fun _ => false) fun p hp => by
      have := (mem_codePositions.1 hp).1; simp; omega]
    rw [show indexParity codePositions (fun _ => false) = 0 by decide]
    rfl
  · rw [indexParity_single codePositions_nodup (by simp; omega)]

/-- What flipping position `q` does to the parity of positions 1 to 71. -/
theorem oddCount_flip (c : Block) {q : Nat} (hq : q < 72) :
    oddCount codePositions (flipBlockBit c q).getLsbD = (oddCount codePositions c.getLsbD ^^ decide (q ≠ 0)) := by
  rw [oddCount_congr (g := fun p => c.getLsbD p ^^ decide (p = q)) fun p hp =>
    getLsbD_flipBlockBit c hq (mem_codePositions.1 hp).2, oddCount_xor]
  by_cases h0 : q = 0
  · subst h0
    rw [oddCount_congr (ps := codePositions) (f := fun p => decide (p = 0)) (g := fun _ => false) fun p hp => by
      have := (mem_codePositions.1 hp).1; simp; omega]
    rw [show oddCount codePositions (fun _ => false) = false by decide]
    simp
  · rw [oddCount_single codePositions_nodup (by simp; omega)]
    simp [h0]

/-- Flipping the same position twice gives the block back. -/
theorem flipBlockBit_flipBlockBit (c : Block) {q : Nat} (hq : q < 72) : flipBlockBit (flipBlockBit c q) q = c := by
  apply BitVec.eq_of_getLsbD_eq
  intro p hp
  rw [getLsbD_flipBlockBit _ hq hp, getLsbD_flipBlockBit _ hq hp]
  by_cases h : p = q <;> simp [h]

/-! ### The scan case by case (R125, R126) -/

theorem hammingScan_eq (policy : OorPolicy) (c : Block) :
    hammingScan policy c =
      if c.getLsbD 0 = oddCount codePositions c.getLsbD then
        if indexParity codePositions c.getLsbD = 0 then .noError else .uncorrectable
      else if (indexParity codePositions c.getLsbD).toNat ≤ 71 then .single (indexParity codePositions c.getLsbD)
      else
        match policy with
        | .uncorrectable => .uncorrectable
        | .literal => .single (indexParity codePositions c.getLsbD) := rfl

/-- A block scans clean exactly where its syndrome is 0 and the parities agree (R124). -/
theorem hammingScan_eq_noError {policy : OorPolicy} {c : Block} :
    hammingScan policy c = .noError ↔
      indexParity codePositions c.getLsbD = 0 ∧ c.getLsbD 0 = oddCount codePositions c.getLsbD := by
  rw [hammingScan_eq]
  split
  · split <;> simp_all
  · split
    · simp_all
    · cases policy <;> simp_all

/-- A scan names no position outside the block but under `OOR_POLICY = literal` (R27). -/
theorem reportInRange_hammingScan (policy : OorPolicy) (c : Block) :
    reportInRange policy (hammingScan policy c) = true := by
  rw [hammingScan_eq]
  split
  · split <;> rfl
  · split
    · simp [reportInRange, *]
    · cases policy <;> simp [reportInRange]

end Sys2Proof.Machine
end

