-- ==== Sys2Proof/Laws/EncodedFile.lean ====
section
/-! SUPPORT. The laws of the file functions (spec/42_encoded_file.md): sizes, what each bit of a result is, and what
a scrub makes of a block. -/

namespace Sys2Proof.Machine

/-! ### Sizes -/

@[simp] theorem length_fileEncode (o : BitOrder) (n : Nat) (L : List Byte) : (fileEncode o n L).length = n := by
  simp [fileEncode]

@[simp] theorem length_fileFill (o : BitOrder) (n : Nat) (P : List Byte) : (fileFill o n P).length = n := by
  simp [fileFill]

@[simp] theorem length_fileGetData (o : BitOrder) (F : List Block) : (fileGetData o F).length = F.length * 9 := by
  simp [fileGetData]

@[simp] theorem length_fileScrub (policy : OorPolicy) (F : List Block) : (fileScrub policy F).1.length = F.length := by
  simp [fileScrub]

theorem length_flatMap_messages (o : BitOrder) (F : List Block) :
    (F.flatMap fun c => bytesOfMessage o (hammingDecode c)).length = 8 * F.length := by
  induction F with
  | nil => rfl
  | cons c F ih => rw [List.flatMap_cons, List.length_append, ih]; simp; omega

theorem length_fileDecode (o : BitOrder) {d : Nat} {F : List Block} (h : d ≤ 8 * F.length) :
    (fileDecode o d F).length = d := by
  rw [fileDecode, List.length_take, length_flatMap_messages]
  omega

/-! ### Blocks and bits -/

theorem getD_fileEncode (o : BitOrder) {n : Nat} (L : List Byte) {k : Nat} (hk : k < n) :
    (fileEncode o n L).getD k 0 = hammingEncode (fileMessage o L k) := by
  simp [fileEncode, List.getD_eq_getElem?_getD, hk]

theorem getLsbD_fileMessage (o : BitOrder) (L : List Byte) (k : Nat) {j : Nat} (hj : j < 64) :
    (fileMessage o L k).getLsbD j = bitAt o L (64 * k + j) := by
  rw [fileMessage, getLsbD_ofBitFn]
  simp [hj]

/-- Bit `b` of block `k` is bit `k + b * n` of the image (R145). -/
theorem getLsbD_fileFill (o : BitOrder) {n : Nat} (P : List Byte) {k : Nat} (hk : k < n) {b : Nat} (hb : b < 72) :
    ((fileFill o n P).getD k 0).getLsbD b = bitAt o P (k + b * n) := by
  simp [fileFill, List.getD_eq_getElem?_getD, hk, hb]

theorem bitAt_fileGetData (o : BitOrder) (F : List Block) {g : Nat} (hg : g < 72 * F.length) :
    bitAt o (fileGetData o F) g = (F.getD (g % F.length) 0).getLsbD (g / F.length) := by
  rw [fileGetData, bitAt_packBytes o _ (by omega)]

/-- The place `k + b * n` of R143 names block `k` and bit `b`. -/
theorem interleave_place {n k : Nat} (hk : k < n) (b : Nat) : (k + b * n) % n = k ∧ (k + b * n) / n = b := by
  constructor
  · rw [Nat.add_mul_mod_self_right, Nat.mod_eq_of_lt hk]
  · rw [Nat.add_mul_div_right _ _ (by omega), Nat.div_eq_of_lt hk, Nat.zero_add]

theorem interleave_lt {n k b : Nat} (hk : k < n) (hb : b < 72) : k + b * n < 72 * n := by
  have : b * n ≤ 71 * n := Nat.mul_le_mul_right n (by omega)
  omega

/-- Bit `k + b * n` of the image is bit `b` of block `k` (R144). -/
theorem bitAt_fileGetData_place (o : BitOrder) (F : List Block) {k b : Nat} (hk : k < F.length) (hb : b < 72) :
    bitAt o (fileGetData o F) (k + b * F.length) = (F.getD k 0).getLsbD b := by
  rw [bitAt_fileGetData o F (interleave_lt hk hb), (interleave_place hk b).1, (interleave_place hk b).2]

/-- Two lists of blocks of one length with the same bits are the same list. -/
theorem ext_blocks {F G : List Block} (hl : F.length = G.length)
    (h : ∀ k, k < F.length → ∀ b, b < 72 → (F.getD k 0).getLsbD b = (G.getD k 0).getLsbD b) : F = G := by
  apply List.ext_getElem hl
  intro k h1 h2
  apply BitVec.eq_of_getLsbD_eq
  intro b hb
  simpa [List.getD_eq_getElem?_getD, h1, h2] using h k h1 b hb

/-- Bit `n` of the decoded messages laid end to end: bit `n mod 64` of message `n div 64` (R147). -/
theorem bitAt_flatMap_messages (o : BitOrder) (F : List Block) {n : Nat} (hn : n < 64 * F.length) :
    bitAt o (F.flatMap fun c => bytesOfMessage o (hammingDecode c)) n
      = (hammingDecode (F.getD (n / 64) 0)).getLsbD (n % 64) := by
  induction F generalizing n with
  | nil => simp at hn
  | cons c F ih =>
    have hlen : (bytesOfMessage o (hammingDecode c)).length = 8 := length_bytesOfMessage ..
    rw [List.flatMap_cons]
    by_cases h : n < 64
    · have h8 : n / 8 < 8 := by omega
      have : bitAt o (bytesOfMessage o (hammingDecode c) ++ F.flatMap fun c => bytesOfMessage o (hammingDecode c)) n
          = bitAt o (bytesOfMessage o (hammingDecode c)) n := by
        simp only [bitAt, List.getD_eq_getElem?_getD]
        rw [List.getElem?_append_left (by omega)]
      rw [this, bytesOfMessage, bitAt_packBytes o _ (by omega), Nat.div_eq_of_lt h, Nat.mod_eq_of_lt h]
      rfl
    · have hm : n = (n - 64) + 64 := by omega
      have : bitAt o (bytesOfMessage o (hammingDecode c) ++ F.flatMap fun c => bytesOfMessage o (hammingDecode c)) n
          = bitAt o (F.flatMap fun c => bytesOfMessage o (hammingDecode c)) (n - 64) := by
        have h1 : (n - 64) / 8 = n / 8 - 8 := by omega
        have h2 : (n - 64) % 8 = n % 8 := by omega
        simp only [bitAt, List.getD_eq_getElem?_getD, h1, h2]
        rw [List.getElem?_append_right (by omega), hlen]
      rw [this, ih (by simp at hn; omega)]
      have h1 : n / 64 = (n - 64) / 64 + 1 := by omega
      have h2 : n % 64 = (n - 64) % 64 := by omega
      rw [h1, h2, List.getD_cons_succ]

/-- Cutting a buffer keeps the bits below the cut. -/
theorem bitAt_take (o : BitOrder) (B : List Byte) {d n : Nat} (hn : n < 8 * d) :
    bitAt o (B.take d) n = bitAt o B n := by
  have : n / 8 < d := by omega
  simp [bitAt, List.getD_eq_getElem?_getD, this]

/-- Bit `n` of the decoded file (R147). -/
theorem bitAt_fileDecode (o : BitOrder) {d : Nat} {F : List Block} (hd : d ≤ 8 * F.length) {n : Nat}
    (hn : n < 8 * d) :
    bitAt o (fileDecode o d F) n = (hammingDecode (F.getD (n / 64) 0)).getLsbD (n % 64) := by
  rw [fileDecode, bitAt_take o _ hn, bitAt_flatMap_messages o F (by omega)]

theorem getLsbD_hammingDecode (c : Block) {j : Nat} (hj : j < 64) :
    (hammingDecode c).getLsbD j = c.getLsbD (dataPositions.getD j 0) := by
  rw [hammingDecode, getLsbD_ofBitFn]
  simp [hj]

/-! ### What a scrub makes of a block (R146) -/

/-- The three cases of a scrub. -/
theorem scrubBlock_eq (policy : OorPolicy) (c : Block) :
    scrubBlock policy c = match hammingScan policy c with
      | .noError => c
      | .single p => flipBlockBit c p.toNat
      | .uncorrectable => 0 := by
  unfold scrubBlock hammingCorrect
  cases h : hammingScan policy c <;> simp [correctedBlock]

theorem getD_fileScrub (policy : OorPolicy) (F : List Block) {k : Nat} (hk : k < F.length) :
    (fileScrub policy F).1.getD k 0 = scrubBlock policy (F.getD k 0) := by
  simp [fileScrub, List.getD_eq_getElem?_getD, hk]

/-- The counters of R155: each report is counted once, as corrected or as uncorrected. -/
theorem scrubReport_sum (policy : OorPolicy) (F : List Block) :
    (scrubReport policy F).numErrors = (scrubReport policy F).corrected + (scrubReport policy F).uncorrected := by
  simp only [scrubReport]
  induction F with
  | nil => rfl
  | cons c F ih =>
    simp only [List.countP_cons, ih]
    cases hammingScan policy c <;> simp [ErrorReport.size] <;> omega

theorem scrubReport_le (policy : OorPolicy) (F : List Block) : (scrubReport policy F).numErrors ≤ F.length :=
  List.countP_le_length

/-- No uncorrectable block exactly where every block is clean or corrected. -/
theorem uncorrected_eq_zero {policy : OorPolicy} {F : List Block} :
    (scrubReport policy F).uncorrected = 0 ↔ ∀ c ∈ F, hammingScan policy c ≠ .uncorrectable := by
  simp only [scrubReport, List.countP_eq_zero]
  refine forall_congr' fun c => forall_congr' fun _ => ?_
  cases hammingScan policy c <;> simp [ErrorReport.size]

/-- A scrub in which no block has an error changes nothing. -/
theorem fileScrub_of_noError {policy : OorPolicy} {F : List Block} (h : ∀ c ∈ F, hammingScan policy c = .noError) :
    fileScrub policy F = (F, ⟨0, 0, 0⟩) := by
  have h1 : F.map (scrubBlock policy) = F := by
    rw [List.map_congr_left (g := id) fun c hc => by rw [scrubBlock_eq, h c hc]; rfl]
    simp
  have h2 : scrubReport policy F = ⟨0, 0, 0⟩ := by
    simp only [scrubReport, ScrubReport.mk.injEq, List.countP_eq_zero]
    refine ⟨?_, ?_, ?_⟩ <;> intro c hc <;> simp [h c hc, ErrorReport.size]
  rw [fileScrub, h1, h2]

end Sys2Proof.Machine
end

