-- ==== Sys2Proof/Laws/State.lean ====
section
/-! SUPPORT. One lemma for each field of the state after each shared update, so that no later proof unfolds a record
update. The updates: `record`, `complete`, `raise`, `withScrub`, `afterReset`, and the updates of one buffer or one
register, which leave every other field alone. -/

namespace Sys2Proof.Machine

variable (s : State)

/-! ### `record` -/

@[simp] theorem State.record_cfg (es : List Event) : (s.record es).cfg = s.cfg := rfl
@[simp] theorem State.record_msg (es : List Event) : (s.record es).msg = s.msg := rfl
@[simp] theorem State.record_blk (es : List Event) : (s.record es).blk = s.blk := rfl
@[simp] theorem State.record_lbuf (es : List Event) : (s.record es).lbuf = s.lbuf := rfl
@[simp] theorem State.record_fb (es : List Event) : (s.record es).fb = s.fb := rfl
@[simp] theorem State.record_phys (es : List Event) : (s.record es).phys = s.phys := rfl
@[simp] theorem State.record_err (es : List Event) : (s.record es).err = s.err := rfl
@[simp] theorem State.record_seekValid (es : List Event) : (s.record es).seekValid = s.seekValid := rfl
@[simp] theorem State.record_arg0 (es : List Event) : (s.record es).arg0 = s.arg0 := rfl
@[simp] theorem State.record_ret (es : List Event) : (s.record es).ret = s.ret := rfl
@[simp] theorem State.record_er (es : List Event) : (s.record es).er = s.er := rfl
@[simp] theorem State.record_scrubNumErr (es : List Event) : (s.record es).scrubNumErr = s.scrubNumErr := rfl
@[simp] theorem State.record_scrubCorr (es : List Event) : (s.record es).scrubCorr = s.scrubCorr := rfl
@[simp] theorem State.record_scrubUncorr (es : List Event) : (s.record es).scrubUncorr = s.scrubUncorr := rfl
@[simp] theorem State.record_wctr (es : List Event) : (s.record es).wctr = s.wctr := rfl
@[simp] theorem State.record_seekAddr (es : List Event) : (s.record es).seekAddr = s.seekAddr := rfl
@[simp] theorem State.record_seekCtr (es : List Event) : (s.record es).seekCtr = s.seekCtr := rfl
@[simp] theorem State.record_evCorrupted (es : List Event) : (s.record es).evCorrupted = s.evCorrupted := rfl
@[simp] theorem State.record_evCmdError (es : List Event) : (s.record es).evCmdError = s.evCmdError := rfl
@[simp] theorem State.record_errInfo (es : List Event) : (s.record es).errInfo = s.errInfo := rfl
@[simp] theorem State.record_ee (es : List Event) : (s.record es).ee = s.ee := rfl
@[simp] theorem State.record_pending (es : List Event) : (s.record es).pending = s.pending := rfl
@[simp] theorem State.record_history (es : List Event) : (s.record es).history = s.history ++ es := rfl

/-! ### `complete` -/

@[simp] theorem State.complete_cfg : (s.complete).cfg = s.cfg := rfl
@[simp] theorem State.complete_msg : (s.complete).msg = s.msg := rfl
@[simp] theorem State.complete_blk : (s.complete).blk = s.blk := rfl
@[simp] theorem State.complete_lbuf : (s.complete).lbuf = s.lbuf := rfl
@[simp] theorem State.complete_fb : (s.complete).fb = s.fb := rfl
@[simp] theorem State.complete_phys : (s.complete).phys = s.phys := rfl
@[simp] theorem State.complete_err : (s.complete).err = .ok := rfl
@[simp] theorem State.complete_seekValid : (s.complete).seekValid = s.seekValid := rfl
@[simp] theorem State.complete_arg0 : (s.complete).arg0 = s.arg0 := rfl
@[simp] theorem State.complete_ret : (s.complete).ret = s.ret := rfl
@[simp] theorem State.complete_er : (s.complete).er = s.er := rfl
@[simp] theorem State.complete_scrubNumErr : (s.complete).scrubNumErr = s.scrubNumErr := rfl
@[simp] theorem State.complete_scrubCorr : (s.complete).scrubCorr = s.scrubCorr := rfl
@[simp] theorem State.complete_scrubUncorr : (s.complete).scrubUncorr = s.scrubUncorr := rfl
@[simp] theorem State.complete_wctr : (s.complete).wctr = s.wctr := rfl
@[simp] theorem State.complete_seekAddr : (s.complete).seekAddr = s.seekAddr := rfl
@[simp] theorem State.complete_seekCtr : (s.complete).seekCtr = s.seekCtr := rfl
@[simp] theorem State.complete_evCorrupted : (s.complete).evCorrupted = s.evCorrupted := rfl
@[simp] theorem State.complete_evCmdError : (s.complete).evCmdError = s.evCmdError := rfl
@[simp] theorem State.complete_errInfo : (s.complete).errInfo = s.errInfo := rfl
@[simp] theorem State.complete_ee : (s.complete).ee = s.ee := rfl
@[simp] theorem State.complete_pending : (s.complete).pending = s.pending := rfl
@[simp] theorem State.complete_history : (s.complete).history = s.history := rfl

/-! ### `raise` -/

@[simp] theorem State.raise_cfg (code : ErrCode) (info : Word) : (s.raise code info).cfg = s.cfg := rfl
@[simp] theorem State.raise_msg (code : ErrCode) (info : Word) : (s.raise code info).msg = s.msg := rfl
@[simp] theorem State.raise_blk (code : ErrCode) (info : Word) : (s.raise code info).blk = s.blk := rfl
@[simp] theorem State.raise_lbuf (code : ErrCode) (info : Word) : (s.raise code info).lbuf = s.lbuf := rfl
@[simp] theorem State.raise_fb (code : ErrCode) (info : Word) : (s.raise code info).fb = s.fb := rfl
@[simp] theorem State.raise_phys (code : ErrCode) (info : Word) : (s.raise code info).phys = s.phys := rfl
@[simp] theorem State.raise_err (code : ErrCode) (info : Word) : (s.raise code info).err = code := rfl
@[simp] theorem State.raise_seekValid (code : ErrCode) (info : Word) : (s.raise code info).seekValid = s.seekValid := rfl
@[simp] theorem State.raise_arg0 (code : ErrCode) (info : Word) : (s.raise code info).arg0 = s.arg0 := rfl
@[simp] theorem State.raise_ret (code : ErrCode) (info : Word) : (s.raise code info).ret = s.ret := rfl
@[simp] theorem State.raise_er (code : ErrCode) (info : Word) : (s.raise code info).er = s.er := rfl
@[simp] theorem State.raise_scrubNumErr (code : ErrCode) (info : Word) : (s.raise code info).scrubNumErr = s.scrubNumErr := rfl
@[simp] theorem State.raise_scrubCorr (code : ErrCode) (info : Word) : (s.raise code info).scrubCorr = s.scrubCorr := rfl
@[simp] theorem State.raise_scrubUncorr (code : ErrCode) (info : Word) : (s.raise code info).scrubUncorr = s.scrubUncorr := rfl
@[simp] theorem State.raise_wctr (code : ErrCode) (info : Word) : (s.raise code info).wctr = s.wctr := rfl
@[simp] theorem State.raise_seekAddr (code : ErrCode) (info : Word) : (s.raise code info).seekAddr = s.seekAddr := rfl
@[simp] theorem State.raise_seekCtr (code : ErrCode) (info : Word) : (s.raise code info).seekCtr = s.seekCtr := rfl
@[simp] theorem State.raise_evCorrupted (code : ErrCode) (info : Word) : (s.raise code info).evCorrupted = s.evCorrupted := rfl
@[simp] theorem State.raise_evCmdError (code : ErrCode) (info : Word) : (s.raise code info).evCmdError = true := rfl
@[simp] theorem State.raise_errInfo (code : ErrCode) (info : Word) : (s.raise code info).errInfo = info := rfl
@[simp] theorem State.raise_ee (code : ErrCode) (info : Word) : (s.raise code info).ee = s.ee := rfl
@[simp] theorem State.raise_pending (code : ErrCode) (info : Word) : (s.raise code info).pending = s.pending := rfl
@[simp] theorem State.raise_history (code : ErrCode) (info : Word) : (s.raise code info).history = s.history := rfl

/-! ### `withScrub` -/

@[simp] theorem State.withScrub_cfg (r : ScrubReport) : (s.withScrub r).cfg = s.cfg := rfl
@[simp] theorem State.withScrub_msg (r : ScrubReport) : (s.withScrub r).msg = s.msg := rfl
@[simp] theorem State.withScrub_blk (r : ScrubReport) : (s.withScrub r).blk = s.blk := rfl
@[simp] theorem State.withScrub_lbuf (r : ScrubReport) : (s.withScrub r).lbuf = s.lbuf := rfl
@[simp] theorem State.withScrub_fb (r : ScrubReport) : (s.withScrub r).fb = s.fb := rfl
@[simp] theorem State.withScrub_phys (r : ScrubReport) : (s.withScrub r).phys = s.phys := rfl
@[simp] theorem State.withScrub_err (r : ScrubReport) : (s.withScrub r).err = s.err := rfl
@[simp] theorem State.withScrub_seekValid (r : ScrubReport) : (s.withScrub r).seekValid = s.seekValid := rfl
@[simp] theorem State.withScrub_arg0 (r : ScrubReport) : (s.withScrub r).arg0 = s.arg0 := rfl
@[simp] theorem State.withScrub_ret (r : ScrubReport) : (s.withScrub r).ret = s.ret := rfl
@[simp] theorem State.withScrub_er (r : ScrubReport) : (s.withScrub r).er = s.er := rfl
@[simp] theorem State.withScrub_scrubNumErr (r : ScrubReport) : (s.withScrub r).scrubNumErr = BitVec.ofNat 32 r.numErrors := rfl
@[simp] theorem State.withScrub_scrubCorr (r : ScrubReport) : (s.withScrub r).scrubCorr = BitVec.ofNat 32 r.corrected := rfl
@[simp] theorem State.withScrub_scrubUncorr (r : ScrubReport) : (s.withScrub r).scrubUncorr = BitVec.ofNat 32 r.uncorrected := rfl
@[simp] theorem State.withScrub_wctr (r : ScrubReport) : (s.withScrub r).wctr = s.wctr := rfl
@[simp] theorem State.withScrub_seekAddr (r : ScrubReport) : (s.withScrub r).seekAddr = s.seekAddr := rfl
@[simp] theorem State.withScrub_seekCtr (r : ScrubReport) : (s.withScrub r).seekCtr = s.seekCtr := rfl
@[simp] theorem State.withScrub_evCorrupted (r : ScrubReport) : (s.withScrub r).evCorrupted = s.evCorrupted := rfl
@[simp] theorem State.withScrub_evCmdError (r : ScrubReport) : (s.withScrub r).evCmdError = s.evCmdError := rfl
@[simp] theorem State.withScrub_errInfo (r : ScrubReport) : (s.withScrub r).errInfo = s.errInfo := rfl
@[simp] theorem State.withScrub_ee (r : ScrubReport) : (s.withScrub r).ee = s.ee := rfl
@[simp] theorem State.withScrub_pending (r : ScrubReport) : (s.withScrub r).pending = s.pending := rfl
@[simp] theorem State.withScrub_history (r : ScrubReport) : (s.withScrub r).history = s.history := rfl

/-! ### `afterReset` -/

@[simp] theorem State.afterReset_cfg (fill : BufferFill) : (s.afterReset fill).cfg = s.cfg := rfl
@[simp] theorem State.afterReset_msg (fill : BufferFill) : (s.afterReset fill).msg = fit 8 0 fill.msg := rfl
@[simp] theorem State.afterReset_blk (fill : BufferFill) : (s.afterReset fill).blk = fit 9 0 fill.blk := rfl
@[simp] theorem State.afterReset_lbuf (fill : BufferFill) : (s.afterReset fill).lbuf = fit s.cfg.dSize 0 fill.lbuf := rfl
@[simp] theorem State.afterReset_fb (fill : BufferFill) : (s.afterReset fill).fb = fit s.cfg.bc 0 fill.fb := rfl
@[simp] theorem State.afterReset_phys (fill : BufferFill) : (s.afterReset fill).phys = fit s.cfg.slot 0 fill.phys := rfl
@[simp] theorem State.afterReset_err (fill : BufferFill) : (s.afterReset fill).err = .ok := rfl
@[simp] theorem State.afterReset_seekValid (fill : BufferFill) : (s.afterReset fill).seekValid = false := rfl
@[simp] theorem State.afterReset_arg0 (fill : BufferFill) : (s.afterReset fill).arg0 = 0 := rfl
@[simp] theorem State.afterReset_ret (fill : BufferFill) : (s.afterReset fill).ret = 0 := rfl
@[simp] theorem State.afterReset_er (fill : BufferFill) : (s.afterReset fill).er = .noError := rfl
@[simp] theorem State.afterReset_scrubNumErr (fill : BufferFill) : (s.afterReset fill).scrubNumErr = 0 := rfl
@[simp] theorem State.afterReset_scrubCorr (fill : BufferFill) : (s.afterReset fill).scrubCorr = 0 := rfl
@[simp] theorem State.afterReset_scrubUncorr (fill : BufferFill) : (s.afterReset fill).scrubUncorr = 0 := rfl
@[simp] theorem State.afterReset_wctr (fill : BufferFill) : (s.afterReset fill).wctr = 0 := rfl
@[simp] theorem State.afterReset_seekAddr (fill : BufferFill) : (s.afterReset fill).seekAddr = 0 := rfl
@[simp] theorem State.afterReset_seekCtr (fill : BufferFill) : (s.afterReset fill).seekCtr = 0 := rfl
@[simp] theorem State.afterReset_evCorrupted (fill : BufferFill) : (s.afterReset fill).evCorrupted = false := rfl
@[simp] theorem State.afterReset_evCmdError (fill : BufferFill) : (s.afterReset fill).evCmdError = false := rfl
@[simp] theorem State.afterReset_errInfo (fill : BufferFill) : (s.afterReset fill).errInfo = 0 := rfl
@[simp] theorem State.afterReset_ee (fill : BufferFill) : (s.afterReset fill).ee = s.ee := rfl
@[simp] theorem State.afterReset_pending (fill : BufferFill) : (s.afterReset fill).pending = s.pending := rfl
@[simp] theorem State.afterReset_history (fill : BufferFill) : (s.afterReset fill).history = s.history := rfl

/-! ### `setBufBit`: no field but a buffer changes -/

@[simp] theorem State.setBufBit_cfg (b : Buffer) (i : Nat) (v : Bool) : (s.setBufBit b i v).cfg = s.cfg := by cases b <;> rfl
@[simp] theorem State.setBufBit_err (b : Buffer) (i : Nat) (v : Bool) : (s.setBufBit b i v).err = s.err := by cases b <;> rfl
@[simp] theorem State.setBufBit_seekValid (b : Buffer) (i : Nat) (v : Bool) : (s.setBufBit b i v).seekValid = s.seekValid := by cases b <;> rfl
@[simp] theorem State.setBufBit_arg0 (b : Buffer) (i : Nat) (v : Bool) : (s.setBufBit b i v).arg0 = s.arg0 := by cases b <;> rfl
@[simp] theorem State.setBufBit_ret (b : Buffer) (i : Nat) (v : Bool) : (s.setBufBit b i v).ret = s.ret := by cases b <;> rfl
@[simp] theorem State.setBufBit_er (b : Buffer) (i : Nat) (v : Bool) : (s.setBufBit b i v).er = s.er := by cases b <;> rfl
@[simp] theorem State.setBufBit_scrubNumErr (b : Buffer) (i : Nat) (v : Bool) : (s.setBufBit b i v).scrubNumErr = s.scrubNumErr := by cases b <;> rfl
@[simp] theorem State.setBufBit_scrubCorr (b : Buffer) (i : Nat) (v : Bool) : (s.setBufBit b i v).scrubCorr = s.scrubCorr := by cases b <;> rfl
@[simp] theorem State.setBufBit_scrubUncorr (b : Buffer) (i : Nat) (v : Bool) : (s.setBufBit b i v).scrubUncorr = s.scrubUncorr := by cases b <;> rfl
@[simp] theorem State.setBufBit_wctr (b : Buffer) (i : Nat) (v : Bool) : (s.setBufBit b i v).wctr = s.wctr := by cases b <;> rfl
@[simp] theorem State.setBufBit_seekAddr (b : Buffer) (i : Nat) (v : Bool) : (s.setBufBit b i v).seekAddr = s.seekAddr := by cases b <;> rfl
@[simp] theorem State.setBufBit_seekCtr (b : Buffer) (i : Nat) (v : Bool) : (s.setBufBit b i v).seekCtr = s.seekCtr := by cases b <;> rfl
@[simp] theorem State.setBufBit_evCorrupted (b : Buffer) (i : Nat) (v : Bool) : (s.setBufBit b i v).evCorrupted = s.evCorrupted := by cases b <;> rfl
@[simp] theorem State.setBufBit_evCmdError (b : Buffer) (i : Nat) (v : Bool) : (s.setBufBit b i v).evCmdError = s.evCmdError := by cases b <;> rfl
@[simp] theorem State.setBufBit_errInfo (b : Buffer) (i : Nat) (v : Bool) : (s.setBufBit b i v).errInfo = s.errInfo := by cases b <;> rfl
@[simp] theorem State.setBufBit_ee (b : Buffer) (i : Nat) (v : Bool) : (s.setBufBit b i v).ee = s.ee := by cases b <;> rfl
@[simp] theorem State.setBufBit_pending (b : Buffer) (i : Nat) (v : Bool) : (s.setBufBit b i v).pending = s.pending := by cases b <;> rfl
@[simp] theorem State.setBufBit_history (b : Buffer) (i : Nat) (v : Bool) : (s.setBufBit b i v).history = s.history := by cases b <;> rfl

/-! ### `setBufByte`: no field but a buffer changes -/

@[simp] theorem State.setBufByte_cfg (b : Buffer) (off : Nat) (v : Byte) : (s.setBufByte b off v).cfg = s.cfg := by cases b <;> rfl
@[simp] theorem State.setBufByte_err (b : Buffer) (off : Nat) (v : Byte) : (s.setBufByte b off v).err = s.err := by cases b <;> rfl
@[simp] theorem State.setBufByte_seekValid (b : Buffer) (off : Nat) (v : Byte) : (s.setBufByte b off v).seekValid = s.seekValid := by cases b <;> rfl
@[simp] theorem State.setBufByte_arg0 (b : Buffer) (off : Nat) (v : Byte) : (s.setBufByte b off v).arg0 = s.arg0 := by cases b <;> rfl
@[simp] theorem State.setBufByte_ret (b : Buffer) (off : Nat) (v : Byte) : (s.setBufByte b off v).ret = s.ret := by cases b <;> rfl
@[simp] theorem State.setBufByte_er (b : Buffer) (off : Nat) (v : Byte) : (s.setBufByte b off v).er = s.er := by cases b <;> rfl
@[simp] theorem State.setBufByte_scrubNumErr (b : Buffer) (off : Nat) (v : Byte) : (s.setBufByte b off v).scrubNumErr = s.scrubNumErr := by cases b <;> rfl
@[simp] theorem State.setBufByte_scrubCorr (b : Buffer) (off : Nat) (v : Byte) : (s.setBufByte b off v).scrubCorr = s.scrubCorr := by cases b <;> rfl
@[simp] theorem State.setBufByte_scrubUncorr (b : Buffer) (off : Nat) (v : Byte) : (s.setBufByte b off v).scrubUncorr = s.scrubUncorr := by cases b <;> rfl
@[simp] theorem State.setBufByte_wctr (b : Buffer) (off : Nat) (v : Byte) : (s.setBufByte b off v).wctr = s.wctr := by cases b <;> rfl
@[simp] theorem State.setBufByte_seekAddr (b : Buffer) (off : Nat) (v : Byte) : (s.setBufByte b off v).seekAddr = s.seekAddr := by cases b <;> rfl
@[simp] theorem State.setBufByte_seekCtr (b : Buffer) (off : Nat) (v : Byte) : (s.setBufByte b off v).seekCtr = s.seekCtr := by cases b <;> rfl
@[simp] theorem State.setBufByte_evCorrupted (b : Buffer) (off : Nat) (v : Byte) : (s.setBufByte b off v).evCorrupted = s.evCorrupted := by cases b <;> rfl
@[simp] theorem State.setBufByte_evCmdError (b : Buffer) (off : Nat) (v : Byte) : (s.setBufByte b off v).evCmdError = s.evCmdError := by cases b <;> rfl
@[simp] theorem State.setBufByte_errInfo (b : Buffer) (off : Nat) (v : Byte) : (s.setBufByte b off v).errInfo = s.errInfo := by cases b <;> rfl
@[simp] theorem State.setBufByte_ee (b : Buffer) (off : Nat) (v : Byte) : (s.setBufByte b off v).ee = s.ee := by cases b <;> rfl
@[simp] theorem State.setBufByte_pending (b : Buffer) (off : Nat) (v : Byte) : (s.setBufByte b off v).pending = s.pending := by cases b <;> rfl
@[simp] theorem State.setBufByte_history (b : Buffer) (off : Nat) (v : Byte) : (s.setBufByte b off v).history = s.history := by cases b <;> rfl

/-! ### `hostBufWrite`: no field but a buffer changes -/

@[simp] theorem State.hostBufWrite_cfg (sel off : Nat) (v : Byte) : (s.hostBufWrite sel off v).cfg = s.cfg := by
  unfold State.hostBufWrite; (repeat' split) <;> simp
@[simp] theorem State.hostBufWrite_err (sel off : Nat) (v : Byte) : (s.hostBufWrite sel off v).err = s.err := by
  unfold State.hostBufWrite; (repeat' split) <;> simp
@[simp] theorem State.hostBufWrite_seekValid (sel off : Nat) (v : Byte) : (s.hostBufWrite sel off v).seekValid = s.seekValid := by
  unfold State.hostBufWrite; (repeat' split) <;> simp
@[simp] theorem State.hostBufWrite_arg0 (sel off : Nat) (v : Byte) : (s.hostBufWrite sel off v).arg0 = s.arg0 := by
  unfold State.hostBufWrite; (repeat' split) <;> simp
@[simp] theorem State.hostBufWrite_ret (sel off : Nat) (v : Byte) : (s.hostBufWrite sel off v).ret = s.ret := by
  unfold State.hostBufWrite; (repeat' split) <;> simp
@[simp] theorem State.hostBufWrite_er (sel off : Nat) (v : Byte) : (s.hostBufWrite sel off v).er = s.er := by
  unfold State.hostBufWrite; (repeat' split) <;> simp
@[simp] theorem State.hostBufWrite_scrubNumErr (sel off : Nat) (v : Byte) : (s.hostBufWrite sel off v).scrubNumErr = s.scrubNumErr := by
  unfold State.hostBufWrite; (repeat' split) <;> simp
@[simp] theorem State.hostBufWrite_scrubCorr (sel off : Nat) (v : Byte) : (s.hostBufWrite sel off v).scrubCorr = s.scrubCorr := by
  unfold State.hostBufWrite; (repeat' split) <;> simp
@[simp] theorem State.hostBufWrite_scrubUncorr (sel off : Nat) (v : Byte) : (s.hostBufWrite sel off v).scrubUncorr = s.scrubUncorr := by
  unfold State.hostBufWrite; (repeat' split) <;> simp
@[simp] theorem State.hostBufWrite_wctr (sel off : Nat) (v : Byte) : (s.hostBufWrite sel off v).wctr = s.wctr := by
  unfold State.hostBufWrite; (repeat' split) <;> simp
@[simp] theorem State.hostBufWrite_seekAddr (sel off : Nat) (v : Byte) : (s.hostBufWrite sel off v).seekAddr = s.seekAddr := by
  unfold State.hostBufWrite; (repeat' split) <;> simp
@[simp] theorem State.hostBufWrite_seekCtr (sel off : Nat) (v : Byte) : (s.hostBufWrite sel off v).seekCtr = s.seekCtr := by
  unfold State.hostBufWrite; (repeat' split) <;> simp
@[simp] theorem State.hostBufWrite_evCorrupted (sel off : Nat) (v : Byte) : (s.hostBufWrite sel off v).evCorrupted = s.evCorrupted := by
  unfold State.hostBufWrite; (repeat' split) <;> simp
@[simp] theorem State.hostBufWrite_evCmdError (sel off : Nat) (v : Byte) : (s.hostBufWrite sel off v).evCmdError = s.evCmdError := by
  unfold State.hostBufWrite; (repeat' split) <;> simp
@[simp] theorem State.hostBufWrite_errInfo (sel off : Nat) (v : Byte) : (s.hostBufWrite sel off v).errInfo = s.errInfo := by
  unfold State.hostBufWrite; (repeat' split) <;> simp
@[simp] theorem State.hostBufWrite_ee (sel off : Nat) (v : Byte) : (s.hostBufWrite sel off v).ee = s.ee := by
  unfold State.hostBufWrite; (repeat' split) <;> simp
@[simp] theorem State.hostBufWrite_pending (sel off : Nat) (v : Byte) : (s.hostBufWrite sel off v).pending = s.pending := by
  unfold State.hostBufWrite; (repeat' split) <;> simp
@[simp] theorem State.hostBufWrite_history (sel off : Nat) (v : Byte) : (s.hostBufWrite sel off v).history = s.history := by
  unfold State.hostBufWrite; (repeat' split) <;> simp

/-! ### `regStore`: no field but ARG0, WCTR and the events changes -/

@[simp] theorem State.regStore_cfg (n : Nat) (v : Word) : (s.regStore n v).cfg = s.cfg := by
  unfold State.regStore; split <;> rfl
@[simp] theorem State.regStore_msg (n : Nat) (v : Word) : (s.regStore n v).msg = s.msg := by
  unfold State.regStore; split <;> rfl
@[simp] theorem State.regStore_blk (n : Nat) (v : Word) : (s.regStore n v).blk = s.blk := by
  unfold State.regStore; split <;> rfl
@[simp] theorem State.regStore_lbuf (n : Nat) (v : Word) : (s.regStore n v).lbuf = s.lbuf := by
  unfold State.regStore; split <;> rfl
@[simp] theorem State.regStore_fb (n : Nat) (v : Word) : (s.regStore n v).fb = s.fb := by
  unfold State.regStore; split <;> rfl
@[simp] theorem State.regStore_phys (n : Nat) (v : Word) : (s.regStore n v).phys = s.phys := by
  unfold State.regStore; split <;> rfl
@[simp] theorem State.regStore_err (n : Nat) (v : Word) : (s.regStore n v).err = s.err := by
  unfold State.regStore; split <;> rfl
@[simp] theorem State.regStore_seekValid (n : Nat) (v : Word) : (s.regStore n v).seekValid = s.seekValid := by
  unfold State.regStore; split <;> rfl
@[simp] theorem State.regStore_ret (n : Nat) (v : Word) : (s.regStore n v).ret = s.ret := by
  unfold State.regStore; split <;> rfl
@[simp] theorem State.regStore_er (n : Nat) (v : Word) : (s.regStore n v).er = s.er := by
  unfold State.regStore; split <;> rfl
@[simp] theorem State.regStore_scrubNumErr (n : Nat) (v : Word) : (s.regStore n v).scrubNumErr = s.scrubNumErr := by
  unfold State.regStore; split <;> rfl
@[simp] theorem State.regStore_scrubCorr (n : Nat) (v : Word) : (s.regStore n v).scrubCorr = s.scrubCorr := by
  unfold State.regStore; split <;> rfl
@[simp] theorem State.regStore_scrubUncorr (n : Nat) (v : Word) : (s.regStore n v).scrubUncorr = s.scrubUncorr := by
  unfold State.regStore; split <;> rfl
@[simp] theorem State.regStore_seekAddr (n : Nat) (v : Word) : (s.regStore n v).seekAddr = s.seekAddr := by
  unfold State.regStore; split <;> rfl
@[simp] theorem State.regStore_seekCtr (n : Nat) (v : Word) : (s.regStore n v).seekCtr = s.seekCtr := by
  unfold State.regStore; split <;> rfl
@[simp] theorem State.regStore_errInfo (n : Nat) (v : Word) : (s.regStore n v).errInfo = s.errInfo := by
  unfold State.regStore; split <;> rfl
@[simp] theorem State.regStore_ee (n : Nat) (v : Word) : (s.regStore n v).ee = s.ee := by
  unfold State.regStore; split <;> rfl
@[simp] theorem State.regStore_pending (n : Nat) (v : Word) : (s.regStore n v).pending = s.pending := by
  unfold State.regStore; split <;> rfl
@[simp] theorem State.regStore_history (n : Nat) (v : Word) : (s.regStore n v).history = s.history := by
  unfold State.regStore; split <;> rfl

end Sys2Proof.Machine
end

