-- ==== Sys2Proof/Laws/Operands.lean ====
section
/-! SUPPORT. The laws of the operand forms: what a checked operand can be, and reading the buffers after a bit or a
byte of one was written (spec/20_memory.md R62, R63; spec/40_bitview.md R111, R115). -/

namespace Sys2Proof.Machine

/-! ### Checked operands -/

theorem Buffer.ofSel_lt {n : Nat} {b : Buffer} (h : Buffer.ofSel n = some b) : n < 5 := by
  unfold Buffer.ofSel at h
  split at h <;> first | omega | cases h

@[simp] theorem Buffer.ofSel_sel (b : Buffer) : Buffer.ofSel b.sel.toNat = some b := by cases b <;> rfl

theorem Buffer.sel_of_ofSel {sel : BitVec 4} {b : Buffer} (h : Buffer.ofSel sel.toNat = some b) : sel = b.sel := by
  revert h; revert b sel; decide

/-- The three ends of a BitView operand's checks (R111). -/
theorem State.bitOperand_cases (s : State) (sel : BitVec 4) :
    (Buffer.ofSel sel.toNat = none ∧ s.bitOperand sel = .error ⟨.badSelect, sel.setWidth 32⟩)
      ∨ ∃ b, Buffer.ofSel sel.toNat = some b
        ∧ ((s.arg0.toNat < 8 * bufferSize s.cfg b ∧ s.bitOperand sel = .ok b)
          ∨ (8 * bufferSize s.cfg b ≤ s.arg0.toNat ∧ s.bitOperand sel = .error ⟨.indexOob, s.arg0⟩)) := by
  unfold State.bitOperand
  cases h : Buffer.ofSel sel.toNat with
  | none => exact .inl ⟨rfl, rfl⟩
  | some b =>
    refine .inr ⟨b, rfl, ?_⟩
    by_cases hlt : s.arg0.toNat < 8 * bufferSize s.cfg b
    · exact .inl ⟨hlt, if_pos hlt⟩
    · exact .inr ⟨by omega, if_neg hlt⟩

/-- The two ends of an EEPROM address's check (R184, R185). -/
theorem State.eeOperand_cases (s : State) :
    (s.arg0.toNat < s.cfg.eepromSize ∧ s.eeOperand = .ok s.arg0.toNat)
      ∨ (s.cfg.eepromSize ≤ s.arg0.toNat ∧ s.eeOperand = .error ⟨.eeAddrOob, s.arg0⟩) := by
  unfold State.eeOperand
  by_cases h : s.arg0.toNat < s.cfg.eepromSize
  · exact .inl ⟨h, if_pos h⟩
  · exact .inr ⟨by omega, if_neg h⟩

/-! ### Writing one bit or one byte of a buffer touches that buffer only -/

theorem State.setBufBit_frame (s : State) (b : Buffer) (i : Nat) (v : Bool) :
    s.setBufBit b i v
      = { s with
          msg := (s.setBufBit b i v).msg, blk := (s.setBufBit b i v).blk, lbuf := (s.setBufBit b i v).lbuf
          fb := (s.setBufBit b i v).fb, phys := (s.setBufBit b i v).phys } := by
  cases b <;> rfl

theorem State.setBufByte_frame (s : State) (b : Buffer) (i : Nat) (v : Byte) :
    s.setBufByte b i v
      = { s with
          msg := (s.setBufByte b i v).msg, blk := (s.setBufByte b i v).blk, lbuf := (s.setBufByte b i v).lbuf
          fb := (s.setBufByte b i v).fb, phys := (s.setBufByte b i v).phys } := by
  cases b <;> rfl

theorem State.sized_setBufBit {s : State} (h : s.Sized) (b : Buffer) (i : Nat) (v : Bool) :
    (s.setBufBit b i v).Sized := by
  cases b <;> simpa [State.setBufBit, State.Sized] using h

theorem State.sized_setBufByte {s : State} (h : s.Sized) (b : Buffer) (i : Nat) (v : Byte) :
    (s.setBufByte b i v).Sized := by
  cases b <;> simpa [State.setBufByte, State.Sized] using h

/-- The sizes of the buffers of a sized state, as their lists' lengths. -/
theorem State.bufferSize_fbw {s : State} (h : s.Sized) : bufferSize s.cfg .fbw = 9 * s.fb.length := by
  obtain ⟨-, -, -, hf, -⟩ := h
  simp [bufferSize, Config.slot, hf, Nat.mul_comm]

/-! ### Reading after writing -/

theorem getD_set_self {α : Type} {l : List α} {i : Nat} (h : i < l.length) (v d : α) : (l.set i v).getD i d = v := by
  simp [List.getD_eq_getElem?_getD, h]

theorem getD_set_ne {α : Type} (l : List α) {i j : Nat} (h : j ≠ i) (v d : α) : (l.set i v).getD j d = l.getD j d := by
  rw [List.getD_eq_getElem?_getD, List.getElem?_set_ne (fun h' => h h'.symm), List.getD_eq_getElem?_getD]

/-- Reading any bit of any buffer after one was written (R115). -/
theorem State.bufBit_setBufBit {s : State} (h : s.Sized) {b : Buffer} {i : Nat} (hi : i < 8 * bufferSize s.cfg b)
    (v : Bool) (b' : Buffer) (j : Nat) :
    (s.setBufBit b i v).bufBit b' j = if b' = b ∧ j = i then v else s.bufBit b' j := by
  have hf := State.bufferSize_fbw h
  obtain ⟨h1, h2, h3, h4, h5⟩ := h
  by_cases hb : b' = b
  · subst hb
    cases b' <;> simp only [bufferSize] at hi
    case fbw =>
      have hlt : i / 72 < s.fb.length := by simp only [bufferSize] at hf; omega
      simp only [State.bufBit, State.setBufBit, true_and]
      by_cases hq : j / 72 = i / 72
      · rw [hq, getD_set_self hlt, getLsbD_setBlockBit]
        have hm : (j % 72 = i % 72) ↔ j = i := by omega
        have : j % 72 < 72 := by omega
        simp [hm, this]
      · rw [getD_set_ne _ hq, if_neg fun hji => hq (by rw [hji])]
    all_goals
      simp only [State.bufBit, State.setBufBit, true_and]
      rw [bitAt_setBitAt _ (by omega)]
  · rw [if_neg (fun hc => hb hc.1)]
    cases b <;> cases b' <;> first | exact absurd rfl hb | rfl

/-- Reading any byte of any buffer after one was written (R62, R63). -/
theorem State.bufByte_setBufByte {s : State} (h : s.Sized) {b : Buffer} {i : Nat} (hi : i < bufferSize s.cfg b)
    (v : Byte) (b' : Buffer) (j : Nat) :
    (s.setBufByte b i v).bufByte b' j = if b' = b ∧ j = i then v else s.bufByte b' j := by
  have hf := State.bufferSize_fbw h
  obtain ⟨h1, h2, h3, h4, h5⟩ := h
  by_cases hb : b' = b
  · subst hb
    cases b' <;> simp only [bufferSize] at hi
    case fbw =>
      have hlt : i / 9 < s.fb.length := by simp only [bufferSize] at hf; omega
      simp only [State.bufByte, State.setBufByte, true_and]
      by_cases hq : j / 9 = i / 9
      · rw [hq, getD_set_self hlt]
        have hj : j % 9 < 9 := by omega
        by_cases hji : j = i
        · subst hji
          rw [if_pos rfl]
          apply BitVec.eq_of_getLsbD_eq
          intro n hn
          rw [← bitPlace_bitPlace s.cfg.bitOrder hn, getLsbD_blockByte _ _ _ (bitPlace_lt _ hn)]
          have hp := bitPlace_lt s.cfg.bitOrder hn
          rw [getLsbD_setBlockByte _ _ _ _ (by omega), if_pos (by omega),
            show (8 * (j % 9) + bitPlace s.cfg.bitOrder n) % 8 = bitPlace s.cfg.bitOrder n by omega]
        · rw [if_neg hji]
          apply BitVec.eq_of_getLsbD_eq
          intro n hn
          rw [← bitPlace_bitPlace s.cfg.bitOrder hn, getLsbD_blockByte _ _ _ (bitPlace_lt _ hn),
            getLsbD_blockByte _ _ _ (bitPlace_lt _ hn)]
          have hp := bitPlace_lt s.cfg.bitOrder hn
          rw [getLsbD_setBlockByte _ _ _ _ (by omega), if_neg (by omega)]
      · rw [getD_set_ne _ hq, if_neg fun hji => hq (by rw [hji])]
    all_goals
      simp only [State.bufByte, State.setBufByte, true_and]
      by_cases hji : j = i
      · subst hji
        rw [if_pos rfl]
        refine getD_set_self ?_ v 0
        omega
      · rw [if_neg hji, getD_set_ne _ hji]
  · rw [if_neg (fun hc => hb hc.1)]
    cases b <;> cases b' <;> first | exact absurd rfl hb | rfl

/-- A host write changes buffers only (R62). -/
theorem State.hostBufWrite_frame (s : State) (sel off : Nat) (v : Byte) :
    s.hostBufWrite sel off v
      = { s with
          msg := (s.hostBufWrite sel off v).msg, blk := (s.hostBufWrite sel off v).blk
          lbuf := (s.hostBufWrite sel off v).lbuf, fb := (s.hostBufWrite sel off v).fb
          phys := (s.hostBufWrite sel off v).phys } := by
  unfold State.hostBufWrite
  split
  · rfl
  · split
    · exact State.setBufByte_frame ..
    · rfl

theorem State.sized_hostBufWrite {s : State} (h : s.Sized) (sel off : Nat) (v : Byte) :
    (s.hostBufWrite sel off v).Sized := by
  unfold State.hostBufWrite
  split
  · exact h
  · split
    · exact State.sized_setBufByte h ..
    · exact h

/-- A write to a register other than CMD leaves all but ARG0, WCTR and EVENTS alone (R29, R39). -/
theorem State.regStore_frame (s : State) (n : Nat) (v : Word) :
    s.regStore n v
      = { s with
          arg0 := (s.regStore n v).arg0, wctr := (s.regStore n v).wctr
          evCorrupted := (s.regStore n v).evCorrupted, evCmdError := (s.regStore n v).evCmdError } := by
  unfold State.regStore
  split <;> rfl

end Sys2Proof.Machine
end

