-- ==== Sys2Proof/Laws/Memory.lean ====
section
/-! SUPPORT. The laws of the EEPROM's memory: reading after writing, and that every operation keeps the canonical
form (spec/10_state.md R40). -/

namespace Sys2Proof.Machine

@[simp] theorem Memory.read_nil (a : Nat) : Memory.read [] a = Memory.unlisted := rfl

theorem Memory.read_cons (b : Nat) (v : Byte) (m : Memory) (a : Nat) :
    Memory.read ((b, v) :: m) a = if a = b then v else Memory.read m a := rfl

theorem Memory.wf_cons (b : Nat) (v : Byte) (m : Memory) :
    Memory.wf ((b, v) :: m) = true ↔ v ≠ Memory.unlisted ∧ (∀ c ∈ m, b < c.1) ∧ Memory.wf m = true := by
  simp [Memory.wf, and_assoc]

/-- An address below every listed one reads as unlisted. -/
theorem Memory.read_of_lt {m : Memory} {a : Nat} (h : ∀ c ∈ m, a < c.1) : m.read a = Memory.unlisted := by
  induction m with
  | nil => rfl
  | cons c m ih =>
    obtain ⟨b, v⟩ := c
    have hb : a < b := h (b, v) (by simp)
    rw [Memory.read_cons, if_neg (by omega)]
    exact ih fun c hc => h c (by simp [hc])

/-- The addresses listed after a write are the written one or were listed before. -/
theorem Memory.mem_write {m : Memory} {a : Nat} {v : Byte} {c : Host.Cell} (h : c ∈ m.write a v) :
    c = (a, v) ∨ c ∈ m := by
  induction m with
  | nil =>
    unfold Memory.write at h
    split at h <;> simp_all
  | cons d m ih =>
    obtain ⟨b, w⟩ := d
    unfold Memory.write at h
    split at h
    · split at h <;> simp_all
    · split at h
      · split at h <;> simp_all
        tauto
      · rcases List.mem_cons.1 h with h | h
        · simp [h]
        · rcases ih h with h | h <;> simp [h]

/-- A write keeps the canonical form. -/
theorem Memory.wf_write {m : Memory} (hm : m.wf = true) (a : Nat) (v : Byte) : (m.write a v).wf = true := by
  induction m with
  | nil =>
    unfold Memory.write
    split
    · rfl
    · simp_all [Memory.wf]
  | cons d m ih =>
    obtain ⟨b, w⟩ := d
    obtain ⟨hw, hlt, hmwf⟩ := (Memory.wf_cons b w m).1 hm
    unfold Memory.write
    split
    · split
      · exact hm
      · refine (Memory.wf_cons a v _).2 ⟨‹_›, fun c hc => ?_, hm⟩
        rcases List.mem_cons.1 hc with rfl | hc
        · assumption
        · have := hlt c hc; omega
    · split
      · split
        · exact hmwf
        · subst_vars
          exact (Memory.wf_cons _ v _).2 ⟨‹_›, hlt, hmwf⟩
      · refine (Memory.wf_cons b w _).2 ⟨hw, fun c hc => ?_, ih hmwf⟩
        rcases Memory.mem_write hc with rfl | hc
        · simp; omega
        · exact hlt c hc

/-- Reading after a write: the byte written at its address, every other byte as before. -/
theorem Memory.read_write {m : Memory} (hm : m.wf = true) (a : Nat) (v : Byte) (x : Nat) :
    (m.write a v).read x = if x = a then v else m.read x := by
  induction m with
  | nil =>
    unfold Memory.write
    split <;> simp_all [Memory.read_cons]
  | cons d m ih =>
    obtain ⟨b, w⟩ := d
    obtain ⟨hw, hlt, hmwf⟩ := (Memory.wf_cons b w m).1 hm
    unfold Memory.write
    split
    · split
      · split
        · subst_vars
          rw [Memory.read_cons, if_neg (by omega)]
          exact Memory.read_of_lt fun c hc => by have := hlt c hc; omega
        · rfl
      · rw [Memory.read_cons]
    · split
      · subst_vars
        split
        · rw [Memory.read_cons]
          split
          · subst_vars; exact Memory.read_of_lt hlt
          · rfl
        · simp only [Memory.read_cons]
          split <;> simp_all
      · rw [Memory.read_cons, Memory.read_cons, ih hmwf]
        by_cases h1 : x = b
        · have : x ≠ a := by omega
          simp [h1]; omega
        · simp [h1]

/-- Canonical memories that read alike are equal. -/
theorem Memory.ext_read {m n : Memory} (hm : m.wf = true) (hn : n.wf = true) (h : ∀ a, m.read a = n.read a) :
    m = n := by
  induction m generalizing n with
  | nil =>
    cases n with
    | nil => rfl
    | cons d n =>
      obtain ⟨b, w⟩ := d
      have := h b
      simp only [Memory.read_nil, Memory.read_cons, if_pos] at this
      exact absurd this.symm ((Memory.wf_cons b w n).1 hn).1
  | cons c m ih =>
    obtain ⟨a, v⟩ := c
    obtain ⟨hv, hlt, hmwf⟩ := (Memory.wf_cons a v m).1 hm
    cases n with
    | nil =>
      have := h a
      simp only [Memory.read_nil, Memory.read_cons, if_pos] at this
      exact absurd this hv
    | cons d n =>
      obtain ⟨b, w⟩ := d
      obtain ⟨hw, hltn, hnwf⟩ := (Memory.wf_cons b w n).1 hn
      have hab : a = b := by
        rcases Nat.lt_trichotomy a b with hlt' | heq | hgt
        · have h1 := h a
          rw [Memory.read_cons, if_pos rfl, Memory.read_cons, if_neg (by omega),
            Memory.read_of_lt fun c hc => by have := hltn c hc; omega] at h1
          exact absurd h1 hv
        · exact heq
        · have h1 := h b
          rw [Memory.read_cons, if_neg (by omega), Memory.read_cons, if_pos rfl,
            Memory.read_of_lt fun c hc => by have := hlt c hc; omega] at h1
          exact absurd h1.symm hw
      subst hab
      have hvw : v = w := by simpa [Memory.read_cons] using h a
      subst hvw
      rw [ih hmwf hnwf fun x => ?_]
      have hx := h x
      simp only [Memory.read_cons] at hx
      split at hx
      · subst_vars
        rw [Memory.read_of_lt hlt, Memory.read_of_lt hltn]
      · exact hx

end Sys2Proof.Machine
end

