-- ==== Sys2Proof/Laws/RingManager.lean ====
section
/-! SUPPORT. The laws of the ring manager (spec/43_ring_manager.md): the geometry, everything a differential write
does, reading and scrubbing one slot, and everything a seek leaves. -/

namespace Sys2Proof.Machine

/-! ### Geometry (R72, R161) -/

theorem bc_pos {c : Config} (h : c.Valid) : 0 < c.bc := by
  have := h.1
  simp only [Config.bc]
  omega

theorem bc_lt {c : Config} (h : c.Valid) : c.bc < 2 ^ 32 := by
  have := h.2.1
  simp only [Config.bc]
  omega

theorem slot_pos {c : Config} (h : c.Valid) : 0 < c.slot := by
  have := bc_pos h
  simp only [Config.slot]
  omega

theorem nslots_pos {c : Config} (h : c.Valid) : 0 < c.nslots := Nat.div_pos h.2.2.1 (slot_pos h)

theorem maxAddr_le (c : Config) : c.maxAddr ≤ c.eepromSize := Nat.div_mul_le_self ..

theorem maxAddr_lt {c : Config} (h : c.Valid) : c.maxAddr < 2 ^ 32 := by
  have := maxAddr_le c
  have := h.2.2.2
  omega

/-- The start of slot `k` and its end. -/
theorem slot_end_le {c : Config} {k : Nat} (hk : k < c.nslots) : k * c.slot + c.slot ≤ c.maxAddr := by
  have : (k + 1) * c.slot ≤ c.nslots * c.slot := Nat.mul_le_mul_right _ hk
  rw [Nat.succ_mul] at this
  exact this

theorem slot_start_lt {c : Config} (h : c.Valid) {k : Nat} (hk : k < c.nslots) : k * c.slot < 2 ^ 32 := by
  have := slot_end_le hk
  have := maxAddr_lt h
  omega

theorem slotAddress_eq (c : Config) (w : Word) : slotAddress c w = (w.toNat % c.nslots) * c.slot := by
  rw [slotAddress, Config.maxAddr, Nat.mul_mod_mul_right]

theorem slotAddress_fits {c : Config} (h : c.Valid) (w : Word) : slotFits c (slotAddress c w) = true := by
  have := slot_end_le (Nat.mod_lt w.toNat (nslots_pos h))
  have := maxAddr_le c
  rw [slotAddress_eq]
  simp only [slotFits, decide_eq_true_eq]
  omega

/-! ### Ranges of bytes -/

theorem length_readBytes (m : Memory) (a n : Nat) : (m.readBytes a n).length = n := by simp [Memory.readBytes]

theorem getD_readBytes (m : Memory) (a : Nat) {n i : Nat} (hi : i < n) : (m.readBytes a n).getD i 0 = m.read (a + i) := by
  simp [Memory.readBytes, List.getD_eq_getElem?_getD, hi]

theorem readBytes_congr {m m' : Memory} {a n : Nat} (h : ∀ i, i < n → m.read (a + i) = m'.read (a + i)) :
    m.readBytes a n = m'.readBytes a n :=
  List.map_congr_left fun i hi => h i (List.mem_range.1 hi)

theorem readEvents_append (m : Memory) (a n k : Nat) :
    m.readEvents a (n + k) = m.readEvents a n ++ m.readEvents (a + n) k := by
  simp only [Memory.readEvents, List.range_add, List.map_append, List.map_map]
  congr 1
  apply List.map_congr_left
  intro i _
  simp [Nat.add_assoc]

/-! ### The differential write (R165) -/

theorem range_succ_shift (n : Nat) : List.range (n + 1) = 0 :: (List.range n).map (· + 1) := List.range_succ_eq_map

/-- Everything a differential write of `P` at `a` does: the memory stays canonical, reads as `P` inside the range and
as before outside, lists no new address but in the range, and the count and the events are those of the bytes that
differed. -/
theorem diffWrite_spec {ee : Memory} (h : ee.wf = true) (a : Nat) (P : List Byte) :
    (diffWrite ee a P).ee.wf = true
      ∧ (∀ x, (diffWrite ee a P).ee.read x = if a ≤ x ∧ x < a + P.length then P.getD (x - a) 0 else ee.read x)
      ∧ (∀ c ∈ (diffWrite ee a P).ee, c ∈ ee ∨ a ≤ c.1 ∧ c.1 < a + P.length)
      ∧ (diffWrite ee a P).count = (List.range P.length).countP (fun i => ee.read (a + i) != P.getD i 0)
      ∧ (diffWrite ee a P).events
        = (List.range P.length).flatMap fun i =>
            Event.eeRead (a + i) (ee.read (a + i))
              :: if ee.read (a + i) = P.getD i 0 then [] else [.eeWrite (a + i) (P.getD i 0)] := by
  induction P generalizing ee a with
  | nil =>
    refine ⟨h, fun x => ?_, fun c hc => .inl hc, rfl, rfl⟩
    rw [if_neg (by simp)]
    rfl
  | cons v P ih =>
    have hread : ∀ (i : Nat) (ee' : Memory), (∀ x, a < x → ee'.read x = ee.read x) →
        ee'.read (a + 1 + i) = ee.read (a + (i + 1)) := fun i ee' he => by
      rw [he _ (by omega)]; congr 1; omega
    have hadd : ∀ i, a + 1 + i = a + (i + 1) := fun i => by omega
    have hrange : ∀ (ee' : Memory), (∀ x, a < x → ee'.read x = ee.read x) →
        ((List.range P.length).countP fun i => ee'.read (a + 1 + i) != P.getD i 0)
          = ((List.range P.length).map (· + 1)).countP fun i => ee.read (a + i) != (v :: P).getD i 0 := fun ee' he => by
      rw [List.countP_map]
      exact List.countP_congr fun i _ => by simp [hread i ee' he]
    have hevents : ∀ (ee' : Memory), (∀ x, a < x → ee'.read x = ee.read x) →
        ((List.range P.length).flatMap fun i => Event.eeRead (a + 1 + i) (ee'.read (a + 1 + i))
            :: if ee'.read (a + 1 + i) = P.getD i 0 then [] else [.eeWrite (a + 1 + i) (P.getD i 0)])
          = ((List.range P.length).map (· + 1)).flatMap fun i => Event.eeRead (a + i) (ee.read (a + i))
            :: if ee.read (a + i) = (v :: P).getD i 0 then [] else [.eeWrite (a + i) ((v :: P).getD i 0)] :=
      fun ee' he => by
      rw [List.flatMap_map]
      congr 1
      funext i
      rw [hread i ee' he, hadd, List.getD_cons_succ]
    rw [show (v :: P).length = P.length + 1 from rfl, range_succ_shift, List.countP_cons, List.flatMap_cons]
    by_cases hv : ee.read a = v
    · obtain ⟨h1, h2, h3, h4, h5⟩ := ih h (a + 1)
      have e : diffWrite ee a (v :: P)
          = ⟨(diffWrite ee (a + 1) P).ee, (diffWrite ee (a + 1) P).count,
            .eeRead a (ee.read a) :: (diffWrite ee (a + 1) P).events⟩ := by rw [diffWrite, if_pos hv]
      rw [e]
      refine ⟨h1, fun x => ?_, fun c hc => ?_, ?_, ?_⟩
      · simp only [h2]
        by_cases hx : x = a
        · subst hx
          rw [if_neg (by omega), if_pos (by omega)]
          simpa using hv
        · by_cases hin : a + 1 ≤ x ∧ x < a + 1 + P.length
          · rw [if_pos hin, if_pos (by omega), show x - a = (x - (a + 1)) + 1 by omega, List.getD_cons_succ]
          · rw [if_neg hin, if_neg (by omega)]
      · rcases h3 c hc with h | h
        · exact .inl h
        · exact .inr (by omega)
      · rw [h4, hrange ee fun _ _ => rfl]
        simp [hv]
      · rw [h5, hevents ee fun _ _ => rfl]
        simp [hv]
    · obtain ⟨h1, h2, h3, h4, h5⟩ := ih (Memory.wf_write h a v) (a + 1)
      have he : ∀ x, a < x → (ee.write a v).read x = ee.read x := fun x hx => by
        rw [Memory.read_write h, if_neg (by omega)]
      have e : diffWrite ee a (v :: P)
          = ⟨(diffWrite (ee.write a v) (a + 1) P).ee, (diffWrite (ee.write a v) (a + 1) P).count + 1,
            .eeRead a (ee.read a) :: .eeWrite a v :: (diffWrite (ee.write a v) (a + 1) P).events⟩ := by
        rw [diffWrite, if_neg hv]
      rw [e]
      refine ⟨h1, fun x => ?_, fun c hc => ?_, ?_, ?_⟩
      · simp only [h2, Memory.read_write h]
        by_cases hx : x = a
        · subst hx
          rw [if_neg (by omega), if_pos rfl, if_pos (by omega)]
          simp
        · by_cases hin : a + 1 ≤ x ∧ x < a + 1 + P.length
          · rw [if_pos hin, if_pos (by omega), show x - a = (x - (a + 1)) + 1 by omega, List.getD_cons_succ]
          · rw [if_neg hin, if_neg hx, if_neg (by omega)]
      · rcases h3 c hc with h | h
        · rcases Memory.mem_write h with rfl | h
          · exact .inr (by simp)
          · exact .inl h
        · exact .inr (by omega)
      · rw [h4, hrange _ he]
        simp [hv]
      · rw [h5, hevents _ he]
        simp [hv]

/-- A differential write of `P` stores `P`. -/
theorem readBytes_diffWrite {ee : Memory} (h : ee.wf = true) (a : Nat) (P : List Byte) :
    (diffWrite ee a P).ee.readBytes a P.length = P := by
  obtain ⟨-, hr, -⟩ := diffWrite_spec h a P
  have : (diffWrite ee a P).ee.readBytes a P.length = (List.range P.length).map fun i => P.getD i 0 := by
    refine List.map_congr_left fun i hi => ?_
    rw [hr, if_pos (by have := List.mem_range.1 hi; omega), Nat.add_sub_cancel_left]
  rw [this]
  apply List.ext_getElem (by simp)
  intro i h1 h2
  simp [List.getD_eq_getElem?_getD, h2]

/-! ### One slot read and scrubbed (R167, R172) -/

theorem slotBlocks_congr {s t : State} (hc : t.cfg = s.cfg) (he : t.ee = s.ee) (a : Nat) :
    slotBlocks t a = slotBlocks s a := by
  simp only [slotBlocks, hc, he]

theorem slotReport_congr {s t : State} (hc : t.cfg = s.cfg) (he : t.ee = s.ee) (a : Nat) :
    slotReport t a = slotReport s a := by
  simp only [slotReport, hc, he]

theorem length_slotBlocks (s : State) (a : Nat) : (slotBlocks s a).length = s.cfg.bc := by simp [slotBlocks]

theorem slotReport_sum (s : State) (a : Nat) :
    (slotReport s a).numErrors = (slotReport s a).corrected + (slotReport s a).uncorrected :=
  scrubReport_sum ..

theorem slotReport_le (s : State) (a : Nat) : (slotReport s a).numErrors ≤ s.cfg.bc := by
  have := scrubReport_le s.cfg.oorPolicy (fileFill s.cfg.bitOrder s.cfg.bc (s.ee.readBytes a s.cfg.slot))
  rw [length_fileFill] at this
  exact this

/-- Everything reading and scrubbing a slot does. -/
theorem State.readSlot_eq (s : State) (a : Nat) :
    s.readSlot a
      = { s with
          phys := s.ee.readBytes a s.cfg.slot
          fb := slotBlocks s a
          scrubNumErr := BitVec.ofNat 32 (slotReport s a).numErrors
          scrubCorr := BitVec.ofNat 32 (slotReport s a).corrected
          scrubUncorr := BitVec.ofNat 32 (slotReport s a).uncorrected
          history := s.history ++ s.ee.readEvents a s.cfg.slot } := rfl

/-- A count of blocks fits a scrub register. -/
theorem toNat_scrubCount {c : Config} (h : c.Valid) {n : Nat} (hn : n ≤ c.bc) : (BitVec.ofNat 32 n).toNat = n := by
  have := bc_lt h
  simp
  omega

theorem scrubUncorr_eq_zero {s : State} (h : s.cfg.Valid) (a : Nat) :
    BitVec.ofNat 32 (slotReport s a).uncorrected = 0 ↔ slotAccepted s a = true := by
  have hle : (slotReport s a).uncorrected ≤ s.cfg.bc := by
    have := slotReport_le s a
    have := slotReport_sum s a
    omega
  rw [slotAccepted, beq_iff_eq, ← BitVec.toNat_inj, toNat_scrubCount h hle]
  rfl

/-- Everything the load from a slot does (R172, R173). -/
theorem State.loadSlot_eq {s : State} (hv : s.cfg.Valid) (a : Nat) :
    s.loadSlot a
      = if slotAccepted s a = true then
          { s.readSlot a with
            lbuf := fileDecode s.cfg.bitOrder s.cfg.dSize (slotBlocks s a)
            wctr := counterOfBytes s.cfg.byteOrder (fileDecode s.cfg.bitOrder s.cfg.dSize (slotBlocks s a))
            ret := 1 }
        else { s.readSlot a with evCorrupted := true, ret := 0 } := by
  unfold State.loadSlot
  by_cases h : slotAccepted s a = true
  · rw [if_pos h]
    exact if_pos ((scrubUncorr_eq_zero hv a).2 h)
  · rw [if_neg h]
    exact if_neg fun h' => h ((scrubUncorr_eq_zero hv a).1 h')

/-! ### The seek (R167 to R171) -/

/-- One round of the choice (R168, R169). -/
def chooseSlot (s : State) (best : Option (Nat × Word)) (k : Nat) : Option (Nat × Word) :=
  match best with
  | none => if slotAccepted s (k * s.cfg.slot) then some (k * s.cfg.slot, slotCounter s (k * s.cfg.slot)) else none
  | some (b, ctr) =>
    if slotAccepted s (k * s.cfg.slot) && newerThan s.cfg.newer (slotCounter s (k * s.cfg.slot)) ctr then
      some (k * s.cfg.slot, slotCounter s (k * s.cfg.slot))
    else some (b, ctr)

theorem seekChoice_eq (s : State) : seekChoice s = (List.range s.cfg.nslots).foldl (chooseSlot s) none := rfl

theorem foldl_range_succ {α : Type} (f : α → Nat → α) (x : α) (n : Nat) :
    (List.range (n + 1)).foldl f x = f ((List.range n).foldl f x) n := by
  rw [List.range_succ, List.foldl_append]
  rfl

/-- The seek registers hold a choice. -/
def HoldsChoice (t : State) : Option (Nat × Word) → Prop
  | none => t.seekValid = false ∧ t.seekAddr = 0 ∧ t.seekCtr = 0
  | some (a, ctr) => t.seekValid = true ∧ t.seekAddr = BitVec.ofNat 32 a ∧ t.seekCtr = ctr

/-- `t` is `s` but for the state a seek writes (R171). -/
def SeekFrame (s t : State) : Prop :=
  t
    = { s with
        phys := t.phys, fb := t.fb, scrubNumErr := t.scrubNumErr, scrubCorr := t.scrubCorr
        scrubUncorr := t.scrubUncorr, seekValid := t.seekValid, seekAddr := t.seekAddr, seekCtr := t.seekCtr
        history := t.history }

/-- The slot at `a` of `s` is what PHYS, FB and SCRUB_* of `t` hold. -/
def HoldsSlot (s t : State) (a : Nat) : Prop :=
  t.phys = s.ee.readBytes a s.cfg.slot ∧ t.fb = slotBlocks s a
    ∧ t.scrubNumErr = BitVec.ofNat 32 (slotReport s a).numErrors
    ∧ t.scrubCorr = BitVec.ofNat 32 (slotReport s a).corrected
    ∧ t.scrubUncorr = BitVec.ofNat 32 (slotReport s a).uncorrected

/-- One round of the seek from a state that holds the best choice so far. -/
theorem State.seekSlot_spec {s t : State} (hv : s.cfg.Valid) (hf : SeekFrame s t) {best : Option (Nat × Word)}
    (hb : HoldsChoice t best) (k : Nat) :
    SeekFrame s (t.seekSlot k) ∧ HoldsChoice (t.seekSlot k) (chooseSlot s best k)
      ∧ HoldsSlot s (t.seekSlot k) (k * s.cfg.slot)
      ∧ (t.seekSlot k).history = t.history ++ s.ee.readEvents (k * s.cfg.slot) s.cfg.slot := by
  have hc : t.cfg = s.cfg := by rw [hf]
  have he : t.ee = s.ee := by rw [hf]
  have hr : t.readSlot (k * s.cfg.slot)
      = { t with
          phys := s.ee.readBytes (k * s.cfg.slot) s.cfg.slot
          fb := slotBlocks s (k * s.cfg.slot)
          scrubNumErr := BitVec.ofNat 32 (slotReport s (k * s.cfg.slot)).numErrors
          scrubCorr := BitVec.ofNat 32 (slotReport s (k * s.cfg.slot)).corrected
          scrubUncorr := BitVec.ofNat 32 (slotReport s (k * s.cfg.slot)).uncorrected
          history := t.history ++ s.ee.readEvents (k * s.cfg.slot) s.cfg.slot } := by
    rw [State.readSlot_eq, slotBlocks_congr hc he, slotReport_congr hc he, he, hc]
  have hz := scrubUncorr_eq_zero hv (k * s.cfg.slot)
  unfold State.seekSlot
  simp only [hc, hr]
  rw [show counterOfFile s.cfg (slotBlocks s (k * s.cfg.slot)) = slotCounter s (k * s.cfg.slot) from rfl]
  have frame : ∀ v a w, SeekFrame s
      { t with
        cfg := s.cfg
        phys := s.ee.readBytes (k * s.cfg.slot) s.cfg.slot
        fb := slotBlocks s (k * s.cfg.slot)
        scrubNumErr := BitVec.ofNat 32 (slotReport s (k * s.cfg.slot)).numErrors
        scrubCorr := BitVec.ofNat 32 (slotReport s (k * s.cfg.slot)).corrected
        scrubUncorr := BitVec.ofNat 32 (slotReport s (k * s.cfg.slot)).uncorrected
        seekValid := v, seekAddr := a, seekCtr := w
        history := t.history ++ s.ee.readEvents (k * s.cfg.slot) s.cfg.slot } := fun v a w => by
    unfold SeekFrame at hf ⊢
    rw [hf]
  cases best with
  | none =>
    obtain ⟨h1, h2, h3⟩ := hb
    by_cases ha : slotAccepted s (k * s.cfg.slot) = true
    · rw [if_pos ⟨hz.2 ha, .inl h1⟩]
      exact ⟨frame _ _ _, by simp [chooseSlot, ha, HoldsChoice], ⟨rfl, rfl, rfl, rfl, rfl⟩, rfl⟩
    · rw [if_neg fun h => ha (hz.1 h.1)]
      exact ⟨frame _ _ _, by simp [chooseSlot, ha, HoldsChoice, h1, h2, h3], ⟨rfl, rfl, rfl, rfl, rfl⟩, rfl⟩
  | some bc =>
    obtain ⟨b, ctr⟩ := bc
    obtain ⟨h1, h2, h3⟩ := hb
    by_cases ha : slotAccepted s (k * s.cfg.slot) = true
      ∧ newerThan s.cfg.newer (slotCounter s (k * s.cfg.slot)) ctr = true
    · rw [if_pos ⟨hz.2 ha.1, .inr (h3 ▸ ha.2)⟩]
      exact ⟨frame _ _ _, by simp [chooseSlot, ha.1, ha.2, HoldsChoice], ⟨rfl, rfl, rfl, rfl, rfl⟩, rfl⟩
    · rw [if_neg fun h => ha ⟨hz.1 h.1, by
        rcases h.2 with h | h
        · rw [h1] at h; cases h
        · exact h3 ▸ h⟩]
      refine ⟨frame _ _ _, ?_, ⟨rfl, rfl, rfl, rfl, rfl⟩, rfl⟩
      have : (slotAccepted s (k * s.cfg.slot) && newerThan s.cfg.newer (slotCounter s (k * s.cfg.slot)) ctr) = false := by
        simpa using ha
      simp [chooseSlot, this, HoldsChoice, h1, h2, h3]

/-- Everything a seek leaves. -/
theorem State.seek_spec {s : State} (hv : s.cfg.Valid) :
    SeekFrame s s.seek ∧ HoldsChoice s.seek (seekChoice s) ∧ HoldsSlot s s.seek ((s.cfg.nslots - 1) * s.cfg.slot)
      ∧ s.seek.history = s.history ++ s.ee.readEvents 0 (s.cfg.nslots * s.cfg.slot) := by
  have key : ∀ n,
      SeekFrame s ((List.range n).foldl State.seekSlot { s with seekValid := false, seekAddr := 0, seekCtr := 0 })
        ∧ HoldsChoice ((List.range n).foldl State.seekSlot { s with seekValid := false, seekAddr := 0, seekCtr := 0 })
          ((List.range n).foldl (chooseSlot s) none)
        ∧ (0 < n → HoldsSlot s
          ((List.range n).foldl State.seekSlot { s with seekValid := false, seekAddr := 0, seekCtr := 0 })
          ((n - 1) * s.cfg.slot))
        ∧ ((List.range n).foldl State.seekSlot { s with seekValid := false, seekAddr := 0, seekCtr := 0 }).history
          = s.history ++ s.ee.readEvents 0 (n * s.cfg.slot) := by
    intro n
    induction n with
    | zero => exact ⟨rfl, ⟨rfl, rfl, rfl⟩, fun h => absurd h (by omega), by simp [Memory.readEvents]⟩
    | succ n ih =>
      obtain ⟨h1, h2, -, h4⟩ := ih
      rw [foldl_range_succ, foldl_range_succ]
      obtain ⟨g1, g2, g3, g4⟩ := State.seekSlot_spec hv h1 h2 n
      refine ⟨g1, g2, fun _ => by simpa using g3, ?_⟩
      rw [g4, h4, Nat.succ_mul, readEvents_append, List.append_assoc, Nat.zero_add]
  obtain ⟨h1, h2, h3, h4⟩ := key s.cfg.nslots
  exact ⟨h1, h2, h3 (nslots_pos hv), h4⟩

/-- A choice is an accepted slot and its counter. -/
theorem seekChoice_some {s : State} {a : Nat} {ctr : Word} (h : seekChoice s = some (a, ctr)) :
    ∃ k, k < s.cfg.nslots ∧ a = k * s.cfg.slot ∧ slotAccepted s a = true ∧ ctr = slotCounter s a := by
  have key : ∀ n, ∀ a ctr, (List.range n).foldl (chooseSlot s) none = some (a, ctr) →
      ∃ k, k < n ∧ a = k * s.cfg.slot ∧ slotAccepted s a = true ∧ ctr = slotCounter s a := by
    intro n
    induction n with
    | zero => intro a ctr h; cases h
    | succ n ih =>
      intro a ctr h
      rw [foldl_range_succ] at h
      cases hb : (List.range n).foldl (chooseSlot s) none with
      | none =>
        rw [hb] at h
        simp only [chooseSlot] at h
        split at h
        · cases h; exact ⟨n, by omega, rfl, by assumption, rfl⟩
        · cases h
      | some bc =>
        obtain ⟨b, c⟩ := bc
        rw [hb] at h
        simp only [chooseSlot] at h
        split at h
        · rename_i hacc
          cases h
          exact ⟨n, by omega, rfl, by simp_all, rfl⟩
        · cases h
          obtain ⟨k, hk, hrest⟩ := ih _ _ hb
          exact ⟨k, by omega, hrest⟩
  exact key s.cfg.nslots a ctr h

/-- The address of a choice fits SEEK_ADDR. -/
theorem toNat_seekChoice {s : State} (hv : s.cfg.Valid) {a : Nat} {ctr : Word} (h : seekChoice s = some (a, ctr)) :
    (BitVec.ofNat 32 a).toNat = a := by
  obtain ⟨k, hk, rfl, -, -⟩ := seekChoice_some h
  exact Nat.mod_eq_of_lt (slot_start_lt hv hk)

/-- There is no choice exactly where no slot is accepted (R170). -/
theorem seekChoice_none {s : State} :
    seekChoice s = none ↔ ∀ k, k < s.cfg.nslots → slotAccepted s (k * s.cfg.slot) = false := by
  have key : ∀ n, (List.range n).foldl (chooseSlot s) none = none ↔
      ∀ k, k < n → slotAccepted s (k * s.cfg.slot) = false := by
    intro n
    induction n with
    | zero => simp
    | succ n ih =>
      rw [foldl_range_succ]
      cases hb : (List.range n).foldl (chooseSlot s) none with
      | none =>
        rw [hb] at ih
        have hall := ih.1 rfl
        cases hn : slotAccepted s (n * s.cfg.slot) with
        | false =>
          simp only [chooseSlot, hn, Bool.false_eq_true, if_false, true_iff]
          intro k hk
          by_cases hkn : k = n
          · rw [hkn, hn]
          · exact hall k (by omega)
        | true =>
          simp only [chooseSlot, hn, if_true, reduceCtorEq, false_iff, not_forall]
          exact ⟨n, by omega, by simp [hn]⟩
      | some bc =>
        obtain ⟨b, c⟩ := bc
        rw [hb] at ih
        have hno : ¬ ∀ k, k < n → slotAccepted s (k * s.cfg.slot) = false := fun h => by simpa using ih.2 h
        constructor
        · intro h
          simp only [chooseSlot] at h
          split at h <;> cases h
        · intro h
          exact absurd (fun k hk => h k (by omega)) hno
  exact key s.cfg.nslots

end Sys2Proof.Machine
end

