-- ==== Sys2Proof/Laws/Step.lean ====
section
/-! SUPPORT. The laws of commands and steps: what each arm of `exec` answers, how a move is served, and that no
command faults on an instance. -/

namespace Sys2Proof.Machine

/-! ### Commands with a checked operand -/

theorem exec_bitview_ok {s : State} {sel : BitVec 4} {b : Buffer} (h : s.bitOperand sel = .ok b) :
    exec (.bget sel) s
        = .next { s with ret := (BitVec.ofBool (s.bufBit b s.arg0.toNat)).setWidth 32 }.complete
      ∧ (∀ v, exec (.bset sel v) s = .next (s.setBufBit b s.arg0.toNat v).complete)
      ∧ exec (.bflip sel) s = .next (s.setBufBit b s.arg0.toNat (!s.bufBit b s.arg0.toNat)).complete := by
  simp [exec, execBget, execBset, execBflip, h]

theorem exec_bitview_error {s : State} {sel : BitVec 4} {e : CmdError} (h : s.bitOperand sel = .error e) :
    exec (.bget sel) s = .next (s.raise e.code e.info)
      ∧ (∀ v, exec (.bset sel v) s = .next (s.raise e.code e.info))
      ∧ exec (.bflip sel) s = .next (s.raise e.code e.info) := by
  simp [exec, execBget, execBset, execBflip, h]

theorem exec_ee_ok {s : State} {a : Nat} (h : s.eeOperand = .ok a) :
    exec .eerd s = .next (({ s with ret := (s.ee.read a).setWidth 32 }.record [.eeRead a (s.ee.read a)]).complete)
      ∧ ∀ d, exec (.eewr d) s = .next (({ s with ee := s.ee.write a d }.record [.eeWrite a d]).complete) := by
  simp [exec, execEerd, execEewr, h]

theorem exec_ee_error {s : State} {e : CmdError} (h : s.eeOperand = .error e) :
    exec .eerd s = .next (s.raise e.code e.info) ∧ ∀ d, exec (.eewr d) s = .next (s.raise e.code e.info) := by
  simp [exec, execEerd, execEewr, h]

/-! ### Ring commands -/

/-- RSAVE refused (R166). -/
theorem exec_rsave_overflow {s : State} (h : ¬ s.CanSave) :
    exec .rsave s = .next (s.raise .ctrWrap (BitVec.allOnes 32)) := by
  have : s.wctr = BitVec.allOnes 32 ∧ s.cfg.wrapPolicy = .fault := by
    cases hw : s.cfg.wrapPolicy <;> simp_all [State.CanSave]
  exact if_pos this

/-- The differential write of RSAVE. -/
def saveDiff (s : State) : DiffResult := diffWrite s.ee (slotAddress s.cfg (s.wctr + 1)) (savedImage s)

/-- RSAVE carried out (R164). -/
theorem exec_rsave_next {s : State} (hv : s.cfg.Valid) (h : s.CanSave) :
    exec .rsave s =
      .next
        { s with
          wctr := s.wctr + 1
          lbuf := putCounter s.cfg.byteOrder (s.wctr + 1) s.lbuf
          fb := fileEncode s.cfg.bitOrder s.cfg.bc (putCounter s.cfg.byteOrder (s.wctr + 1) s.lbuf)
          phys := savedImage s
          ee := (saveDiff s).ee
          ret := BitVec.ofNat 32 (saveDiff s).count
          history := s.history ++ (saveDiff s).events
          err := .ok } := by
  have : ¬ (s.wctr = BitVec.allOnes 32 ∧ s.cfg.wrapPolicy = .fault) := by
    cases hw : s.cfg.wrapPolicy <;> simp_all [State.CanSave]
  simp only [exec, execRsave, if_neg this, saveRecord, slotAddress_fits hv, if_true]
  rfl

theorem length_savedImage (s : State) : (savedImage s).length = s.cfg.slot := by
  simp [savedImage, Config.slot]

/-- SEEK_ADDR after a seek is a slot's start: the choice's, or 0. -/
theorem State.seek_addr {s : State} (hv : s.cfg.Valid) :
    ∃ k, k < s.cfg.nslots ∧ s.seek.seekAddr.toNat = k * s.cfg.slot := by
  obtain ⟨-, h, -, -⟩ := State.seek_spec hv
  cases hc : seekChoice s with
  | none =>
    rw [hc] at h
    exact ⟨0, nslots_pos hv, by rw [h.2.1]; simp⟩
  | some bc =>
    obtain ⟨b, ctr⟩ := bc
    rw [hc] at h
    obtain ⟨k, hk, rfl, -, -⟩ := seekChoice_some hc
    refine ⟨k, hk, ?_⟩
    rw [h.2.1]
    exact Nat.mod_eq_of_lt (slot_start_lt hv hk)

/-- RSEEK (R167). -/
theorem exec_rseek_next (s : State) : exec .rseek s = .next { s.seek with ret := s.seek.seekAddr }.complete := rfl

/-- RLOAD carried out (R172). -/
theorem exec_rload_next {s : State} (hv : s.cfg.Valid) :
    exec .rload s = .next (s.seek.loadSlot s.seek.seekAddr.toNat).complete := by
  obtain ⟨k, hk, ha⟩ := State.seek_addr hv
  have h1 := slot_end_le hk
  have h2 := maxAddr_le s.cfg
  have : slotFits s.cfg s.seek.seekAddr.toNat = true := by
    rw [ha, slotFits]
    simp only [decide_eq_true_eq]
    omega
  simp only [exec, execRload, this, if_true]

/-- Every command of an instance answers a next state. -/
theorem exec_next {s : State} (hv : s.cfg.Valid) (i : Instr) : ∃ t, exec i s = .next t := by
  cases i
  case bget sel => simp only [exec, execBget]; split <;> exact ⟨_, rfl⟩
  case bset sel v => simp only [exec, execBset]; split <;> exact ⟨_, rfl⟩
  case bflip sel => simp only [exec, execBflip]; split <;> exact ⟨_, rfl⟩
  case eerd => simp only [exec, execEerd]; split <;> exact ⟨_, rfl⟩
  case eewr d => simp only [exec, execEewr]; split <;> exact ⟨_, rfl⟩
  case rsave =>
    by_cases h : s.CanSave
    · exact ⟨_, exec_rsave_next hv h⟩
    · exact ⟨_, exec_rsave_overflow h⟩
  case rload => exact ⟨_, exec_rload_next hv⟩
  all_goals exact ⟨_, rfl⟩

/-! ### Serving a move -/

theorem step_of_valid {s : State} (h : s.cfg.Valid) : step s = stepPending s := if_pos h

theorem step_cons {s : State} (h : s.cfg.Valid) {x : Input} {rest : List Input} (hp : s.pending = x :: rest) :
    step s = serve x { s with pending := rest } := by
  rw [step_of_valid h, stepPending, hp]

theorem step_nil {s : State} (h : s.cfg.Valid) (hp : s.pending = []) : step s = .next s := by
  rw [step_of_valid h, stepPending, hp]

theorem issueCommand_ok {w : Word} {i : Instr} (h : decode w = .ok i) (s : State) :
    issueCommand w s = exec i (s.record [.command w]) := by
  rw [issueCommand, h]

theorem issueCommand_error {w : Word} {e : DecodeError} (h : decode w = .error e) (s : State) :
    issueCommand w s = .next ((s.record [.command w]).raise (decodeErrCode e) w) := by
  rw [issueCommand, h]

/-- A CMD write of an instance completes (R30, R231). -/
theorem issueCommand_next {s : State} (hv : s.cfg.Valid) (w : Word) : ∃ t, issueCommand w s = .next t := by
  cases h : decode w with
  | ok i => rw [issueCommand_ok h]; exact exec_next (s := s.record [.command w]) hv i
  | error e => rw [issueCommand_error h]; exact ⟨_, rfl⟩

/-- A move is served with a next state, or it is a move the environment does not have. -/
theorem serve_next {s : State} (hv : s.cfg.Valid) (x : Input) :
    (∃ t, serve x s = .next t)
      ∨ serve x s = .refused .noSuchMove ∧ ((∃ a bit, x = .seu a bit) ∨ ∃ w n f, x = .powerLossInCommand w n f) := by
  cases x with
  | regRead n => exact .inl ⟨_, rfl⟩
  | bufRead sel off => exact .inl ⟨_, rfl⟩
  | bufWrite sel off v => exact .inl ⟨_, rfl⟩
  | powerCycle fill => exact .inl ⟨_, rfl⟩
  | regWrite n v =>
    simp only [serve, hostRegWrite]
    split
    · exact .inl (issueCommand_next hv v)
    · exact .inl ⟨_, rfl⟩
  | seu a bit =>
    simp only [serve, flipEeBit]
    split
    · exact .inl ⟨_, rfl⟩
    · exact .inr ⟨rfl, .inl ⟨a, bit, rfl⟩⟩
  | powerLossInCommand w n fill =>
    obtain ⟨t, ht⟩ := issueCommand_next hv w
    simp only [serve, losePowerIn, ht]
    split
    · exact .inl ⟨_, rfl⟩
    · exact .inr ⟨rfl, .inr ⟨w, n, fill, rfl⟩⟩

end Sys2Proof.Machine
end

