-- ==== Sys2Proof/Laws/HostSoftware.lean ====
section
/-! SUPPORT. The laws of the host software: what a row of host accesses does, the record's length, and what each
procedure asks of the core. -/

namespace Sys2Proof.Machine

/-! ### Rows of accesses -/

theorem serveAll_cons_next {x : Input} {s t : State} (h : serve x s = .next t) (xs : List Input) :
    serveAll (x :: xs) s = serveAll xs t := by
  rw [serveAll, h]

/-- The access reads a register or a buffer byte. -/
def Input.isRead : Input → Bool
  | .regRead _ => true
  | .bufRead _ _ => true
  | _ => false

/-- A row of reads changes nothing but the history (R71). -/
theorem serveAll_reads (xs : List Input) (h : ∀ x ∈ xs, x.isRead = true) :
    ∀ s : State, ∃ es, ∀ ys, serveAll (xs ++ ys) s = serveAll ys (s.record es) := by
  induction xs with
  | nil => exact fun s => ⟨[], fun ys => by simp [State.record]⟩
  | cons x xs ih =>
    intro s
    have hx : ∃ e, serve x s = .next (s.record [e]) := by
      have := h x (by simp)
      cases x <;> first | exact ⟨_, rfl⟩ | cases this
    obtain ⟨e, he⟩ := hx
    obtain ⟨es, hes⟩ := ih (fun y hy => h y (by simp [hy])) (s.record [e])
    refine ⟨e :: es, fun ys => ?_⟩
    rw [List.cons_append, serveAll_cons_next he, hes]
    simp [State.record]

theorem isRead_bufReads (sel n : Nat) : ∀ x ∈ bufReads sel n, x.isRead = true := by
  intro x hx
  simp only [bufReads, List.mem_map] at hx
  obtain ⟨i, -, rfl⟩ := hx
  rfl

theorem bufWrites_cons (sel off : Nat) (v : Byte) (l : List Byte) :
    bufWrites sel off (v :: l) = .bufWrite sel off v :: bufWrites sel (off + 1) l := by
  simp [bufWrites, List.range_succ_eq_map, Nat.add_assoc, Nat.add_comm 1]

/-- A row of writes to LBUF, from `off` up, replaces those bytes and changes nothing else but the history. -/
theorem serveAll_lbufWrites (l : List Byte) :
    ∀ (off : Nat) (s : State), s.lbuf.length = s.cfg.dSize → off + l.length ≤ s.cfg.dSize →
      ∃ es, ∀ ys,
        serveAll (bufWrites 2 off l ++ ys) s
          = serveAll ys
              ({ s with lbuf := s.lbuf.take off ++ l ++ s.lbuf.drop (off + l.length) }.record es) := by
  induction l with
  | nil => exact fun off s _ _ => ⟨[], fun ys => by simp [bufWrites, State.record]⟩
  | cons v l ih =>
    intro off s hl hoff
    simp only [List.length_cons] at hoff
    have hserve : serve (.bufWrite 2 off v) s = .next ({ s with lbuf := s.lbuf.set off v }.record [.bufWrite 2 off v]) := by
      show Host.Outcome.next ((if off < s.cfg.dSize then s.setBufByte .lbuf off v else s).record _) = _
      rw [if_pos (by omega)]
      rfl
    obtain ⟨es, hes⟩ := ih (off + 1) ({ s with lbuf := s.lbuf.set off v }.record [.bufWrite 2 off v])
      (by simpa [State.record] using hl) (by simpa [State.record] using by omega)
    refine ⟨.bufWrite 2 off v :: es, fun ys => ?_⟩
    rw [bufWrites_cons, List.cons_append, serveAll_cons_next hserve, hes]
    have ht : (s.lbuf.set off v).take (off + 1) = s.lbuf.take off ++ [v] := by
      rw [List.take_set, List.take_add_one, List.getElem?_eq_getElem (by omega), List.set_append_right _ _ (by simp)]
      simp [show off - min off s.lbuf.length = 0 by omega]
    have hd : (s.lbuf.set off v).drop (off + 1 + l.length) = s.lbuf.drop (off + (l.length + 1)) := by
      rw [List.drop_set_of_lt (by omega), show off + 1 + l.length = off + (l.length + 1) by omega]
    simp only [State.record, ht, hd, List.length_cons, List.append_assoc, List.cons_append, List.nil_append]

/-- What the host reads from the whole of LBUF. -/
theorem map_hostBufRead_lbuf {s : State} (h : s.lbuf.length = s.cfg.dSize) :
    (List.range s.cfg.dSize).map (s.hostBufRead 2) = s.lbuf := by
  apply List.ext_getElem (by simp [h])
  intro i h1 h2
  simp only [List.length_map, List.length_range] at h1
  simp [State.hostBufRead, Buffer.ofSel, bufferSize, h1, State.bufByte, List.getD_eq_getElem?_getD, h2]

/-- A command the host issues is the command itself, recorded. -/
theorem serve_issue (i : Instr) (hd : decode (encode i) = .ok i) (s : State) :
    serve (issue i) s = exec i (s.record [.command (encode i)]) := by
  simp only [serve, issue, hostRegWrite, if_true]
  exact issueCommand_ok hd s

/-! ### The record -/

@[simp] theorem length_fieldBytes (o : ByteOrder) (n v : Nat) : (fieldBytes o n v).length = n := by
  cases o <;> simp [fieldBytes]

@[simp] theorem length_faultBytes (o : ByteOrder) (r : FaultReport) : (r.bytes o).length = 7 := by
  simp [FaultReport.bytes]

theorem length_recordBody (o : ByteOrder) (h : HostState) : (h.recordBody o).length = 6 + 7 * h.table.length := by
  have : (h.table.flatMap (FaultReport.bytes o)).length = 7 * h.table.length := by
    induction h.table with
    | nil => rfl
    | cons r l ih => simp only [List.flatMap_cons, List.length_append, ih, length_faultBytes, List.length_cons]; omega
  simp only [HostState.recordBody, List.length_append, length_fieldBytes, this, List.length_cons, List.length_nil]
  omega

/-! ### The procedures -/

/-- `save()` is an RSAVE of a state that holds the record in LBUF from offset 4 up, and a read of RET (R102). -/
theorem HostState.save_eq {h : HostState} {s t : State} (hl : s.lbuf.length = s.cfg.dSize)
    (hp : h.params.Valid s.cfg) (ht : h.table.length = h.params.nf)
    (hx : ∀ es, ∃ fs, exec .rsave
      ({ s with lbuf := s.lbuf.take 4 ++ h.recordBody s.cfg.byteOrder }.record es)
        = .next { t with history := s.history ++ fs }) :
    ∃ fs, h.save s
      = .next ({ h with payload := { h.payload with writeCounter := t.wctr } }, { t with history := s.history ++ fs }) := by
  have hd := hp.2.2.2.2
  have hlen := length_recordBody s.cfg.byteOrder h
  obtain ⟨es, hes⟩ := serveAll_lbufWrites (h.recordBody s.cfg.byteOrder) 4 s hl (by omega)
  obtain ⟨fs, hfs⟩ := hx (es ++ [.command (encode .rsave)])
  refine ⟨fs ++ [.regRead 3 t.ret], ?_⟩
  rw [HostState.save, withCore, hes, show s.lbuf.drop (4 + (h.recordBody s.cfg.byteOrder).length) = [] by
    rw [List.drop_eq_nil_iff]; omega, List.append_nil]
  rw [serveAll, serve_issue _ (by decide)]
  have hr : ∀ (u : State) (a b : List Event), (u.record a).record b = u.record (a ++ b) := by simp [State.record]
  rw [hr, hfs]
  simp only [serveAll, serve, State.record, State.regRead, List.append_assoc]

end Sys2Proof.Machine
end

