-- ==== Sys2Proof/Laws/PerInstr.lean ====
section
/-! SUPPORT. Statements made instruction by instruction, about the instruction as syntax. -/

namespace Sys2Proof.Laws.KeepsFormatC

/-- The command word has a legal opcode, and the bits of format C that carry no operand of any command are 0: bits
15:12 and bits 31:24 (spec/30_encoding.md R91, R92). -/
def Statement (i : Instr) : Prop :=
  legalOpcode (fieldOpcode (encode i)) = true ∧ (encode i).extractLsb' 12 4 = 0 ∧ (encode i).extractLsb' 24 8 = 0

theorem nop : Statement .nop := by unfold Statement; decide

theorem init : Statement .init := by unfold Statement; decide

theorem bget (sel : BitVec 4) : Statement (.bget sel) := by unfold Statement; revert sel; decide

theorem bset (sel : BitVec 4) (v : Bool) : Statement (.bset sel v) := by unfold Statement; revert sel v; decide

theorem bflip (sel : BitVec 4) : Statement (.bflip sel) := by unfold Statement; revert sel; decide

theorem henc : Statement .henc := by unfold Statement; decide

theorem hscan : Statement .hscan := by unfold Statement; decide

theorem hcorr : Statement .hcorr := by unfold Statement; decide

theorem hdec : Statement .hdec := by unfold Statement; decide

theorem fenc : Statement .fenc := by unfold Statement; decide

theorem fget : Statement .fget := by unfold Statement; decide

theorem ffill : Statement .ffill := by unfold Statement; decide

theorem fscrub : Statement .fscrub := by unfold Statement; decide

theorem fdec : Statement .fdec := by unfold Statement; decide

theorem rsave : Statement .rsave := by unfold Statement; decide

theorem rseek : Statement .rseek := by unfold Statement; decide

theorem rload : Statement .rload := by unfold Statement; decide

theorem eerd : Statement .eerd := by unfold Statement; decide

theorem eewr (data : Byte) : Statement (.eewr data) := by
  have h : ∀ d : Byte, legalOpcode (fieldOpcode (encode (.eewr d))) = true ∧ (encode (.eewr d)).extractLsb' 12 4 = 0
      ∧ (encode (.eewr d)).extractLsb' 24 8 = 0 := by decide +kernel
  exact h data

end Sys2Proof.Laws.KeepsFormatC
end

