-- ==== Sys2Proof/Tests/Slice0.lean ====
section
/-! SUPPORT. The model's own tests. Every expected value is the spec's: the worked encodings of spec/30_encoding.md
R103, the examples of the command rules and the vectors of spec/95_test_vectors.md. -/

namespace Sys2Proof.Tests

-- One theorem at a time: each `decide +kernel` would otherwise wait on a thread of its own, and their stacks together
-- pass the memory limit of check.sh.
set_option Elab.async false

open Sys2Proof.Machine

/-! ### Helpers -/

/-- The next state of a command, or the reset state where it has none. -/
def run (i : Instr) (s : State) : State := (nextState (exec i s)).getD State.reset

/-- The next state of a step, or the reset state where it has none. -/
def runStep (s : State) : State := (nextState (step s)).getD State.reset

/-- An EEPROM that holds `l` from address `a` up. -/
def memory (a : Nat) (l : List Byte) : Memory :=
  (List.range l.length).foldl (fun m i => m.write (a + i) (l.getD i 0)) []

/-- Instance I12 after reset (section 0). -/
def s12 : State := State.reset

/-- Instance I20 after reset (section 0). -/
def s20 : State := { State.reset with cfg := Config.ofSizes 20 100 }.afterReset ⟨[], [], [], [], []⟩

/-- The block of section 4.2. -/
def blockB : List Byte := [0x09, 0x60, 0x48, 0xD1, 0xB3, 0xC4, 0xD5, 0xE6, 0xEE]

/-- The message of section 4.2. -/
def messageB : List Byte := [0x01, 0x23, 0x45, 0x67, 0x89, 0xAB, 0xCD, 0xEF]

/-- The image of save 3 of section 5.3. -/
def imageThree : List Byte :=
  [0xCF, 0x0C, 0x28, 0x28, 0xA0, 0xA0, 0xA0, 0xA0, 0x81] ++ [0x42, 0x41, 0x41, 0x41, 0x41, 0x41, 0x41, 0x05, 0x05]

/-- The image of save 4 of section 5.3. -/
def imageFour : List Byte :=
  [0x33, 0x33, 0x80, 0x80, 0x02, 0x02, 0x02, 0x02, 0x08] ++ [0x08, 0x04, 0x04, 0x04, 0x04, 0x04, 0x04, 0x10, 0x10]

/-- The image of save 2 of section 5.3. -/
def imageTwo : List Byte :=
  [0x0F, 0x0F, 0x20, 0x20, 0x80, 0x80, 0x80, 0x80, 0x02] ++ [0x02, 0x01, 0x01, 0x01, 0x01, 0x01, 0x01, 0x04, 0x04]

/-- The EEPROM after the four saves of section 5.3. -/
def eeFour : Memory := memory 0 (imageThree ++ imageFour ++ imageTwo)

/-- LBUF of section 5.1: `00 01 .. 13`. -/
def lbuf20 : List Byte := (List.range 20).map fun i => BitVec.ofNat 8 i

/-- FB of section 5.1, from the bytes of its FBW. -/
def fb20 : List Block :=
  [ blockOfBytes .lsb0 [0x02, 0x20, 0x81, 0xC0, 0x00, 0x82, 0x02, 0x83, 0x06],
    blockOfBytes .lsb0 [0x93, 0x21, 0x83, 0xC2, 0x04, 0x86, 0x06, 0x87, 0x0F],
    blockOfBytes .lsb0 [0x02, 0x23, 0x85, 0xC4, 0x09, 0x00, 0x00, 0x00, 0x00] ]

/-- PHYS of section 5.1. -/
def phys20 : List Byte :=
  [0x3A, 0x20, 0x40, 0x26, 0x80, 0x03, 0x17, 0x01, 0xE0] ++ [0x10, 0x01, 0xFC, 0x84, 0x08, 0x00, 0x98, 0x00, 0x60]
    ++ [0x98, 0x00, 0x00, 0x9B, 0x00, 0x60, 0xDA, 0x04, 0x00]

/-! ### Well-formedness -/

theorem test_wf_bget_reserved_sel : ¬ (Instr.bget 5).WellFormed := by decide

theorem test_wf_bset_reserved_sel : ¬ (Instr.bset 9 true).WellFormed := by decide

theorem test_wf_bflip_reserved_sel : ¬ (Instr.bflip 15).WellFormed := by decide

theorem test_wf_bget_fbw : (Instr.bget 4).WellFormed := by decide

/-! ### Decoding: the words of R95, R103 and section 3, bit by bit -/

theorem test_decode_system :
    decode 0b00000000000000000000000000000000 = .ok .nop ∧ decode 0b00000000000000000000000000000001 = .ok .init
      ∧ decode 0b00000000000000000000000001010000 = .ok .eerd
      ∧ decode 0b00000000001001110000000001010001 = .ok (.eewr 0x27) := by decide

theorem test_decode_bitview :
    decode 0b00000000000000000000010000010000 = .ok (.bget 4)
      ∧ decode 0b00000000000000010000001100010001 = .ok (.bset 3 true)
      ∧ decode 0b00000000000000000000000100010001 = .ok (.bset 1 false)
      ∧ decode 0b00000000000000000000000100010010 = .ok (.bflip 1) := by decide

theorem test_decode_hamming :
    decode 0b00000000000000000000000000100000 = .ok .henc ∧ decode 0b00000000000000000000000000100001 = .ok .hscan
      ∧ decode 0b00000000000000000000000000100010 = .ok .hcorr
      ∧ decode 0b00000000000000000000000000100011 = .ok .hdec := by decide

theorem test_decode_file :
    decode 0b00000000000000000000000000110000 = .ok .fenc ∧ decode 0b00000000000000000000000000110001 = .ok .fget
      ∧ decode 0b00000000000000000000000000110010 = .ok .ffill
      ∧ decode 0b00000000000000000000000000110011 = .ok .fscrub
      ∧ decode 0b00000000000000000000000000110100 = .ok .fdec := by decide

theorem test_decode_ring :
    decode 0b00000000000000000000000001000000 = .ok .rsave ∧ decode 0b00000000000000000000000001000001 = .ok .rseek
      ∧ decode 0b00000000000000000000000001000010 = .ok .rload := by decide

theorem test_decode_refused :
    decode 0x00000002 = .error .illegalOpcode ∧ decode 0x000000FF = .error .illegalOpcode
      ∧ decode 0x00000120 = .error .reservedField ∧ decode 0x00001020 = .error .reservedField
      ∧ decode 0x00020311 = .error .reservedField ∧ decode 0x01270051 = .error .reservedField
      ∧ decode 0x00001912 = .error .reservedField := by decide

/-- 0x00000512 of R103 decodes; its select code is refused when it runs. -/
theorem test_decode_bad_select : decode 0x00000512 = .ok (.bflip 5) := by decide

theorem test_encode_eewr : encode (.eewr 0x27) = 0x00270051 := by decide

theorem test_encode_bset : encode (.bset 3 true) = 0x00010311 := by decide

/-! ### System commands -/

/-- R181's example: after a failed BGET, NOP clears ERR and keeps ERRINFO and EVENTS[1]. -/
theorem test_nop_keeps_errinfo :
    (run .nop (s12.raise .indexOob 72)).err = .ok ∧ (run .nop (s12.raise .indexOob 72)).errInfo = 72
      ∧ (run .nop (s12.raise .indexOob 72)).evCmdError = true := by decide

theorem test_init_clears :
    (run .init { s12 with wctr := 7, lbuf := List.replicate 12 0xEE }).wctr = 0
      ∧ (run .init { s12 with wctr := 7, lbuf := List.replicate 12 0xEE }).lbuf = List.replicate 12 0 := by decide

theorem test_init_keeps_eeprom : (run .init { s12 with ee := [(3, 5)] }).ee = [(3, 5)] := by decide

theorem test_eerd_reads : (run .eerd { s12 with ee := [(18, 0x33)], arg0 := 18 }).ret = 0x33 := by decide

theorem test_eerd_out_of_range :
    (run .eerd { s12 with arg0 := 64 }).err = .eeAddrOob ∧ (run .eerd { s12 with arg0 := 64 }).errInfo = 64 := by
  decide

theorem test_eewr_writes : (run (.eewr 0x27) { s12 with ee := [(18, 0x33)], arg0 := 18 }).ee = [(18, 0x27)] := by
  decide

theorem test_eewr_last_address : (run (.eewr 0x27) { s12 with arg0 := 63 }).ee = [(63, 0x27)] := by decide

/-! ### BitView -/

theorem test_bget_bits :
    (run (.bget 1) { s12 with blk := blockB, arg0 := 71 }).ret = 1
      ∧ (run (.bget 1) { s12 with blk := blockB, arg0 := 4 }).ret = 0 := by decide

theorem test_bget_out_of_range :
    (run (.bget 1) { s12 with blk := blockB, arg0 := 72, ret := 9 }).err = .indexOob
      ∧ (run (.bget 1) { s12 with blk := blockB, arg0 := 72, ret := 9 }).ret = 9 := by decide

theorem test_bset_lsb0 : (run (.bset 0 true) { s12 with arg0 := 63 }).msg = [0, 0, 0, 0, 0, 0, 0, 0x80] := by decide

theorem test_bset_msb0 :
    (run (.bset 0 true) { s12 with cfg := { s12.cfg with bitOrder := .msb0 }, arg0 := 9 }).msg
      = [0, 0x40, 0, 0, 0, 0, 0, 0] := by decide

theorem test_bflip_last_bit :
    (run (.bflip 1) { s12 with blk := blockB, arg0 := 71 }).blk
      = [0x09, 0x60, 0x48, 0xD1, 0xB3, 0xC4, 0xD5, 0xE6, 0x6E] := by decide

/-- BFLIP on FBW index `72 k + b` changes block `k` only (R114). -/
theorem test_bflip_fbw : (run (.bflip 4) { s12 with arg0 := 85 }).fb = [(0 : Block), 1#72 <<< 13] := by decide +kernel

/-! ### HammingBlock (section 4) -/

theorem test_henc_lsb0 : (run .henc { s12 with msg := messageB }).blk = blockB := by decide +kernel

theorem test_henc_msb0 :
    (run .henc { s12 with cfg := { s12.cfg with bitOrder := .msb0 }, msg := messageB }).blk
      = [0x08, 0x89, 0x0D, 0x15, 0x4F, 0x13, 0x57, 0x9B, 0x6F] := by decide +kernel

theorem test_hscan_single :
    (run .hscan { s12 with blk := [0x09, 0x60, 0x48, 0xD1, 0x93, 0xC4, 0xD5, 0xE6, 0xEE] }).er.word = 0x00002501 := by
  decide +kernel

/-- Positions 8 and 64 flipped: the syndrome is 72, the parities agree, so a double error. -/
theorem test_hscan_double :
    (run .hscan { s12 with blk := [0x09, 0x61, 0x48, 0xD1, 0xB3, 0xC4, 0xD5, 0xE6, 0xEF] }).er.word = 0x0000FF02 := by
  decide +kernel

theorem test_hcorr_position_zero :
    (run .hcorr { s12 with blk := [0x08, 0x60, 0x48, 0xD1, 0xB3, 0xC4, 0xD5, 0xE6, 0xEE] }).blk = blockB := by
  decide +kernel

/-- Positions 1, 8, 64 flipped under OOR_POLICY = literal: `(1, 73)`, the flip refused (section 4.3). -/
theorem test_hcorr_literal :
    (run .hcorr
        { s12 with
          cfg := { s12.cfg with oorPolicy := .literal }
          blk := [0x0B, 0x61, 0x48, 0xD1, 0xB3, 0xC4, 0xD5, 0xE6, 0xEF] }).er = .single 73 := by decide +kernel

/-- HDEC does not correct: positions 3 and 5 flipped give a wrong first byte. -/
theorem test_hdec_damaged :
    (run .hdec { s12 with blk := [0x21, 0x60, 0x48, 0xD1, 0xB3, 0xC4, 0xD5, 0xE6, 0xEE] }).msg
      = [0x02, 0x23, 0x45, 0x67, 0x89, 0xAB, 0xCD, 0xEF] := by decide +kernel

/-! ### EncodedFile (section 5.1) -/

theorem test_fenc_padded : (run .fenc { s20 with lbuf := lbuf20 }).fb = fb20 := by decide +kernel

theorem test_fget_image : (run .fget { s20 with fb := fb20 }).phys = phys20 := by decide +kernel

theorem test_ffill_image : (run .ffill { s20 with phys := phys20 }).fb = fb20 := by decide +kernel

/-- The burst of three adjacent bits: PHYS[5] = 04. -/
theorem test_fscrub_burst :
    (run .fscrub (run .ffill { s20 with phys := phys20.set 5 0x04 })).fb = fb20 := by decide +kernel

/-- Two wrong bits in block 0: the report is (1, 0, 1). -/
theorem test_fscrub_double :
    (run .fscrub (run .ffill { s20 with phys := phys20.set 0 0x72 })).scrubUncorr = 1 := by decide +kernel

theorem test_fdec_decodes : (run .fdec { s20 with fb := fb20 }).lbuf = lbuf20 := by decide +kernel

/-! ### Ring manager (sections 5.3 to 5.5) -/

/-- Save 1: the image, from an EEPROM of zeros. -/
theorem test_rsave_image :
    (run .rsave { s12 with lbuf := [9, 9, 9, 9] ++ List.replicate 8 0x11 }).phys
      = [0xC0, 0x03, 0x08, 0x08, 0x20, 0x20, 0x20, 0x20, 0x83] ++ [0x40, 0x40, 0x40, 0x40, 0x40, 0x40, 0x40, 1, 1] := by
  decide +kernel

/-- Save 4 of section 5.3: 18 bytes rewritten, at address 18. -/
theorem test_rsave_fourth :
    (run .rsave
        { s12 with
          wctr := 3
          lbuf := List.replicate 12 0x44
          ee := memory 0 (imageThree ++ List.replicate 18 0xFF ++ imageTwo) }).ee = eeFour := by decide +kernel

theorem test_rseek_freshest : (run .rseek { s12 with ee := eeFour }).seekAddr = 18 := by decide +kernel

/-- The damaged freshest slot is rejected: counter 3 at address 0 wins. -/
theorem test_rseek_rejects : (run .rseek { s12 with ee := eeFour.write 18 0x27 }).seekCtr = 3 := by decide +kernel

theorem test_rload_freshest :
    (run .rload { s12 with ee := eeFour }).lbuf = [4, 0, 0, 0] ++ List.replicate 8 0x44 := by decide +kernel

/-- No slot valid: the event, WCTR unchanged. -/
theorem test_rload_none_valid :
    (run .rload
        { s12 with
          wctr := 77
          ee := ((eeFour.write 0 0xDB).write 18 0x27).write 36 0x1B }).evCorrupted = true := by decide +kernel

theorem test_slot_address_exact :
    slotAddress Config.i12 0x7FFFFFFF = 18 ∧ slotAddress Config.i12 0x80000000 = 36
      ∧ slotAddress Config.i12 0xFFFFFFFE = 36 ∧ slotAddress Config.i12 0xFFFFFFFF = 0 := by decide

theorem test_newer_serial :
    newerThan .serial 0 0xFFFFFFFF = true ∧ newerThan .serial 0xFFFFFFFF 0 = false
      ∧ newerThan .serial 0x80000000 0 = false ∧ newerThan .serial 0x7FFFFFFF 0 = true
      ∧ newerThan .unsigned 0 0xFFFFFFFF = false ∧ newerThan .unsigned 0xFFFFFFFF 0 = true := by decide

/-! ### Steps, host accesses and the environment (section 6, P6) -/

theorem test_step_runs_word : (runStep (s12.withFetchWord 32 0x00000112)).blk = [1, 0, 0, 0, 0, 0, 0, 0, 0] := by
  decide +kernel

theorem test_step_refuses_word :
    (runStep (s12.withFetchWord 32 0x00000120)).statusWord = 0x002
      ∧ (runStep (s12.withFetchWord 32 0x00000120)).errInfo = 0x00000120
      ∧ (runStep (s12.withFetchWord 32 0x00000120)).eventsWord = 0x2 := by decide

theorem test_decode_table_word : decodeTableWord 32 0x00270051 = some (.eewr 0x27) := by decide

theorem test_config_registers :
    [16, 17, 18, 19, 20, 21, 22].map s12.regRead = [12, 2, 18, 64, 54, 3, 0] := by decide

theorem test_reserved_registers : [0, 13, 14, 15, 23, 1000].map s12.regRead = [0, 0, 0, 0, 0, 0] := by decide

theorem test_events_write_one_clears :
    (({ s12 with evCmdError := true, evCorrupted := true }.regStore 11 0x2).eventsWord) = 0x1 := by decide

theorem test_read_records_value :
    (runStep { s12 with pending := [.regRead 18] }).history = [.regRead 18 18] := by decide

theorem test_seu_flips :
    (runStep { s12 with ee := [(41, 0x80)], pending := [.seu 41 4] }).ee = [(41, 0x90)] := by decide

/-- Section 5.6, `j = 1`: one byte of the image of save 3 has been read and written when power is lost. -/
theorem test_power_loss_cut :
    (runStep
        { s12 with
          wctr := 2
          lbuf := List.replicate 12 0x33
          pending := [.powerLossInCommand 0x40 2 ⟨[], [], [], [], []⟩] }).ee = [(0, 0xCF)] := by decide +kernel

/-! ### The host software (section 7) -/

/-- One fault code 0 that has occurred `n` times, at boot 1. -/
def entry (n : Byte) : FaultReport := ⟨n, 0, 0, false⟩

theorem test_fault_first : (entry 0).count 1 5 = ⟨1, 1, 5, true⟩ := by decide

theorem test_fault_repeat : (entry 1).count 1 5 = ⟨2, 1, 5, false⟩ := by decide

theorem test_fault_saturates :
    (entry 254).count 1 5 = ⟨255, 1, 5, true⟩ ∧ (entry 255).count 1 5 = ⟨255, 1, 5, false⟩ := by decide

/-- The parameters of section 7: three fault codes, sentinel 0xA5. -/
def hostParams : HostParams := ⟨3, 0xA5, 0, 1, [2]⟩

/-- The host of section 7's record image. -/
def host7 : HostState :=
  { HostState.initial hostParams true true with
    payload := ⟨4, 0x0102, 1, 2, 0xA5⟩
    table := [⟨1, 0x0102, 0x00012345, false⟩, ⟨0, 0, 0, false⟩, ⟨255, 0x00FF, 0xDEADBEEF, false⟩] }

theorem test_record_body :
    host7.recordBody .le
      = [0x02, 0x01, 0x01, 0x00, 0x02, 0x01, 0x02, 0x01, 0x45, 0x23, 0x01, 0x00] ++ [0, 0, 0, 0, 0, 0, 0]
        ++ [0xFF, 0xFF, 0x00, 0xEF, 0xBE, 0xAD, 0xDE, 0xA5] := by decide

theorem test_record_round_trip :
    ((HostState.initial hostParams true true).deserialise .le ([5, 0, 0, 0] ++ host7.recordBody .le) 5).table
      = host7.table := by decide

/-- A buffer content that has the sizes of I12. -/
def fill12 : BufferFill := ⟨List.replicate 8 1, List.replicate 9 2, List.replicate 12 3, [4, 5], List.replicate 18 6⟩

/-- I17: the record of one fault code, `D = 10 + 7` (R191), in a device of one slot. -/
def w17 : State := { State.reset with cfg := Config.ofSizes 17 32 }.afterReset ⟨[], [], [], [], []⟩

/-- I17 with bits 0 and 3 of block 0 inverted, so that its one slot is uncorrectable. -/
def none17 : State := { w17 with ee := [(0, 0x09)] }

/-- The host of one fault code, for I17. -/
def host17 : HostState := HostState.initial ⟨1, 0xA5, 0, 0, []⟩ true true

/-- The header, the table and the event bit a host procedure leaves. -/
def hostResult (o : Host.Outcome (HostState × State) Fault Refusal) :
    Option (PayloadData × List FaultReport × Bool) :=
  match o with
  | .next (h, s) => some (h.payload, h.table, s.evCorrupted)
  | .fault _ => none
  | .refused _ => none

/-- R193, R194 and D18: a load without a valid slot leaves the defaults with the fault logged over them. -/
theorem test_load_defaults :
    hostResult (HostState.load { host17 with payload := ⟨8, 7, 3, 9, 0xA5⟩, table := [⟨9, 7, 5, true⟩] } 55 none17)
      = some (⟨0, 0, 0, 0, 0⟩, [⟨1, 0, 55, true⟩], false) := by decide +kernel

/-- The commands and the register accesses that a host procedure made. -/
def hostAccesses (o : Host.Outcome (HostState × State) Fault Refusal) : List Event :=
  match o with
  | .next (_, s) => s.history.filter fun
    | .command _ => true
    | .regRead _ _ => true
    | .regWrite _ _ => true
    | _ => false
  | .fault _ => []
  | .refused _ => []

/-- R102: RSAVE and RD RET, the image bits 0, 3, 6 and 9 of counter 1 in two bytes; RLOAD, RD RET and RD
EVENTS, with WCTR after the record (R193). -/
theorem test_store_expansions :
    hostAccesses (host17.save w17) = [.command 0x00000040, .regRead 3 2]
      ∧ hostAccesses (host17.load 55 w17)
        = [.command 0x00000042, .regRead 3 1, .regRead 11 0, .regRead 8 0] := by decide +kernel

/-- R241: an event left set is logged after the record's fields, and cleared. -/
theorem test_load_stale_event :
    hostResult (host17.load 55 { w17 with evCorrupted := true })
      = some (⟨0, 0, 0, 0, 0⟩, [⟨1, 0, 55, true⟩], false) := by decide +kernel

/-- R195, R197 and R258: the boot after a planned restart of I17. -/
theorem test_restart_planned :
    hostResult (thenHost (HostState.prepareForRestart { host17 with payload := ⟨0, 7, 3, 9, 0⟩ } 0x42 w17) fun h s =>
        h.restart fill12 true true 100 200 s)
      = some (⟨2, 8, 0, 0x42, 0⟩, [⟨0, 0, 0, false⟩], false) := by decide +kernel

/-! ### Witnesses: states and operands that meet the premises of each statement, clause by clause -/

/-- I20 with the blocks of section 5.1 in LBUF, FB and PHYS. -/
def w20 : State := { s20 with lbuf := lbuf20, fb := fb20, phys := phys20 }

/-- I12 with the four slots of section 5.3 in the EEPROM, the last save's counter in WCTR. -/
def w12 : State := { s12 with ee := eeFour, wctr := 4 }

/-- I12 with the block of section 4.2 in BLK and its bit `i` inverted. -/
def wBlk (i : Word) : State := run (.bflip 1) { s12 with blk := blockB, arg0 := i }

theorem witness_RejectedWordsRaise :
    (∃ r ∈ matchAndMask, (0x00270051 : Word) &&& 0xFF = r.1 &&& 0xFF)
      ∧ (∃ r ∈ matchAndMask, (0x00270051 : Word) &&& r.2 = r.1)
      ∧ (∃ r ∈ matchAndMask, (0x01270051 : Word) &&& 0xFF = r.1 &&& 0xFF)
      ∧ (¬ ∃ r ∈ matchAndMask, (0x01270051 : Word) &&& r.2 = r.1)
      ∧ ¬ ∃ r ∈ matchAndMask, (0x00000052 : Word) &&& 0xFF = r.1 &&& 0xFF := by decide

theorem witness_StepRunsDecodedCommand :
    let s := s12.withFetchWord 32 0x00000040
    s.cfg.Valid ∧ s.pending = [.regWrite 0 0x00000040] ∧ decode 0x00000040 = .ok .rsave := by decide

theorem witness_HostAccessesNeverRaise :
    s12.cfg.Valid ∧ ({ s12 with pending := [.regRead 22, .bufRead 4 17] } : State).pending = .regRead 22 :: [.bufRead 4 17]
      ∧ ({ s12 with pending := [.bufRead 5 0] } : State).pending = .bufRead 5 0 :: []
      ∧ (1 ≠ 0 ∧ Input.regWrite 1 7 = .regWrite 1 7) ∧ Input.bufWrite 3 17 9 = .bufWrite 3 17 9 := by decide

/-- The numbers on either side of each boundary of the register file. -/
theorem witness_RegisterFileRules :
    (∀ n ∈ [0, 13, 15, 23, 24], n = 0 ∨ (13 ≤ n ∧ n ≤ 15) ∨ 23 ≤ n)
      ∧ (∀ n ∈ [0, 1, 3, 7, 9, 10, 12, 22], n ≠ 2 ∧ n ≠ 8 ∧ n ≠ 11)
      ∧ ({ w12 with errInfo := 5 } : State).regRead 12 = 5 ∧ w12.regRead 16 = 12 := by decide

/-- The last error code and the three forms of ER, the position at its last value. -/
theorem witness_RegisterLayouts :
    ({ s12 with err := .ctrWrap } : State).err = .ctrWrap
      ∧ ({ s12 with er := .single 71 } : State).er = .single 71 ∧ s12.er = .noError
      ∧ ({ s12 with er := .uncorrectable } : State).er = .uncorrectable := by decide

/-- The last byte of each buffer, the offset after it, and the first reserved select code. -/
theorem witness_BufferReadAfterWrite :
    s12.Sized ∧ (∀ p ∈ [(0, Buffer.msg), (1, .blk), (2, .lbuf), (3, .phys), (4, .fbw)], Buffer.ofSel p.1 = some p.2)
      ∧ [Buffer.msg, .blk, .lbuf, .phys, .fbw].map (bufferSize s12.cfg) = [8, 9, 12, 18, 18] ∧ 17 < 18 ∧ 18 ≤ 18
      ∧ Buffer.ofSel 5 = none := by decide

theorem witness_EerdReadsByte :
    ({ s12 with arg0 := 63 } : State).arg0.toNat < s12.cfg.eepromSize
      ∧ s12.cfg.eepromSize ≤ ({ s12 with arg0 := 64 } : State).arg0.toNat := by decide

theorem witness_EewrWritesByte :
    w12.EeOk ∧ ({ w12 with arg0 := 63 } : State).arg0.toNat < w12.cfg.eepromSize
      ∧ w12.cfg.eepromSize ≤ ({ w12 with arg0 := 64 } : State).arg0.toNat := by decide +kernel

/-- The last bit of each buffer. -/
theorem witness_BgetReadsBit :
    ∀ p ∈ [((0 : BitVec 4), Buffer.msg, (63 : Word)), (1, .blk, 71), (2, .lbuf, 95), (3, .phys, 143), (4, .fbw, 143)],
      Buffer.ofSel p.1.toNat = some p.2.1 ∧ p.2.2.toNat < 8 * bufferSize s12.cfg p.2.1 := by decide

theorem witness_BsetWritesBit :
    let s : State := { s12 with arg0 := 143 }
    s.Sized ∧ Buffer.ofSel (4 : BitVec 4).toNat = some .fbw ∧ s.arg0.toNat < 8 * bufferSize s.cfg .fbw := by decide

theorem witness_BflipInvertsBit :
    let s : State := { s12 with arg0 := 95 }
    s.Sized ∧ Buffer.ofSel (2 : BitVec 4).toNat = some .lbuf ∧ s.arg0.toNat < 8 * bufferSize s.cfg .lbuf := by decide

theorem witness_BitViewReadsBack :
    let s : State := { s12 with arg0 := 71 }
    s.Sized ∧ Buffer.ofSel (1 : BitVec 4).toNat = some .blk ∧ s.arg0.toNat < 8 * bufferSize s.cfg .blk
      ∧ (70 : Word) ≠ s.arg0 ∧ (70 : Word).toNat < 8 * bufferSize s.cfg .blk := by decide

theorem witness_BitViewRefusals :
    4 < (5 : BitVec 4).toNat ∧ 4 < (15 : BitVec 4).toNat
      ∧ ∀ p ∈ [((0 : BitVec 4), Buffer.msg, (64 : Word)), (1, .blk, 72), (2, .lbuf, 96), (3, .phys, 144), (4, .fbw, 144)],
        Buffer.ofSel p.1.toNat = some p.2.1 ∧ 8 * bufferSize s12.cfg p.2.1 ≤ p.2.2.toNat := by decide

theorem witness_SecdedGuarantees :
    0 < 72 ∧ 71 < 72 ∧ 0 ≠ 71
      ∧ flipBlockBit (hammingEncode (messageOfBytes .lsb0 messageB)) 71 ≠ hammingEncode (messageOfBytes .lsb0 messageB) := by
  decide +kernel

/-- One block for each of the five clauses, the last at the syndromes 71 and 73 on either side of the boundary. -/
theorem witness_HscanReports :
    let bit := fun (s : State) p => s.bufBit .blk p
    let par := fun s => decide ((List.range' 1 71).countP (bit s) % 2 = 1)
    let ip := fun s => indexParity (List.range' 1 71) (bit s)
    let three := run (.bflip 1) { run (.bflip 1) { wBlk 1 with arg0 := 8 } with arg0 := 64 }
    let literal : State := { three with cfg := { three.cfg with oorPolicy := .literal } }
    (bit { s12 with blk := blockB } 0 = par { s12 with blk := blockB } ∧ ip { s12 with blk := blockB } = 0)
      ∧ (bit (run (.bflip 1) { wBlk 3 with arg0 := 5 }) 0 = par (run (.bflip 1) { wBlk 3 with arg0 := 5 })
        ∧ ip (run (.bflip 1) { wBlk 3 with arg0 := 5 }) ≠ 0)
      ∧ (bit (wBlk 71) 0 ≠ par (wBlk 71) ∧ (ip (wBlk 71)).toNat = 71)
      ∧ (bit three 0 ≠ par three ∧ (ip three).toNat = 73 ∧ three.cfg.oorPolicy = .uncorrectable)
      ∧ bit literal 0 ≠ par literal ∧ (ip literal).toNat = 73 ∧ literal.cfg.oorPolicy = .literal := by decide +kernel

theorem witness_SingleErrorRepairedByCommands : ({ s12 with arg0 := 71 } : State).arg0.toNat < 72 := by decide

theorem witness_FencEncodesFile : w20.Sized ∧ 2 < w20.cfg.bc := by decide +kernel

theorem witness_FgetInterleaves : w20.Sized ∧ 2 < w20.cfg.bc ∧ 71 < 72 := by decide +kernel

/-- A file with a clean, a correctable and an uncorrectable block. -/
theorem witness_FscrubScrubsFile :
    let s : State := { w20 with fb := [fb20.getD 0 0, flipBlockBit (fb20.getD 1 0) 71, 0xA] }
    s.cfg.Valid ∧ s.Sized ∧ s.fb.map (hammingScan s.cfg.oorPolicy) = [.noError, .single 71, .uncorrectable] := by
  decide +kernel

theorem witness_FdecDecodesFile : w20.Sized ∧ 159 < 8 * w20.cfg.dSize := by decide +kernel

theorem witness_FileRoundTrips : phys20.length = 9 * 3 := by decide

/-- The burst of section 5.1: bits 40 to 42 of the image of three blocks. -/
theorem witness_BurstIsCorrected :
    lbuf20 ≠ [] ∧ phys20.set 5 0x04 ≠ phys20
      ∧ ∀ i, i < 72 * 3 → ¬ (40 ≤ i ∧ i < 40 + 3) →
        bitAt .lsb0 (phys20.set 5 0x04) i = bitAt .lsb0 (fileGetData .lsb0 (fileEncode .lsb0 3 lbuf20)) i := by
  decide +kernel

theorem witness_ScrubCounterIdentities :
    w12.Inv ∧ Instr.rload ∈ [Instr.fscrub, .rseek, .rload] ∧ (fileScrub .uncorrectable [1]).1 = [0]
      ∧ [(1 : Block)].getD 0 0 ≠ 0 := by decide +kernel

theorem witness_SecondScrubIsClean : w20.cfg.oorPolicy = .uncorrectable := by decide

theorem witness_SlotAddressOfCounter : Config.i12.Valid ∧ (0xFFFFFFFE : Word) ≠ 0xFFFFFFFF := by decide

theorem witness_CounterBitsOfBlockZero : 0 < 32 ∧ 31 < 32 := by decide

theorem witness_RsaveWritesRecord : w12.Inv ∧ w12.CanSave := by decide +kernel

theorem witness_RsaveAccessesInOrder : w20.Inv ∧ w20.CanSave := by decide +kernel

theorem witness_RsaveCounterOverflow :
    let s : State := { w12 with wctr := 0xFFFFFFFF }
    let t : State := { s with cfg := { s.cfg with wrapPolicy := .wrap } }
    s.wctr = 0xFFFFFFFF ∧ s.cfg.wrapPolicy = .fault ∧ t.wctr = 0xFFFFFFFF ∧ t.cfg.wrapPolicy = .wrap ∧ t.Inv := by
  decide +kernel

/-- An EEPROM with valid slots and one with none. -/
theorem witness_RseekFollowsLoop :
    let bad : State := { w12 with ee := ((eeFour.write 0 0xDB).write 18 0x27).write 36 0x1B }
    w12.Inv ∧ seekChoice w12 = some (18, 4) ∧ bad.Inv ∧ seekChoice bad = none := by decide +kernel

/-- Both comparisons, and for the serial one a base that the accepted counters 2 to 4 lie less than `2^31` above. -/
theorem witness_RseekFindsGreatestCounter :
    let serial : State := { w12 with cfg := { w12.cfg with newer := .serial } }
    w12.Inv ∧ w12.cfg.newer = .unsigned ∧ (nextState (exec .rseek w12)).map (·.seekValid) = some true
      ∧ serial.Inv ∧ serial.cfg.newer = .serial ∧ (nextState (exec .rseek serial)).map (·.seekValid) = some true
      ∧ (∀ j, j < serial.cfg.nslots → slotAccepted serial (j * serial.cfg.slot) = true →
        (slotCounter serial (j * serial.cfg.slot) - 0xFFFFFFFE).toNat < 2 ^ 31)
      ∧ slotAccepted serial (2 * serial.cfg.slot) = true := by decide +kernel

theorem witness_RloadLoadsFreshest :
    let bad : State := { w12 with ee := ((eeFour.write 0 0xDB).write 18 0x27).write 36 0x1B }
    w12.Inv ∧ seekChoice w12 = some (18, 4) ∧ bad.Inv ∧ seekChoice bad = none := by decide +kernel

theorem witness_WearLevelingMonotonicity :
    let records := [List.replicate 12 (0x55 : Byte), List.replicate 12 0x66]
    w12.Inv ∧ w12.cfg.newer = .unsigned ∧ records ≠ [] ∧ (∀ L ∈ records, L.length = w12.cfg.dSize)
      ∧ (∀ k, k < w12.cfg.nslots → slotAccepted w12 (k * w12.cfg.slot) = true →
        (slotCounter w12 (k * w12.cfg.slot)).toNat ≤ w12.wctr.toNat)
      ∧ w12.wctr.toNat + records.length < 2 ^ 32 := by decide +kernel

/-- Save 3 of section 5.3 rewrites 18 bytes: every cut from 0 to 18 is one of the statement's. The other command words
are HENC, which makes no access, the overflowing RSAVE, and EEWR at the device's last byte. -/
theorem witness_PowerLossCutsCommand :
    let s : State := { s12 with wctr := 2, lbuf := List.replicate 12 0x33 }
    let o : State := { w12 with wctr := 0xFFFFFFFF, arg0 := 63 }
    s.Inv ∧ s.CanSave ∧ slotAddress s.cfg (s.wctr + 1) = 0
      ∧ 18 ≤ (List.range s.cfg.slot).countP (fun i => s.ee.read (0 + i) != (savedImage s).getD i 0)
      ∧ o.Inv ∧ ¬ o.CanSave ∧ (nextState (serve (.powerLossInCommand 0x00000040 0 fill12) o)).isSome = true
      ∧ (nextState (serve (.powerLossInCommand 0x00000020 0 fill12) o)).isSome = true
      ∧ o.arg0.toNat < o.cfg.eepromSize
      ∧ (nextState (serve (.powerLossInCommand 0x00270051 1 fill12) o)).isSome = true := by decide +kernel

theorem witness_SingleUpsetIsHarmless :
    w12.Inv ∧ 2 < w12.cfg.nslots ∧ (slotReport w12 (2 * w12.cfg.slot)).numErrors = 0 ∧ 63 < w12.cfg.eepromSize := by
  decide +kernel

theorem witness_CommandErrorsArePrecise :
    (nextState (issueCommand 0x00000040 { w12 with wctr := 0xFFFFFFFF })).map (·.err) = some .ctrWrap
      ∧ (nextState (exec (.bget 5) w12)).map (·.err) = some .badSelect := by decide +kernel

/-- Every error code of R221 is raised by some command word. -/
theorem witness_ErrorsOfEachCommand :
    (∀ p ∈ [((0x00000002 : Word), ErrCode.illegalOpcode), (0x00000120, .reservedField), (0x00000510, .badSelect),
        (0x00010511, .badSelect), (0x00000012, .indexOob), (0x00000050, .eeAddrOob), (0x00270051, .eeAddrOob),
        (0x00000040, .ctrWrap)],
      (nextState (issueCommand p.1 { w12 with arg0 := 64, wctr := 0xFFFFFFFF })).map (·.err) = some p.2) := by
  decide +kernel

theorem witness_CommandsTouchOnlyTheirState :
    ∀ i ∈ [Instr.nop, .init, .bget 1, .bset 1 true, .bflip 1, .henc, .hscan, .hcorr, .hdec, .fenc, .fget, .ffill, .fscrub]
      ++ [.fdec, .rsave, .rseek, .rload, .eerd, .eewr 7], (nextState (exec i w12)).isSome = true := by decide +kernel

theorem witness_ResetAndInitValues :
    fill12.msg.length = 8 ∧ fill12.blk.length = 9 ∧ fill12.lbuf.length = w12.cfg.dSize ∧ fill12.fb.length = w12.cfg.bc
      ∧ fill12.phys.length = w12.cfg.slot := by decide

theorem witness_StepKeepsInvariant :
    let s := { w12 with lbuf := List.replicate 12 0x55 }.withFetchWord 32 0x00000040
    s.Inv ∧ (nextState (step s)).isSome = true := by decide +kernel

/-- An upset on either side of the device's end, and a power loss after one access in EERD, which makes one, and in
HENC, which makes none. -/
theorem witness_StepCompletesOrMoveIsMissing :
    let at_ := fun x => ({ w12 with pending := [x] } : State)
    w12.Inv ∧ (nextState (step w12)).isSome = true ∧ (∀ x, (at_ x).Inv ↔ w12.Inv)
      ∧ (nextState (step (at_ (.seu 63 7)))).isSome = true ∧ nextState (step (at_ (.seu 64 0))) = none
      ∧ (nextState (step (at_ (.powerLossInCommand 0x00000050 1 fill12)))).isSome = true
      ∧ nextState (step (at_ (.powerLossInCommand 0x00000020 1 fill12))) = none := by
  refine ⟨?_, ?_, fun x => Iff.rfl, ?_⟩ <;> decide +kernel

theorem witness_UpsetInvertsOneBit : w12.EeOk ∧ 63 < w12.cfg.eepromSize ∧ w12.cfg.eepromSize ≤ 64 := by decide +kernel

/-- Codes -1 and 3 on either side of the range of three codes, and 0 and 2 inside. -/
theorem witness_LogFaultRules :
    host7.table.length = host7.params.nf ∧ (-1 : Int) < 0 ∧ (host7.params.nf : Int) ≤ 3 ∧ (2 : Int) = ((2 : Nat) : Int)
      ∧ 2 < host7.params.nf := by decide

/-- A host with two entries in range, and I17 with a record of defaults in its slot and with none that is accepted. -/
theorem witness_RecordRoundTrip :
    host7.table.length = host7.params.nf ∧ (HostState.initial hostParams true true).params = host7.params
      ∧ w17.Inv ∧ host17.params.Valid w17.cfg ∧ seekChoice w17 = some (0, 0) ∧ host17.table.length = host17.params.nf
      ∧ (nextState (exec .rload w17)).map (·.lbuf) = some (counterBytes .le 0 ++ host17.recordBody .le)
      ∧ (∀ b, ({ w17 with evCorrupted := b } : State).Inv ∧ seekChoice { w17 with evCorrupted := b } = some (0, 0))
      ∧ none17.Inv ∧ host17.params.Valid none17.cfg ∧ seekChoice none17 = none := by
  refine ⟨?_, ?_, ?_, ?_, ?_, ?_, ?_, ?_, ?_, ?_, ?_⟩ <;> decide +kernel

theorem witness_HostSaveStoresRecord :
    w17.Inv ∧ w17.CanSave ∧ host17.params.Valid w17.cfg ∧ host17.table.length = host17.params.nf := by decide +kernel

/-- A boot after a crash and one after an announced restart; I17 with its stored counter not above WCTR, and with no
accepted slot. -/
theorem witness_NewStartBookkeeping :
    host17.payload.expectingRestart ≠ host17.params.sentinelMagic
      ∧ host17.params.unexpectedRestart < host17.params.nf ∧ host17.table.length = host17.params.nf
      ∧ host7.payload.expectingRestart = host7.params.sentinelMagic
      ∧ w17.Inv ∧ w17.cfg.newer = .unsigned ∧ host17.params.Valid w17.cfg
      ∧ (∀ k, k < w17.cfg.nslots → slotAccepted w17 (k * w17.cfg.slot) = true →
        (slotCounter w17 (k * w17.cfg.slot)).toNat ≤ w17.wctr.toNat)
      ∧ w17.wctr.toNat + 2 < 2 ^ 32
      ∧ none17.Inv ∧ host17.params.Valid none17.cfg ∧ seekChoice none17 = none := by
  refine ⟨?_, ?_, ?_, ?_, ?_, ?_, ?_, ?_, ?_, ?_, ?_, ?_⟩ <;> decide +kernel

theorem witness_HandleFaultsClearsActions :
    host7.table.length = host7.params.nf ∧ ({ host7 with actOnFaults := false } : HostState).actOnFaults = false
      ∧ ({ host7 with actOnFaults := true } : HostState).actOnFaults = true := by decide

end Sys2Proof.Tests
end

section
/-! SUPPORT. The invariant `State.Inv` move by move: which updates cannot touch it, what each group of commands keeps
of it, and that a command appends EEPROM accesses inside the device only, so that a power loss at any of them leaves a
memory inside the device. -/

namespace Sys2Proof.Machine

/-! ### Updates the invariant does not see -/

@[simp] theorem State.inv_record {s : State} {es : List Event} : (s.record es).Inv ↔ s.Inv := Iff.rfl
@[simp] theorem State.inv_complete {s : State} : s.complete.Inv ↔ s.Inv := Iff.rfl
@[simp] theorem State.inv_raise {s : State} {code : ErrCode} {info : Word} :
    (s.raise code info).Inv ↔ s.Inv := Iff.rfl

/-- A register store reaches ARG0, WCTR and EVENTS only (R29), of which the invariant says nothing. -/
@[simp] theorem State.inv_regStore {s : State} {n : Nat} {v : Word} : (s.regStore n v).Inv ↔ s.Inv := by
  rw [State.regStore_frame]

/-! ### The buffers -/

/-- Buffers of the right sizes may be exchanged. -/
theorem State.Inv.withBuffers {s : State} (h : s.Inv) {msg blk lbuf : List Byte} {fb : List Block} {phys : List Byte}
    (hs : ({ s with msg := msg, blk := blk, lbuf := lbuf, fb := fb, phys := phys } : State).Sized) :
    ({ s with msg := msg, blk := blk, lbuf := lbuf, fb := fb, phys := phys } : State).Inv :=
  ⟨h.1, hs, h.2.2⟩

theorem State.Inv.setBufBit {s : State} (h : s.Inv) (b : Buffer) (i : Nat) (v : Bool) : (s.setBufBit b i v).Inv := by
  have hs := State.sized_setBufBit h.2.1 b i v
  rw [State.setBufBit_frame] at hs ⊢
  exact h.withBuffers hs

theorem State.Inv.hostBufWrite {s : State} (h : s.Inv) (sel off : Nat) (v : Byte) :
    (s.hostBufWrite sel off v).Inv := by
  have hs := State.sized_hostBufWrite h.2.1 sel off v
  rw [State.hostBufWrite_frame] at hs ⊢
  exact h.withBuffers hs

/-- The padded record fills the blocks (R140, R141). -/
theorem dSize_le_blockBytes (c : Config) : c.dSize ≤ 8 * c.bc := by
  simp only [Config.bc]
  omega

@[simp] theorem length_putCounter (o : ByteOrder) (w : Word) (L : List Byte) :
    (putCounter o w L).length = 4 + (L.length - 4) := by
  simp [putCounter]

@[simp] theorem length_fit {α : Type} (n : Nat) (z : α) (l : List α) : (fit n z l).length = n := by
  simp [fit]

/-! ### The EEPROM -/

/-- A write inside the device keeps the EEPROM canonical and inside the device (R40). -/
theorem State.EeOk.write {s : State} (h : s.EeOk) {a : Nat} (ha : a < s.cfg.eepromSize) (v : Byte) :
    ({ s with ee := s.ee.write a v } : State).EeOk := by
  obtain ⟨hwf, hin⟩ := h
  refine ⟨Memory.wf_write hwf a v, fun c hc => ?_⟩
  rcases Memory.mem_write hc with rfl | hc
  · exact ha
  · exact hin c hc

/-- So does a differential write of a range inside the device (R165). -/
theorem State.EeOk.diffWrite {s : State} (h : s.EeOk) {a : Nat} {P : List Byte}
    (ha : a + P.length ≤ s.cfg.eepromSize) : ({ s with ee := (diffWrite s.ee a P).ee } : State).EeOk := by
  obtain ⟨hwf, hin⟩ := h
  obtain ⟨hwf', -, hcells, -, -⟩ := diffWrite_spec hwf a P
  refine ⟨hwf', fun c hc => ?_⟩
  rcases hcells c hc with hc | hc
  · exact hin c hc
  · exact Nat.lt_of_lt_of_le hc.2 ha

/-- The slot RSAVE writes, from its address up as long as the image, lies inside the device. -/
theorem saveSlot_end_le {s : State} (hv : s.cfg.Valid) :
    slotAddress s.cfg (s.wctr + 1) + (savedImage s).length ≤ s.cfg.eepromSize := by
  rw [length_savedImage]
  simpa [slotFits] using slotAddress_fits hv (s.wctr + 1)

/-! ### The scrub and seek registers -/

/-- A report over at most `BC` blocks makes the scrub registers consistent (R155). -/
theorem scrubOk_of_report {t : State} (hv : t.cfg.Valid) {r : ScrubReport}
    (hsum : r.numErrors = r.corrected + r.uncorrected) (hle : r.numErrors ≤ t.cfg.bc)
    (hn : t.scrubNumErr = BitVec.ofNat 32 r.numErrors) (hc : t.scrubCorr = BitVec.ofNat 32 r.corrected)
    (hu : t.scrubUncorr = BitVec.ofNat 32 r.uncorrected) : t.ScrubOk := by
  simp only [State.ScrubOk, hn, hc, hu]
  rw [toNat_scrubCount hv hle, toNat_scrubCount hv (by omega), toNat_scrubCount hv (by omega)]
  exact ⟨hsum, hle⟩

/-- Address 0 is the first slot's, so zeros in the seek registers are in order (R170). -/
theorem seekOk_of_zero {t : State} (hv : t.cfg.Valid) (ha : t.seekAddr = 0) (hc : t.seekCtr = 0) : t.SeekOk := by
  have hmax : 0 < t.cfg.maxAddr := Nat.mul_pos (nslots_pos hv) (slot_pos hv)
  exact ⟨by simp [ha], by simpa [ha] using hmax, fun _ => ⟨ha, hc⟩⟩

theorem seekOk_seek {s : State} (hv : s.cfg.Valid) : s.seek.SeekOk := by
  obtain ⟨hframe, hchoice, -, -⟩ := State.seek_spec hv
  obtain ⟨k, hk, haddr⟩ := State.seek_addr hv
  have hcfg : s.seek.cfg = s.cfg := by rw [hframe]
  have hend := slot_end_le hk
  have hpos := slot_pos hv
  refine ⟨by simp [haddr, hcfg], by rw [haddr, hcfg]; omega, fun hnone => ?_⟩
  cases hc : seekChoice s with
  | none => rw [hc] at hchoice; exact hchoice.2
  | some best =>
    rw [hc] at hchoice
    exact absurd (hchoice.1.symm.trans hnone) (by decide)

/-! ### A reset, a seek, a load -/

/-- Whatever the buffers hold when power returns, the reset meets the invariant, given valid parameters and an EEPROM
in order (R44, R251). -/
theorem inv_afterReset {s : State} (hv : s.cfg.Valid) (he : s.EeOk) (fill : BufferFill) : (s.afterReset fill).Inv :=
  ⟨hv, by simp [State.Sized], he, rfl, ⟨rfl, Nat.zero_le _⟩, seekOk_of_zero hv rfl rfl⟩

/-- A state that a seek or a load may leave, PHYS, FB and the scrub registers holding the slot at `a`. -/
theorem inv_of_holdsSlot {s t : State} (h : s.Inv) {a : Nat} (hframe : SeekFrame s t) (hslot : HoldsSlot s t a)
    (hseek : t.SeekOk) : t.Inv := by
  obtain ⟨hv, hs, he, hr, -, -⟩ := h
  obtain ⟨hphys, hfb, hn, hc, hu⟩ := hslot
  have hcfg : t.cfg = s.cfg := by rw [hframe]
  have hscrub : t.ScrubOk :=
    scrubOk_of_report (hcfg ▸ hv) (slotReport_sum s a) (hcfg ▸ slotReport_le s a) hn hc hu
  have hsized : t.Sized := by
    obtain ⟨hmsg, hblk, hlbuf, -, -⟩ := hs
    refine ⟨?_, ?_, ?_, by rw [hfb, hcfg, length_slotBlocks], by rw [hphys, hcfg, length_readBytes]⟩
    all_goals rw [hframe]; assumption
  exact ⟨hcfg ▸ hv, hsized, by rw [hframe]; exact he, by rw [hframe]; exact hr, hscrub, hseek⟩

theorem State.Inv.seek {s : State} (h : s.Inv) : s.seek.Inv := by
  obtain ⟨hframe, -, hslot, -⟩ := State.seek_spec h.1
  exact inv_of_holdsSlot h hframe hslot (seekOk_seek h.1)

theorem State.Inv.readSlot {s : State} (h : s.Inv) (a : Nat) : (s.readSlot a).Inv := by
  obtain ⟨-, -, -, -, -, hseek⟩ := id h
  exact inv_of_holdsSlot h rfl ⟨rfl, rfl, rfl, rfl, rfl⟩ hseek

theorem State.Inv.loadSlot {s : State} (h : s.Inv) (a : Nat) : (s.loadSlot a).Inv := by
  have hread := h.readSlot a
  rw [State.loadSlot_eq h.1]
  split
  · obtain ⟨hmsg, hblk, -, hfb, hphys⟩ := hread.2.1
    have hlbuf : (fileDecode s.cfg.bitOrder s.cfg.dSize (slotBlocks s a)).length = s.cfg.dSize :=
      length_fileDecode _ (by rw [length_slotBlocks]; exact dSize_le_blockBytes _)
    exact hread.withBuffers ⟨hmsg, hblk, hlbuf, hfb, hphys⟩
  · exact hread

/-! ### What the commands with a checked operand, and INIT, can leave -/

/-- A BitView command ends in an error, in RET, or in one written bit (R111 to R114). -/
theorem exec_bitview_cases {s t : State} {sel : BitVec 4} {i : Instr}
    (hi : i = .bget sel ∨ (∃ v, i = .bset sel v) ∨ i = .bflip sel) (ht : exec i s = .next t) :
    (∃ e : CmdError, t = s.raise e.code e.info) ∨ (∃ r, t = { s with ret := r }.complete)
      ∨ ∃ b v, t = (s.setBufBit b s.arg0.toNat v).complete := by
  cases hop : s.bitOperand sel with
  | error e =>
    obtain ⟨hget, hset, hflip⟩ := exec_bitview_error hop
    have herr : exec i s = .next (s.raise e.code e.info) := by
      rcases hi with rfl | ⟨v, rfl⟩ | rfl
      exacts [hget, hset v, hflip]
    rw [herr] at ht
    cases ht
    exact .inl ⟨e, rfl⟩
  | ok b =>
    obtain ⟨hget, hset, hflip⟩ := exec_bitview_ok hop
    rcases hi with rfl | ⟨v, rfl⟩ | rfl
    · rw [hget] at ht; cases ht; exact .inr (.inl ⟨_, rfl⟩)
    · rw [hset] at ht; cases ht; exact .inr (.inr ⟨b, _, rfl⟩)
    · rw [hflip] at ht; cases ht; exact .inr (.inr ⟨b, _, rfl⟩)

/-- EERD ends in an error or reads one byte of the device (R184). -/
theorem exec_eerd_cases {s t : State} (ht : exec .eerd s = .next t) :
    (∃ e : CmdError, t = s.raise e.code e.info)
      ∨ ∃ (a : Nat) (v : Byte), a < s.cfg.eepromSize
        ∧ t = ({ s with ret := v.setWidth 32 }.record [.eeRead a v]).complete := by
  rcases s.eeOperand_cases with ⟨ha, hop⟩ | ⟨-, hop⟩
  · rw [(exec_ee_ok hop).1] at ht
    cases ht
    exact .inr ⟨_, _, ha, rfl⟩
  · rw [(exec_ee_error hop).1] at ht
    cases ht
    exact .inl ⟨_, rfl⟩

/-- EEWR ends in an error or writes one byte of the device (R185). -/
theorem exec_eewr_cases {s t : State} {d : Byte} (ht : exec (.eewr d) s = .next t) :
    (∃ e : CmdError, t = s.raise e.code e.info)
      ∨ ∃ a, a < s.cfg.eepromSize ∧ t = ({ s with ee := s.ee.write a d }.record [.eeWrite a d]).complete := by
  rcases s.eeOperand_cases with ⟨ha, hop⟩ | ⟨-, hop⟩
  · rw [(exec_ee_ok hop).2] at ht
    cases ht
    exact .inr ⟨_, ha, rfl⟩
  · rw [(exec_ee_error hop).2] at ht
    cases ht
    exact .inl ⟨_, rfl⟩

/-- INIT is a reset that finds every buffer zero (R44, R182). -/
theorem exec_init_eq (s : State) : exec .init s = .next (s.afterReset ⟨[], [], [], [], []⟩) := by
  simp [exec, execInit, State.afterReset, State.reset, State.complete, fit]

/-! ### Commands keep the invariant -/

theorem execRsave_keeps_inv {s t : State} (h : s.Inv) (ht : exec .rsave s = .next t) : t.Inv := by
  obtain ⟨hv, hs, he, hr, hc, hk⟩ := id h
  by_cases hsave : s.CanSave
  · rw [exec_rsave_next hv hsave] at ht
    cases ht
    obtain ⟨hmsg, hblk, hlbuf, -, -⟩ := hs
    have hrecord : (putCounter s.cfg.byteOrder (s.wctr + 1) s.lbuf).length = s.cfg.dSize := by
      have := hv.1
      rw [length_putCounter]
      omega
    exact ⟨hv, ⟨hmsg, hblk, hrecord, length_fileEncode .., length_savedImage s⟩,
      he.diffWrite (saveSlot_end_le hv), hr, hc, hk⟩
  · rw [exec_rsave_overflow hsave] at ht
    cases ht
    exact h

theorem execFscrub_keeps_inv {s t : State} (h : s.Inv) (ht : exec .fscrub s = .next t) : t.Inv := by
  obtain ⟨hv, ⟨hmsg, hblk, hlbuf, hfb, hphys⟩, he, hr, -, hk⟩ := h
  cases ht
  refine ⟨hv, ⟨hmsg, hblk, hlbuf, (length_fileScrub ..).trans hfb, hphys⟩, he, hr, ?_, hk⟩
  exact scrubOk_of_report hv (scrubReport_sum s.cfg.oorPolicy s.fb) (hfb ▸ scrubReport_le s.cfg.oorPolicy s.fb)
    rfl rfl rfl

theorem execBitView_keeps_inv {s t : State} (h : s.Inv) {sel : BitVec 4} {i : Instr}
    (hi : i = .bget sel ∨ (∃ v, i = .bset sel v) ∨ i = .bflip sel) (ht : exec i s = .next t) : t.Inv := by
  rcases exec_bitview_cases hi ht with ⟨e, rfl⟩ | ⟨r, rfl⟩ | ⟨b, v, rfl⟩
  · exact State.inv_raise.2 h
  · exact State.inv_complete.2 h
  · exact State.inv_complete.2 (h.setBufBit b _ v)

/-- Every command keeps the invariant. -/
theorem exec_keeps_inv {s t : State} (h : s.Inv) {i : Instr} (ht : exec i s = .next t) : t.Inv := by
  obtain ⟨hv, hs, he, hr, hc, hk⟩ := id h
  obtain ⟨hmsg, hblk, hlbuf, hfb, hphys⟩ := id hs
  cases i with
  | nop => cases ht; exact h
  | init =>
    rw [exec_init_eq] at ht
    cases ht
    exact inv_afterReset hv he _
  | bget sel => exact execBitView_keeps_inv h (.inl rfl) ht
  | bset sel v => exact execBitView_keeps_inv h (.inr (.inl ⟨v, rfl⟩)) ht
  | bflip sel => exact execBitView_keeps_inv h (.inr (.inr rfl)) ht
  | henc => cases ht; exact h.withBuffers ⟨hmsg, length_bytesOfBlock .., hlbuf, hfb, hphys⟩
  | hscan => cases ht; exact ⟨hv, hs, he, reportInRange_hammingScan .., hc, hk⟩
  | hcorr =>
    cases ht
    exact ⟨hv, ⟨hmsg, length_bytesOfBlock .., hlbuf, hfb, hphys⟩, he, reportInRange_hammingScan .., hc, hk⟩
  | hdec => cases ht; exact h.withBuffers ⟨length_bytesOfMessage .., hblk, hlbuf, hfb, hphys⟩
  | fenc => cases ht; exact h.withBuffers ⟨hmsg, hblk, hlbuf, length_fileEncode .., hphys⟩
  | fget =>
    cases ht
    exact h.withBuffers ⟨hmsg, hblk, hlbuf, hfb, (length_fileGetData ..).trans (by rw [hfb]; rfl)⟩
  | ffill => cases ht; exact h.withBuffers ⟨hmsg, hblk, hlbuf, length_fileFill .., hphys⟩
  | fscrub => exact execFscrub_keeps_inv h ht
  | fdec =>
    cases ht
    have hfile : s.cfg.dSize ≤ 8 * s.fb.length := hfb ▸ dSize_le_blockBytes s.cfg
    exact h.withBuffers ⟨hmsg, hblk, length_fileDecode _ hfile, hfb, hphys⟩
  | rsave => exact execRsave_keeps_inv h ht
  | rseek => cases ht; exact h.seek
  | rload =>
    rw [exec_rload_next hv] at ht
    cases ht
    exact h.seek.loadSlot _
  | eerd =>
    rcases exec_eerd_cases ht with ⟨e, rfl⟩ | ⟨a, v, -, rfl⟩
    · exact State.inv_raise.2 h
    · exact State.inv_complete.2 h
  | eewr d =>
    rcases exec_eewr_cases ht with ⟨e, rfl⟩ | ⟨a, ha, rfl⟩
    · exact State.inv_raise.2 h
    · exact ⟨hv, hs, he.write ha d, hr, hc, hk⟩

/-! ### A command appends EEPROM accesses inside the device to the history -/

/-- The event is an EEPROM access at an address of the device (R64, R80). -/
def Event.AccessIn (c : Config) : Event → Prop
  | .eeRead a _ => a < c.eepromSize
  | .eeWrite a _ => a < c.eepromSize
  | _ => False

/-- `t`'s history is `s`'s with EEPROM accesses inside the device after it. -/
def AppendsAccesses (s t : State) : Prop := ∃ es, t.history = s.history ++ es ∧ ∀ e ∈ es, e.AccessIn s.cfg

theorem AppendsAccesses.of_eq {s t : State} (h : t.history = s.history) : AppendsAccesses s t :=
  ⟨[], by simp [h], by simp⟩

theorem accessIn_readEvents {c : Config} (m : Memory) {a n : Nat} (h : a + n ≤ c.eepromSize) :
    ∀ e ∈ m.readEvents a n, e.AccessIn c := by
  intro e he
  obtain ⟨i, hi, rfl⟩ := List.mem_map.1 he
  have hin : i < n := List.mem_range.1 hi
  exact show a + i < c.eepromSize by omega

/-- A differential write reads, and where it must writes, the bytes of its range (R165). -/
theorem accessIn_diffWrite {c : Config} {a : Nat} {P : List Byte} (h : a + P.length ≤ c.eepromSize) (ee : Memory) :
    ∀ e ∈ (diffWrite ee a P).events, e.AccessIn c := by
  induction P generalizing ee a with
  | nil => simp [diffWrite]
  | cons v P ih =>
    rw [List.length_cons] at h
    have ha : a < c.eepromSize := by omega
    have hrest : ∀ ee', ∀ e ∈ (diffWrite ee' (a + 1) P).events, e.AccessIn c := fun ee' => ih (by omega) ee'
    unfold diffWrite
    split
    · exact List.forall_mem_cons.2 ⟨ha, hrest _⟩
    · exact List.forall_mem_cons.2 ⟨ha, List.forall_mem_cons.2 ⟨ha, hrest _⟩⟩

theorem appendsAccesses_seek {s : State} (hv : s.cfg.Valid) : AppendsAccesses s s.seek := by
  obtain ⟨-, -, -, hhist⟩ := State.seek_spec hv
  exact ⟨_, hhist, accessIn_readEvents s.ee (by rw [Nat.zero_add]; exact maxAddr_le s.cfg)⟩

theorem loadSlot_history {s : State} (hv : s.cfg.Valid) (a : Nat) :
    (s.loadSlot a).history = s.history ++ s.ee.readEvents a s.cfg.slot := by
  rw [State.loadSlot_eq hv]
  split <;> rfl

/-- RLOAD reads every slot and then the chosen one again (R172). -/
theorem appendsAccesses_rload {s : State} (hv : s.cfg.Valid) :
    AppendsAccesses s (s.seek.loadSlot s.seek.seekAddr.toNat) := by
  obtain ⟨hframe, -, -, -⟩ := State.seek_spec hv
  have hcfg : s.seek.cfg = s.cfg := by rw [hframe]
  obtain ⟨k, hk, haddr⟩ := State.seek_addr hv
  obtain ⟨es, hes, hin⟩ := appendsAccesses_seek hv
  have hend : s.seek.seekAddr.toNat + s.seek.cfg.slot ≤ s.cfg.eepromSize := by
    rw [haddr, hcfg]
    exact (slot_end_le hk).trans (maxAddr_le s.cfg)
  refine ⟨es ++ s.seek.ee.readEvents s.seek.seekAddr.toNat s.seek.cfg.slot, ?_, ?_⟩
  · rw [loadSlot_history (hcfg ▸ hv), hes, List.append_assoc]
  · exact List.forall_mem_append.2 ⟨hin, accessIn_readEvents _ hend⟩

theorem execBitView_appendsAccesses {s t : State} {sel : BitVec 4} {i : Instr}
    (hi : i = .bget sel ∨ (∃ v, i = .bset sel v) ∨ i = .bflip sel) (ht : exec i s = .next t) :
    AppendsAccesses s t := by
  rcases exec_bitview_cases hi ht with ⟨e, rfl⟩ | ⟨r, rfl⟩ | ⟨b, v, rfl⟩
  · exact .of_eq rfl
  · exact .of_eq rfl
  · exact .of_eq (by simp)

/-- Every command appends EEPROM accesses inside the device, and nothing else, to the history (R64, R80). -/
theorem exec_appendsAccesses {s t : State} (hv : s.cfg.Valid) {i : Instr} (ht : exec i s = .next t) :
    AppendsAccesses s t := by
  cases i with
  | bget sel => exact execBitView_appendsAccesses (.inl rfl) ht
  | bset sel v => exact execBitView_appendsAccesses (.inr (.inl ⟨v, rfl⟩)) ht
  | bflip sel => exact execBitView_appendsAccesses (.inr (.inr rfl)) ht
  | rsave =>
    by_cases hsave : s.CanSave
    · rw [exec_rsave_next hv hsave] at ht
      cases ht
      exact ⟨_, rfl, accessIn_diffWrite (saveSlot_end_le hv) s.ee⟩
    · rw [exec_rsave_overflow hsave] at ht
      cases ht
      exact .of_eq rfl
  | rseek => cases ht; exact appendsAccesses_seek hv
  | rload =>
    rw [exec_rload_next hv] at ht
    cases ht
    exact appendsAccesses_rload hv
  | eerd =>
    rcases exec_eerd_cases ht with ⟨e, rfl⟩ | ⟨a, v, ha, rfl⟩
    · exact .of_eq rfl
    · exact ⟨[.eeRead a v], rfl, List.forall_mem_singleton.2 ha⟩
  | eewr d =>
    rcases exec_eewr_cases ht with ⟨e, rfl⟩ | ⟨a, ha, rfl⟩
    · exact .of_eq rfl
    · exact ⟨[.eeWrite a d], rfl, List.forall_mem_singleton.2 ha⟩
  | nop | init | henc | hscan | hcorr | hdec | fenc | fget | ffill | fscrub | fdec => cases ht; exact .of_eq rfl

/-! ### Moves keep the invariant -/

theorem issueCommand_keeps_inv {s t : State} (h : s.Inv) {w : Word} (ht : issueCommand w s = .next t) : t.Inv := by
  cases hd : decode w with
  | ok i =>
    rw [issueCommand_ok hd] at ht
    exact exec_keeps_inv (s := s.record [.command w]) h ht
  | error e =>
    rw [issueCommand_error hd] at ht
    cases ht
    exact h

/-- What stands in the history behind a command's issue: its EEPROM accesses. -/
theorem issueCommand_accesses {s t : State} (hv : s.cfg.Valid) {w : Word} (ht : issueCommand w s = .next t) :
    ∀ e ∈ t.history.drop (s.history.length + 1), e.AccessIn s.cfg := by
  have happ : AppendsAccesses (s.record [.command w]) t := by
    cases hd : decode w with
    | ok i =>
      rw [issueCommand_ok hd] at ht
      exact exec_appendsAccesses (s := s.record [.command w]) hv ht
    | error e =>
      rw [issueCommand_error hd] at ht
      cases ht
      exact .of_eq rfl
  obtain ⟨es, hes, hin⟩ := happ
  rw [hes, List.drop_left' (by simp)]
  exact hin

/-- Carrying out the writes among accesses inside the device keeps the EEPROM canonical and inside it. -/
theorem eeOk_applyWrites {s : State} (h : s.EeOk) {es : List Event} (hin : ∀ e ∈ es, e.AccessIn s.cfg) :
    ({ s with ee := applyWrites s.ee es } : State).EeOk := by
  induction es generalizing s with
  | nil => exact h
  | cons e es ih =>
    obtain ⟨he, hes⟩ := List.forall_mem_cons.1 hin
    cases e with
    | eeWrite a v => exact ih (s := { s with ee := s.ee.write a v }) (h.write he v) hes
    | eeRead a v => exact ih h hes
    | _ => exact he.elim

/-- A power loss at any access of a command leaves the EEPROM in order, and the reset the rest (R70, R239). -/
theorem losePowerIn_keeps_inv {s t : State} (h : s.Inv) {w : Word} {n : Nat} {fill : BufferFill}
    (ht : losePowerIn w n fill s = .next t) : t.Inv := by
  obtain ⟨hv, -, he, -, -, -⟩ := h
  obtain ⟨u, hu⟩ := issueCommand_next hv w
  have hdone : ∀ e ∈ (u.history.drop (s.history.length + 1)).take n, e.AccessIn s.cfg := fun e hmem =>
    issueCommand_accesses hv hu e (List.mem_of_mem_take hmem)
  simp only [losePowerIn, hu] at ht
  split at ht
  · cases ht
    refine inv_afterReset ?_ ?_ fill
    · exact hv
    · exact eeOk_applyWrites he hdone
  · cases ht

theorem flipEeBit_keeps_inv {s t : State} (h : s.Inv) {a : Nat} {bit : Fin 8}
    (ht : flipEeBit a bit s = .next t) : t.Inv := by
  obtain ⟨hv, hs, he, hr, hc, hk⟩ := h
  unfold flipEeBit at ht
  split at ht
  · next ha =>
    cases ht
    exact ⟨hv, hs, he.write ha _, hr, hc, hk⟩
  · cases ht

theorem hostRegWrite_keeps_inv {s t : State} (h : s.Inv) {n : Nat} {v : Word}
    (ht : hostRegWrite n v s = .next t) : t.Inv := by
  unfold hostRegWrite at ht
  split at ht
  · exact issueCommand_keeps_inv h ht
  · cases ht
    exact State.inv_record.2 (State.inv_regStore.2 h)

/-- Every move of the host and of the environment keeps the invariant. -/
theorem serve_keeps_inv {s t : State} (h : s.Inv) {x : Input} (ht : serve x s = .next t) : t.Inv := by
  cases x with
  | regRead n => cases ht; exact h
  | regWrite n v => exact hostRegWrite_keeps_inv h ht
  | bufRead sel off => cases ht; exact h
  | bufWrite sel off v => cases ht; exact h.hostBufWrite sel off v
  | seu a bit => exact flipEeBit_keeps_inv h ht
  | powerCycle fill =>
    obtain ⟨hv, -, he, -, -, -⟩ := h
    cases ht
    exact inv_afterReset (s := s.record [.powerLoss]) hv he fill
  | powerLossInCommand w n fill => exact losePowerIn_keeps_inv h ht

/-! ### The obligations -/

/-- Settles O51: the reset state is what a reset leaves of the parameters I12 and an EEPROM that lists nothing. -/
theorem resetMeetsInvariant : Obligations.ResetMeetsInvariant := by
  unfold Obligations.ResetMeetsInvariant
  have hv : State.reset.cfg.Valid := by decide
  have he : State.reset.EeOk := by decide
  exact inv_afterReset hv he ⟨[], [], [], [], []⟩

/-- Settles O52, by the move that the step serves; an idle step changes nothing. -/
theorem stepKeepsInvariant : Obligations.StepKeepsInvariant := by
  unfold Obligations.StepKeepsInvariant
  intro s t h ht
  cases hp : s.pending with
  | nil =>
    rw [step_nil h.1 hp] at ht
    cases ht
    exact h
  | cons x rest =>
    rw [step_cons h.1 hp] at ht
    exact serve_keeps_inv (s := { s with pending := rest }) h ht

end Sys2Proof.Machine
end

section
/-! SUPPORT. The register file as the host sees it (spec/10_state.md R27 to R39): the bits of the words made of flags,
the numbers that ignore a write, and what a reset and INIT leave to read (R44). -/

namespace Sys2Proof.Machine

/-! ### Bits of a word made of flags -/

theorem getLsbD_append_ofBool_zero {n : Nat} (x : BitVec n) (b : Bool) : (x ++ BitVec.ofBool b).getLsbD 0 = b := by
  simp only [BitVec.getLsbD_append]
  simp

theorem getLsbD_append_ofBool_succ {n : Nat} (x : BitVec n) (b : Bool) (j : Nat) :
    (x ++ BitVec.ofBool b).getLsbD (j + 1) = x.getLsbD j := by
  simp only [BitVec.getLsbD_append]
  simp

/-- A field is 0 where no bit from its start up is set. -/
theorem extractLsb'_eq_zero_of_getLsbD {w : Nat} {x : BitVec w} {start : Nat}
    (h : ∀ j, x.getLsbD (j + start) = false) (len : Nat) : x.extractLsb' start len = 0 := by
  apply BitVec.eq_of_getLsbD_eq
  intro j _
  rw [BitVec.getLsbD_extractLsb', Nat.add_comm, h]
  simp

/-! ### STATUS (R31) -/

theorem State.statusWord_err (s : State) : s.statusWord.extractLsb' 0 8 = s.err.code :=
  BitVec.extractLsb'_append_eq_right

theorem State.statusWord_seekValid (s : State) : s.statusWord.getLsbD 8 = s.seekValid := by
  simp only [State.statusWord, BitVec.getLsbD_append]
  simp

theorem State.statusWord_reserved (s : State) : s.statusWord.extractLsb' 9 23 = 0 :=
  (BitVec.extractLsb'_append_eq_of_le (by decide)).trans BitVec.extractLsb'_append_eq_left

/-! ### ER (R27) -/

theorem ErrorReport.word_position (r : ErrorReport) : r.word.extractLsb' 8 8 = r.positionByte :=
  (BitVec.extractLsb'_append_eq_of_le (by decide)).trans BitVec.extractLsb'_append_eq_right

theorem ErrorReport.word_low (r : ErrorReport) {start len : Nat} (h : start + len ≤ 8) :
    r.word.extractLsb' start len = (BitVec.ofNat 8 r.size).extractLsb' start len :=
  BitVec.extractLsb'_append_eq_of_add_le h

theorem ErrorReport.word_size (r : ErrorReport) : (r.word.extractLsb' 0 2).toNat = r.size := by
  rw [r.word_low (by decide)]
  cases r <;> rfl

theorem ErrorReport.word_reserved (r : ErrorReport) :
    r.word.extractLsb' 2 6 = 0 ∧ r.word.extractLsb' 16 16 = 0 := by
  constructor
  · rw [r.word_low (by decide)]
    cases r <;> simp [ErrorReport.size]
  · exact (BitVec.extractLsb'_append_eq_of_le (by decide)).trans BitVec.extractLsb'_append_eq_left

/-- A position of seven bits is not negative as a signed byte. -/
theorem toInt_setWidth_position (p : Syndrome) : (p.setWidth 8).toInt = p.toNat := by
  have hp := p.isLt
  rw [BitVec.toInt_setWidth, Int.bmod_eq_of_le]
  all_goals omega

/-! ### EVENTS (R36) -/

theorem State.eventsWord_corrupted (s : State) : s.eventsWord.getLsbD 0 = s.evCorrupted := by
  simp only [State.eventsWord, getLsbD_append_ofBool_zero]

theorem State.eventsWord_cmdError (s : State) : s.eventsWord.getLsbD 1 = s.evCmdError := by
  simp only [State.eventsWord, getLsbD_append_ofBool_succ, getLsbD_append_ofBool_zero]

theorem State.eventsWord_reserved (s : State) (j : Nat) : s.eventsWord.getLsbD (j + 2) = false := by
  simp only [State.eventsWord, getLsbD_append_ofBool_succ, BitVec.getLsbD_zero]

/-- A 1 written to a bit of EVENTS clears it (R36). -/
theorem State.eventsWord_regStore (s : State) (v : Word) : (s.regStore 11 v).eventsWord = s.eventsWord &&& ~~~v := by
  apply BitVec.eq_of_getLsbD_eq
  intro j hj
  rw [BitVec.getLsbD_and, BitVec.getLsbD_not, decide_eq_true hj, Bool.true_and]
  match j with
  | 0 => rw [State.eventsWord_corrupted, State.eventsWord_corrupted]; rfl
  | 1 => rw [State.eventsWord_cmdError, State.eventsWord_cmdError]; rfl
  | j + 2 => rw [State.eventsWord_reserved, State.eventsWord_reserved, Bool.false_and]

/-! ### CFG_FLAGS (R38) -/

theorem cfgFlagsWord_flags (c : Config) :
    ((cfgFlagsWord c).getLsbD 0 = true ↔ c.bitOrder = .msb0)
      ∧ ((cfgFlagsWord c).getLsbD 1 = true ↔ c.byteOrder = .be)
      ∧ ((cfgFlagsWord c).getLsbD 2 = true ↔ c.oorPolicy = .literal)
      ∧ ((cfgFlagsWord c).getLsbD 3 = true ↔ c.wrapPolicy = .wrap)
      ∧ ((cfgFlagsWord c).getLsbD 4 = true ↔ c.newer = .serial) := by
  simp only [cfgFlagsWord, getLsbD_append_ofBool_succ, getLsbD_append_ofBool_zero]
  simp

theorem cfgFlagsWord_reserved (c : Config) (j : Nat) : (cfgFlagsWord c).getLsbD (j + 5) = false := by
  simp only [cfgFlagsWord, getLsbD_append_ofBool_succ, BitVec.getLsbD_zero]

/-! ### Register numbers (R29, R39) -/

theorem State.regRead_reserved (s : State) {n : Nat} (hn : n = 0 ∨ (13 ≤ n ∧ n ≤ 15) ∨ 23 ≤ n) :
    s.regRead n = 0 := by
  unfold State.regRead
  split
  case h_20 => rfl
  all_goals omega

/-- The CFG registers read the parameters and nothing else (R38). -/
theorem State.regRead_cfg {s u : State} (hcfg : u.cfg = s.cfg) {n : Nat} (hlo : 16 ≤ n) (hhi : n ≤ 22) :
    u.regRead n = s.regRead n := by
  interval_cases n
  all_goals simp only [State.regRead, hcfg]

theorem State.regStore_ignored (s : State) {n : Nat} (v : Word) (hn : n ≠ 2 ∧ n ≠ 8 ∧ n ≠ 11) :
    s.regStore n v = s := by
  unfold State.regStore
  split
  case h_4 => rfl
  all_goals omega

/-! ### After a reset (R44) -/

theorem fit_of_length {α : Type} {n : Nat} (z : α) {l : List α} (h : l.length = n) : fit n z l = l := by
  simp [fit, ← h]

theorem eq_of_mem_fit_nil {α : Type} {n : Nat} {z x : α} (h : x ∈ fit n z []) : x = z := by
  simp only [fit, List.nil_append] at h
  exact List.eq_of_mem_replicate (List.mem_of_mem_take h)

/-- What the registers and the EEPROM hold after a reset, whatever the buffers do (R44). -/
theorem State.regRead_afterReset (s : State) (fill : BufferFill) :
    [1, 2, 3, 5, 6, 7, 8, 9, 10, 11, 12].map (s.afterReset fill).regRead = List.replicate 11 0
      ∧ (s.afterReset fill).regRead 4 = 0x0000FF00
      ∧ (∀ n, 16 ≤ n → n ≤ 22 → (s.afterReset fill).regRead n = s.regRead n) := by
  have hstatus : (s.afterReset fill).statusWord = 0 := by simp [State.statusWord, ErrCode.code]
  have hevents : (s.afterReset fill).eventsWord = 0 := by simp [State.eventsWord]
  refine ⟨by simp [State.regRead, hstatus, hevents], ?_, fun n => State.regRead_cfg (State.afterReset_cfg ..)⟩
  exact show ErrorReport.noError.word = 0x0000FF00 by decide

/-! ### The obligations -/

/-- Settles O4: taken from the queue, served as a CMD write, decoded, run. -/
theorem stepRunsDecodedCommand : Obligations.StepRunsDecodedCommand := by
  unfold Obligations.StepRunsDecodedCommand
  intro s w rest i hv hp hd
  refine ⟨?_, s.regRead_reserved (.inl rfl)⟩
  rw [step_cons hv hp]
  exact issueCommand_ok hd { s with pending := rest }

/-- Settles O6: the reserved numbers, the ignored writes, and the one register where a 1 clears. -/
theorem registerFileRules : Obligations.RegisterFileRules := by
  unfold Obligations.RegisterFileRules
  intro s n v
  have hserve (hn : n ≠ 0) : serve (.regWrite n v) s = .next ((s.regStore n v).record [.regWrite n v]) := if_neg hn
  exact ⟨s.regRead_reserved, s.regStore_ignored v, hserve, rfl, rfl, s.eventsWord_regStore v, rfl⟩

/-- Settles O7, word by word. -/
theorem registerLayouts : Obligations.RegisterLayouts := by
  unfold Obligations.RegisterLayouts
  intro s
  have herr : ∀ p ∈ [(ErrCode.ok, (0 : Byte)), (.illegalOpcode, 1), (.reservedField, 2), (.badSelect, 3),
      (.indexOob, 4), (.eeAddrOob, 5), (.ctrWrap, 6)], p.1.code = p.2 := by decide
  have hposition : (s.regRead 4).extractLsb' 8 8 = s.er.positionByte := s.er.word_position
  obtain ⟨hbit, hbyte, hoor, hwrap, hnewer⟩ := cfgFlagsWord_flags s.cfg
  obtain ⟨herLow, herHigh⟩ := s.er.word_reserved
  refine ⟨fun p hp h => ?_, s.statusWord_seekValid, s.statusWord_reserved, rfl, s.er.word_size, herLow, herHigh,
    fun p h => ?_, fun h => ?_, fun h => ?_, s.eventsWord_corrupted, s.eventsWord_cmdError,
    extractLsb'_eq_zero_of_getLsbD s.eventsWord_reserved 30, hbit, hbyte, hoor, hwrap, hnewer,
    extractLsb'_eq_zero_of_getLsbD (cfgFlagsWord_reserved s.cfg) 27, rfl⟩
  · exact s.statusWord_err.trans (h ▸ herr p hp)
  · rw [hposition, h]
    exact ⟨rfl, toInt_setWidth_position p⟩
  · rw [hposition, h]
    exact ⟨rfl, rfl⟩
  · rw [hposition, h]
    exact ⟨rfl, rfl⟩

/-- Settles O50: INIT is a reset that finds the buffers zero, so one account of a reset serves both. -/
theorem resetAndInitValues : Obligations.ResetAndInitValues := by
  unfold Obligations.ResetAndInitValues
  intro s fill hmsg hblk hlbuf hfb hphys
  have hsized : (s.afterReset ⟨[], [], [], [], []⟩).Sized := by simp [State.Sized]
  refine ⟨(s.record [.powerLoss]).afterReset fill, _, rfl, exec_init_eq s, ?_, fit_of_length 0 hmsg,
    fit_of_length 0 hblk, fit_of_length 0 hlbuf, fit_of_length 0 hfb, fit_of_length 0 hphys, hsized,
    fun _ => eq_of_mem_fit_nil, fun _ => eq_of_mem_fit_nil, fun _ => eq_of_mem_fit_nil, fun _ => eq_of_mem_fit_nil,
    fun _ => eq_of_mem_fit_nil⟩
  rintro u (rfl | rfl)
  · obtain ⟨hzero, her, hcfg⟩ := (s.record [.powerLoss]).regRead_afterReset fill
    exact ⟨hzero, her, hcfg, rfl⟩
  · obtain ⟨hzero, her, hcfg⟩ := s.regRead_afterReset ⟨[], [], [], [], []⟩
    exact ⟨hzero, her, hcfg, rfl⟩

end Sys2Proof.Machine
end

section
/-! SUPPORT. What each command can leave (spec/10_state.md R43): a refused command only its error, and a command that
completes only the state that is its own. Stated for every state, whatever its parameters. -/

namespace Sys2Proof.Machine

/-! ### Commands that can be refused -/

/-- The command ended in a command error (R221, R222). -/
def Refused (s t : State) : Prop := ∃ code info, code ≠ .ok ∧ t = s.raise code info

/-- A BitView operand is refused with an error code, or is the buffer its select code names (R111). -/
theorem State.bitOperand_error_or_sel (s : State) (sel : BitVec 4) :
    (∃ e : CmdError, e.code ≠ .ok ∧ s.bitOperand sel = .error e)
      ∨ ∃ b : Buffer, sel = b.sel ∧ s.bitOperand sel = .ok b := by
  rcases s.bitOperand_cases sel with ⟨-, hop⟩ | ⟨b, hsel, ⟨-, hop⟩ | ⟨-, hop⟩⟩
  · exact .inl ⟨_, by simp, hop⟩
  · exact .inr ⟨b, Buffer.sel_of_ofSel hsel, hop⟩
  · exact .inl ⟨_, by simp, hop⟩

/-- BGET is refused or writes RET (R112). -/
theorem exec_bget_refused_or {s t : State} {sel : BitVec 4} (ht : exec (.bget sel) s = .next t) :
    Refused s t ∨ ∃ r, t = { s with ret := r }.complete := by
  rcases s.bitOperand_error_or_sel sel with ⟨e, hcode, hop⟩ | ⟨b, -, hop⟩
  · obtain ⟨hget, -, -⟩ := exec_bitview_error hop
    rw [hget] at ht
    cases ht
    exact .inl ⟨_, _, hcode, rfl⟩
  · obtain ⟨hget, -, -⟩ := exec_bitview_ok hop
    rw [hget] at ht
    cases ht
    exact .inr ⟨_, rfl⟩

/-- BSET and BFLIP are refused or write one bit of the buffer they name (R113, R114). -/
theorem exec_bitwrite_refused_or {s t : State} {sel : BitVec 4} {i : Instr}
    (hi : (∃ v, i = .bset sel v) ∨ i = .bflip sel) (ht : exec i s = .next t) :
    Refused s t ∨ ∃ b v, sel = b.sel ∧ t = (s.setBufBit b s.arg0.toNat v).complete := by
  rcases s.bitOperand_error_or_sel sel with ⟨e, hcode, hop⟩ | ⟨b, hsel, hop⟩
  · obtain ⟨-, hset, hflip⟩ := exec_bitview_error hop
    have herr : exec i s = .next (s.raise e.code e.info) := by
      rcases hi with ⟨v, rfl⟩ | rfl
      exacts [hset v, hflip]
    rw [herr] at ht
    cases ht
    exact .inl ⟨_, _, hcode, rfl⟩
  · obtain ⟨-, hset, hflip⟩ := exec_bitview_ok hop
    rcases hi with ⟨v, rfl⟩ | rfl
    · rw [hset] at ht
      cases ht
      exact .inr ⟨b, _, hsel, rfl⟩
    · rw [hflip] at ht
      cases ht
      exact .inr ⟨b, _, hsel, rfl⟩

/-- EERD is refused or writes RET and the history (R184). -/
theorem exec_eerd_refused_or {s t : State} (ht : exec .eerd s = .next t) :
    Refused s t ∨ ∃ r es, t = ({ s with ret := r }.record es).complete := by
  rcases s.eeOperand_cases with ⟨-, hop⟩ | ⟨-, hop⟩
  · rw [(exec_ee_ok hop).1] at ht
    cases ht
    exact .inr ⟨_, _, rfl⟩
  · rw [(exec_ee_error hop).1] at ht
    cases ht
    exact .inl ⟨_, _, by simp, rfl⟩

/-- EEWR is refused or writes the EEPROM and the history (R185). -/
theorem exec_eewr_refused_or {s t : State} {d : Byte} (ht : exec (.eewr d) s = .next t) :
    Refused s t ∨ ∃ ee es, t = ({ s with ee := ee }.record es).complete := by
  rcases s.eeOperand_cases with ⟨-, hop⟩ | ⟨-, hop⟩
  · rw [(exec_ee_ok hop).2] at ht
    cases ht
    exact .inr ⟨_, _, rfl⟩
  · rw [(exec_ee_error hop).2] at ht
    cases ht
    exact .inl ⟨_, _, by simp, rfl⟩

/-! ### Ring commands -/

/-- RSAVE is refused, or writes WCTR, the three buffers of the record, the EEPROM, RET and the history (R164, R166). -/
theorem exec_rsave_refused_or {s t : State} (ht : exec .rsave s = .next t) :
    Refused s t ∨ ∃ wctr lbuf fb phys ee ret es,
      t = ({ s with wctr := wctr, lbuf := lbuf, fb := fb, phys := phys, ee := ee, ret := ret }.record es).complete := by
  simp only [exec, execRsave, saveRecord] at ht
  split at ht
  · cases ht
    exact .inl ⟨_, _, by decide, rfl⟩
  · split at ht
    · cases ht
      exact .inr ⟨_, _, _, _, _, _, _, rfl⟩
    · cases ht

/-- Reading a slot writes the state a seek writes (R167). -/
theorem seekFrame_readSlot {s t : State} (h : SeekFrame s t) (a : Nat) : SeekFrame s (t.readSlot a) := by
  unfold SeekFrame at h ⊢
  rw [h]
  rfl

/-- One round of a seek reads a slot, and may take it as the choice (R167 to R169). -/
theorem State.seekSlot_cases (t : State) (k : Nat) :
    t.seekSlot k = t.readSlot (k * t.cfg.slot)
      ∨ ∃ a ctr, t.seekSlot k
        = { t.readSlot (k * t.cfg.slot) with seekValid := true, seekAddr := a, seekCtr := ctr } := by
  simp only [State.seekSlot]
  split
  · exact .inr ⟨_, _, rfl⟩
  · exact .inl rfl

theorem seekFrame_seekSlot {s t : State} (h : SeekFrame s t) (k : Nat) : SeekFrame s (t.seekSlot k) := by
  have hread := seekFrame_readSlot h (k * t.cfg.slot)
  rcases t.seekSlot_cases k with hk | ⟨a, ctr, hk⟩
  · rw [hk]
    exact hread
  · rw [hk]
    unfold SeekFrame at hread ⊢
    rw [hread]

/-- A seek writes the state a seek writes, for any parameters (R171). -/
theorem seekFrame_seek (s : State) : SeekFrame s s.seek := by
  have hrounds : ∀ (ks : List Nat) (t : State), SeekFrame s t → SeekFrame s (ks.foldl State.seekSlot t) := by
    intro ks
    induction ks with
    | nil => exact fun t h => h
    | cons k ks ih => exact fun t h => ih _ (seekFrame_seekSlot h k)
  exact hrounds _ _ rfl

/-- RLOAD writes the state a seek writes and RET; with a valid slot LBUF and WCTR too (R172), without one EVENTS[0]
(R173). -/
theorem exec_rload_cases {s t : State} (ht : exec .rload s = .next t) :
    ∃ u, SeekFrame s u
      ∧ ((∃ lbuf wctr, t = { u with lbuf := lbuf, wctr := wctr, ret := 1 }.complete)
        ∨ t = { u with evCorrupted := true, ret := 0 }.complete) := by
  simp only [exec, execRload] at ht
  split at ht
  · cases ht
    refine ⟨_, seekFrame_readSlot (seekFrame_seek s) s.seek.seekAddr.toNat, ?_⟩
    simp only [State.loadSlot]
    split
    · exact .inl ⟨_, _, rfl⟩
    · exact .inr rfl
  · cases ht

/-! ### The obligation -/

/-- Settles O49. A refused command leaves all but its error; for a command that completes, by what it writes. -/
theorem commandsTouchOnlyTheirState : Obligations.CommandsTouchOnlyTheirState := by
  unfold Obligations.CommandsTouchOnlyTheirState
  intro i s t ht
  by_cases hrefused : Refused s t
  · obtain ⟨code, info, hcode, rfl⟩ := hrefused
    simp [hcode]
  cases i with
  | nop | init | henc | hscan | hcorr | hdec | fenc | fget | ffill | fscrub | fdec =>
    cases ht
    simp
  | bget sel =>
    obtain ⟨r, rfl⟩ := (exec_bget_refused_or ht).resolve_left hrefused
    simp
  | bset sel v =>
    obtain ⟨b, v', rfl, rfl⟩ := (exec_bitwrite_refused_or (.inl ⟨v, rfl⟩) ht).resolve_left hrefused
    cases b <;> cases v <;> simp [State.setBufBit, Buffer.sel]
  | bflip sel =>
    obtain ⟨b, v, rfl, rfl⟩ := (exec_bitwrite_refused_or (.inr rfl) ht).resolve_left hrefused
    cases b <;> simp [State.setBufBit, Buffer.sel]
  | rsave =>
    obtain ⟨wctr, lbuf, fb, phys, ee, ret, es, rfl⟩ := (exec_rsave_refused_or ht).resolve_left hrefused
    simp
  | rseek =>
    cases ht
    have hframe := seekFrame_seek s
    unfold SeekFrame at hframe
    rw [hframe]
    simp
  | rload =>
    obtain ⟨u, hframe, ⟨lbuf, wctr, rfl⟩ | rfl⟩ := exec_rload_cases ht
    all_goals
      unfold SeekFrame at hframe
      rw [hframe]
      simp
  | eerd =>
    obtain ⟨r, es, rfl⟩ := (exec_eerd_refused_or ht).resolve_left hrefused
    simp
  | eewr d =>
    obtain ⟨ee, es, rfl⟩ := (exec_eewr_refused_or ht).resolve_left hrefused
    simp

end Sys2Proof.Machine
end

section
/-! SUPPORT. The moves the environment does not have (spec/60_exceptions.md R238, R239): which they are, and that every
other move completes. -/

namespace Sys2Proof.Machine

/-! ### Counting the EEPROM accesses of a command -/

/-- The EEPROM accesses that stand in the history (R80). -/
def State.accesses (s : State) : Nat := countReads s.history + countWrites s.history

/-- Among EEPROM accesses every event counts. -/
theorem countReads_add_countWrites {c : Config} {es : List Event} (h : ∀ e ∈ es, e.AccessIn c) :
    countReads es + countWrites es = es.length := by
  induction es with
  | nil => rfl
  | cons e es ih =>
    obtain ⟨he, hes⟩ := List.forall_mem_cons.1 h
    have hcount := ih hes
    simp only [countReads, countWrites, List.countP_cons, List.length_cons] at hcount ⊢
    cases e with
    | eeRead a v => simp only [if_true, Bool.false_eq_true, if_false]; omega
    | eeWrite a v => simp only [if_true, Bool.false_eq_true, if_false]; omega
    | _ => exact he.elim

/-- A command's issue stands in the history with its EEPROM accesses after it (R80). -/
theorem issueCommand_appendsAccesses {s t : State} (hv : s.cfg.Valid) {w : Word} (ht : issueCommand w s = .next t) :
    AppendsAccesses (s.record [.command w]) t := by
  cases hd : decode w with
  | ok i =>
    rw [issueCommand_ok hd] at ht
    exact exec_appendsAccesses (s := s.record [.command w]) hv ht
  | error e =>
    rw [issueCommand_error hd] at ht
    cases ht
    exact .of_eq rfl

/-- The events behind a command's issue are as many as the accesses it added. -/
theorem accesses_issueCommand {s t : State} (hv : s.cfg.Valid) {w : Word} (ht : issueCommand w s = .next t) :
    t.accesses = s.accesses + (t.history.drop (s.history.length + 1)).length := by
  obtain ⟨es, hes, hin⟩ := issueCommand_appendsAccesses hv ht
  have hcount := countReads_add_countWrites hin
  have hdrop : t.history.drop (s.history.length + 1) = es := by rw [hes]; exact List.drop_left' (by simp)
  rw [hdrop, ← hcount]
  simp only [State.accesses, hes, State.record_history, countReads, countWrites, List.countP_append,
    List.countP_singleton, Bool.false_eq_true, if_false]
  omega

/-! ### Moves the environment does not have -/

/-- The move is one the environment does not have: an upset outside the device (R238), or a power loss inside a command
after more EEPROM accesses than the command makes (R239). -/
def Input.Missing (s : State) : Input → Prop
  | .seu a _ => s.cfg.eepromSize ≤ a
  | .powerLossInCommand w n _ => ∃ t, issueCommand w s = .next t ∧ t.accesses < s.accesses + n
  | _ => False

/-- A power loss inside a command completes up to the number of accesses the command makes (R239, R262). -/
theorem losePowerIn_of_issueCommand {s t : State} (hv : s.cfg.Valid) {w : Word} (ht : issueCommand w s = .next t)
    (n : Nat) (fill : BufferFill) :
    (s.accesses + n ≤ t.accesses → ∃ u, losePowerIn w n fill s = .next u)
      ∧ (t.accesses < s.accesses + n → losePowerIn w n fill s = .refused .noSuchMove) := by
  have hcount := accesses_issueCommand hv ht
  simp only [losePowerIn, ht]
  constructor
  · intro hn
    rw [if_pos (by omega)]
    exact ⟨_, rfl⟩
  · intro hn
    rw [if_neg (by omega)]

/-- A move is refused exactly where the environment does not have it. -/
theorem serve_next_or_missing {s : State} (hv : s.cfg.Valid) (x : Input) :
    (¬ x.Missing s → ∃ t, serve x s = .next t) ∧ (x.Missing s → serve x s = .refused .noSuchMove) := by
  cases x with
  | regRead | bufRead | bufWrite | powerCycle => exact ⟨fun _ => ⟨_, rfl⟩, False.elim⟩
  | regWrite n v =>
    refine ⟨fun _ => ?_, False.elim⟩
    rcases serve_next hv (.regWrite n v) with h | ⟨-, ⟨_, _, h⟩ | ⟨_, _, _, h⟩⟩
    · exact h
    · cases h
    · cases h
  | seu a bit => exact ⟨fun h => ⟨_, if_pos (Nat.not_le.1 h)⟩, fun h => if_neg (Nat.not_lt.2 h)⟩
  | powerLossInCommand w n fill =>
    obtain ⟨t, ht⟩ := issueCommand_next hv w
    obtain ⟨hnext, hrefused⟩ := losePowerIn_of_issueCommand hv ht n fill
    refine ⟨fun h => hnext (Nat.not_lt.1 fun hlt => h ⟨t, ht, hlt⟩), ?_⟩
    rintro ⟨u, hu, hlt⟩
    cases ht.symm.trans hu
    exact hrefused hlt

/-- Settles O53, by the move that the step serves; an idle step completes. -/
theorem stepCompletesOrMoveIsMissing : Obligations.StepCompletesOrMoveIsMissing := by
  unfold Obligations.StepCompletesOrMoveIsMissing
  intro s hinv accesses missing
  obtain ⟨hv, -⟩ := hinv
  cases hp : s.pending with
  | nil =>
    refine ⟨fun _ => ⟨s, step_nil hv hp⟩, ?_⟩
    rintro ⟨rest, ⟨a, bit, h, -⟩ | ⟨w, n, fill, t, h, -⟩⟩
    · cases hp.symm.trans h
    · cases hp.symm.trans h
  | cons x rest =>
    have hmissing : missing ↔ x.Missing { s with pending := rest } := by
      constructor
      · rintro ⟨rest', ⟨a, bit, h, ha⟩ | ⟨w, n, fill, t, h, ht, hn⟩⟩
        · cases hp.symm.trans h
          exact ha
        · cases hp.symm.trans h
          exact ⟨t, ht, hn⟩
      · intro h
        cases x with
        | seu a bit => exact ⟨rest, .inl ⟨a, bit, hp, h⟩⟩
        | powerLossInCommand w n fill =>
          obtain ⟨t, ht, hn⟩ := h
          exact ⟨rest, .inr ⟨w, n, fill, t, hp, ht, hn⟩⟩
        | _ => exact h.elim
    rw [hmissing, step_cons hv hp]
    exact serve_next_or_missing (s := { s with pending := rest }) hv x

end Sys2Proof.Machine
end

section
/-! SUPPORT. The host's buffer windows (spec/20_memory.md R62, R63, R65, R68): what an access answers in range and out
of range, and that the byte view of a buffer holds the bits of its bit view. -/

namespace Sys2Proof.Machine

/-! ### Select codes -/

/-- A buffer has one select code (R62). -/
theorem Buffer.eq_sel_of_ofSel {n : Nat} {b : Buffer} (h : Buffer.ofSel n = some b) : n = b.sel.toNat := by
  have hn := Buffer.ofSel_lt h
  interval_cases n
  all_goals
    cases h
    rfl

theorem Buffer.ofSel_reserved {n : Nat} (h : 5 ≤ n) : Buffer.ofSel n = none := by
  cases hb : Buffer.ofSel n with
  | none => rfl
  | some b => exact absurd (Buffer.ofSel_lt hb) (by omega)

/-! ### Accesses in range and out of range -/

theorem State.hostBufRead_of_ofSel (s : State) {sel : Nat} {b : Buffer} (h : Buffer.ofSel sel = some b) (off : Nat) :
    s.hostBufRead sel off = if off < bufferSize s.cfg b then s.bufByte b off else 0 := by
  rw [State.hostBufRead, h]

theorem State.hostBufRead_of_ofSel_none (s : State) {sel : Nat} (h : Buffer.ofSel sel = none) (off : Nat) :
    s.hostBufRead sel off = 0 := by
  rw [State.hostBufRead, h]

theorem State.hostBufWrite_of_ofSel (s : State) {sel : Nat} {b : Buffer} (h : Buffer.ofSel sel = some b) (off : Nat)
    (v : Byte) : s.hostBufWrite sel off v = if off < bufferSize s.cfg b then s.setBufByte b off v else s := by
  rw [State.hostBufWrite, h]

theorem State.hostBufWrite_of_ofSel_none (s : State) {sel : Nat} (h : Buffer.ofSel sel = none) (off : Nat) (v : Byte) :
    s.hostBufWrite sel off v = s := by
  rw [State.hostBufWrite, h]

/-- Any host read after a host write in range (R62, R63). -/
theorem State.hostBufRead_hostBufWrite {s : State} (hs : s.Sized) {sel off : Nat} {b : Buffer}
    (hb : Buffer.ofSel sel = some b) (hoff : off < bufferSize s.cfg b) (v : Byte) (sel' off' : Nat) :
    (s.hostBufWrite sel off v).hostBufRead sel' off'
      = if sel' = sel ∧ off' = off then v else s.hostBufRead sel' off' := by
  rw [s.hostBufWrite_of_ofSel hb, if_pos hoff]
  cases hb' : Buffer.ofSel sel' with
  | none =>
    have hne : sel' ≠ sel := by rintro rfl; simp [hb] at hb'
    rw [State.hostBufRead_of_ofSel_none _ hb', s.hostBufRead_of_ofSel_none hb', if_neg fun h => hne h.1]
  | some b' =>
    have hsel : sel' = sel ↔ b' = b := by
      constructor
      · rintro rfl
        exact Option.some.inj (hb'.symm.trans hb)
      · rintro rfl
        rw [Buffer.eq_sel_of_ofSel hb', Buffer.eq_sel_of_ofSel hb]
    rw [State.hostBufRead_of_ofSel _ hb', s.hostBufRead_of_ofSel hb', State.setBufByte_cfg,
      State.bufByte_setBufByte hs hoff]
    simp only [hsel]
    by_cases hsame : b' = b ∧ off' = off
    · obtain ⟨rfl, rfl⟩ := hsame
      simp [hoff]
    · simp only [if_neg hsame]

/-- Settles O8: in range by the read after a write; out of range there is no byte to read or to write. -/
theorem bufferReadAfterWrite : Obligations.BufferReadAfterWrite := by
  unfold Obligations.BufferReadAfterWrite
  intro s sel off v hs
  refine ⟨fun b hb hoff => ⟨?_, fun sel' off' hne => ?_, State.sized_hostBufWrite hs sel off v⟩, ?_⟩
  · rw [State.hostBufRead_hostBufWrite hs hb hoff, if_pos ⟨rfl, rfl⟩]
  · rw [State.hostBufRead_hostBufWrite hs hb hoff, if_neg fun h => hne (Prod.ext h.1 h.2)]
  · rintro (hsel | ⟨b, hb, hoff⟩)
    · have hnone := Buffer.ofSel_reserved hsel
      exact ⟨s.hostBufRead_of_ofSel_none hnone off, s.hostBufWrite_of_ofSel_none hnone off v⟩
    · rw [s.hostBufRead_of_ofSel hb, s.hostBufWrite_of_ofSel hb, if_neg (Nat.not_lt.2 hoff), if_neg (Nat.not_lt.2 hoff)]
      exact ⟨rfl, rfl⟩

/-! ### Bytes and bits -/

/-- Bit `i` of a buffer is the bit of byte `i div 8` at the place of `i mod 8` (R65, R68). -/
theorem State.bufBit_eq_getLsbD_bufByte (s : State) (b : Buffer) (i : Nat) :
    s.bufBit b i = (s.bufByte b (i / 8)).getLsbD (bitPlace s.cfg.bitOrder (i % 8)) := by
  cases b with
  | msg | blk | lbuf | phys => rfl
  | fbw =>
    have hbit : 8 * (i / 8 % 9) + i % 8 = i % 72 := by omega
    have hblock : i / 8 / 9 = i / 72 := by omega
    rw [State.bufByte, getLsbD_blockByte _ _ _ (by omega), hbit, hblock]
    rfl

/-- Settles O9. -/
theorem bitAndByteViewsAgree : Obligations.BitAndByteViewsAgree := by
  unfold Obligations.BitAndByteViewsAgree
  exact State.bufBit_eq_getLsbD_bufByte

end Sys2Proof.Machine
end

section
/-! SUPPORT. The counter of a file bit by bit (spec/43_ring_manager.md R162) and the four bytes of a counter
(spec/20_memory.md R66). -/

namespace Sys2Proof.Machine

/-- The byte, of the four of a counter from the lowest offset up, that holds bit `n` (R66). -/
def counterByteIndex (o : ByteOrder) (n : Nat) : Nat :=
  match o with
  | .le => n / 8
  | .be => 3 - n / 8

theorem counterByteIndex_lt (o : ByteOrder) {n : Nat} (hn : n < 32) : counterByteIndex o n < 4 := by
  cases o
  all_goals
    simp only [counterByteIndex]
    omega

/-- Bit `n` of four joined bytes. -/
theorem getLsbD_append_four (b3 b2 b1 b0 : Byte) {n : Nat} (hn : n < 32) :
    (b3 ++ b2 ++ b1 ++ b0).getLsbD n = ([b0, b1, b2, b3].getD (n / 8) 0).getLsbD (n % 8) := by
  simp only [BitVec.getLsbD_append]
  interval_cases n
  all_goals rfl

/-- Bit `n` of a counter is bit `n mod 8` of its byte (R66). -/
theorem getLsbD_counterOfBytes (o : ByteOrder) (B : List Byte) {n : Nat} (hn : n < 32) :
    (counterOfBytes o B).getLsbD n = (B.getD (counterByteIndex o n) 0).getLsbD (n % 8) := by
  have hk : n / 8 < 4 := by omega
  cases o with
  | le =>
    rw [counterOfBytes, getLsbD_append_four _ _ _ _ hn, counterByteIndex]
    interval_cases n / 8
    all_goals rfl
  | be =>
    rw [counterOfBytes, getLsbD_append_four _ _ _ _ hn, counterByteIndex]
    interval_cases n / 8
    all_goals rfl

/-- Bit `p` of byte `i` of a message is the message bit that R65 places there. -/
theorem getLsbD_getD_bytesOfMessage (o : BitOrder) (m : Message) {i p : Nat} (hi : i < 8) (hp : p < 8) :
    ((bytesOfMessage o m).getD i 0).getLsbD p = m.getLsbD (8 * i + bitPlace o p) := by
  have hplace := bitPlace_lt o hp
  have hbit := bitAt_packBytes o (n := 8) m.getLsbD (i := 8 * i + bitPlace o p) (by omega)
  rwa [bitAt, show (8 * i + bitPlace o p) / 8 = i by omega, show (8 * i + bitPlace o p) % 8 = bitPlace o p by omega,
    bitPlace_bitPlace o hp] at hbit

/-- Bit `n` of the counter of a file is a data bit of block 0 (R162). -/
theorem getLsbD_counterOfFile (c : Config) (F : List Block) {n : Nat} (hn : n < 32) :
    (counterOfFile c F).getLsbD n
      = (F.getD 0 0).getLsbD
          (dataPositions.getD (8 * counterByteIndex c.byteOrder n + bitPlace c.bitOrder (n % 8)) 0) := by
  have hbyte := counterByteIndex_lt c.byteOrder hn
  have hmod : n % 8 < 8 := by omega
  have hplace := bitPlace_lt c.bitOrder hmod
  rw [counterOfFile, getLsbD_counterOfBytes _ _ hn, getLsbD_getD_bytesOfMessage _ _ (by omega) hmod,
    getLsbD_hammingDecode _ (by omega)]

/-- A word is its four bytes weighted by the powers of 2^8. -/
theorem toNat_eq_weighted_bytes (w : Word) :
    w.toNat = (w.extractLsb' 0 8).toNat + 2 ^ 8 * (w.extractLsb' 8 8).toNat + 2 ^ 16 * (w.extractLsb' 16 8).toNat
      + 2 ^ 24 * (w.extractLsb' 24 8).toNat := by
  have hw := w.isLt
  simp only [BitVec.extractLsb'_toNat, Nat.shiftRight_eq_div_pow]
  omega

/-- Settles O37: the bits through byte, message and block; the weights from the word's bytes. -/
theorem counterBitsOfBlockZero : Obligations.CounterBitsOfBlockZero := by
  unfold Obligations.CounterBitsOfBlockZero
  refine ⟨fun c F n hn => getLsbD_counterOfFile c F hn, fun w => ?_⟩
  exact ⟨⟨_, _, _, _, rfl, toNat_eq_weighted_bytes w⟩, ⟨_, _, _, _, rfl, toNat_eq_weighted_bytes w⟩⟩

end Sys2Proof.Machine
end

section
/-! SUPPORT. Power loss inside a command (spec/20_memory.md R70, R75; spec/60_exceptions.md R239;
spec/70_reset_and_hazards.md R262): the writes among a command's first accesses. The first accesses of a
differential write carry out the differential write of the image's first bytes; EEWR makes one access, its write;
every other command only reads. -/

namespace Sys2Proof.Machine

/-! ### The first accesses of a differential write (R165) -/

/-- A byte the EEPROM already holds is read only. -/
theorem diffWrite_cons_same {ee : Memory} {a : Nat} {v : Byte} (h : ee.read a = v) (P : List Byte) :
    diffWrite ee a (v :: P)
      = ⟨(diffWrite ee (a + 1) P).ee, (diffWrite ee (a + 1) P).count,
          .eeRead a (ee.read a) :: (diffWrite ee (a + 1) P).events⟩ :=
  if_pos h

/-- A byte that differs is read and written. -/
theorem diffWrite_cons_differs {ee : Memory} {a : Nat} {v : Byte} (h : ee.read a ≠ v) (P : List Byte) :
    diffWrite ee a (v :: P)
      = ⟨(diffWrite (ee.write a v) (a + 1) P).ee, (diffWrite (ee.write a v) (a + 1) P).count + 1,
          .eeRead a (ee.read a) :: .eeWrite a v :: (diffWrite (ee.write a v) (a + 1) P).events⟩ :=
  if_neg h

/-- After its first `n` accesses a differential write has stored the first bytes of the image. -/
theorem applyWrites_take_diffWrite (ee : Memory) (a : Nat) (P : List Byte) (n : Nat) :
    ∃ cut, cut ≤ P.length ∧ applyWrites ee ((diffWrite ee a P).events.take n) = (diffWrite ee a (P.take cut)).ee := by
  induction P generalizing ee a n with
  | nil => exact ⟨0, Nat.le_refl 0, by simp [diffWrite, applyWrites]⟩
  | cons v P ih =>
    by_cases hv : ee.read a = v
    · rw [diffWrite_cons_same hv]
      cases n with
      | zero => exact ⟨0, Nat.zero_le _, rfl⟩
      | succ n =>
        obtain ⟨cut, hle, hcut⟩ := ih ee (a + 1) n
        refine ⟨cut + 1, Nat.succ_le_succ hle, ?_⟩
        simp only [List.take_succ_cons, diffWrite_cons_same hv]
        exact hcut
    · rw [diffWrite_cons_differs hv]
      match n with
      | 0 => exact ⟨0, Nat.zero_le _, rfl⟩
      | 1 => exact ⟨0, Nat.zero_le _, rfl⟩
      | n + 2 =>
        obtain ⟨cut, hle, hcut⟩ := ih (ee.write a v) (a + 1) n
        refine ⟨cut + 1, Nat.succ_le_succ hle, ?_⟩
        simp only [List.take_succ_cons, diffWrite_cons_differs hv]
        exact hcut

/-- The image's first `cut` bytes are stored after some number of the accesses. -/
theorem exists_applyWrites_take_diffWrite (ee : Memory) (a : Nat) (P : List Byte) (cut : Nat) :
    ∃ n, n ≤ (diffWrite ee a P).events.length
      ∧ applyWrites ee ((diffWrite ee a P).events.take n) = (diffWrite ee a (P.take cut)).ee := by
  induction P generalizing ee a cut with
  | nil => exact ⟨0, Nat.zero_le _, by rw [List.take_nil]; rfl⟩
  | cons v P ih =>
    cases cut with
    | zero => exact ⟨0, Nat.zero_le _, rfl⟩
    | succ cut =>
      rw [List.take_succ_cons]
      by_cases hv : ee.read a = v
      · rw [diffWrite_cons_same hv, diffWrite_cons_same hv]
        obtain ⟨n, hle, hn⟩ := ih ee (a + 1) cut
        exact ⟨n + 1, Nat.succ_le_succ hle, hn⟩
      · rw [diffWrite_cons_differs hv, diffWrite_cons_differs hv]
        obtain ⟨n, hle, hn⟩ := ih (ee.write a v) (a + 1) cut
        exact ⟨n + 2, Nat.succ_le_succ (Nat.succ_le_succ hle), hn⟩

/-- What storing the image's first bytes leaves to read: the image's bytes below the cut, every other byte as before. -/
theorem read_diffWrite_take {ee : Memory} (h : ee.wf = true) (a : Nat) {P : List Byte} {cut : Nat}
    (hcut : cut ≤ P.length) :
    (∀ i, i < cut → (diffWrite ee a (P.take cut)).ee.read (a + i) = P.getD i 0)
      ∧ ∀ x, x < a ∨ a + cut ≤ x → (diffWrite ee a (P.take cut)).ee.read x = ee.read x := by
  obtain ⟨-, hread, -⟩ := diffWrite_spec h a (P.take cut)
  rw [List.length_take_of_le hcut] at hread
  refine ⟨fun i hi => ?_, fun x hx => ?_⟩
  · rw [hread, if_pos (by omega), Nat.add_sub_cancel_left]
    simp [List.getD_eq_getElem?_getD, hi]
  · rw [hread, if_neg (by omega)]

/-- A count over a range takes every value on its way up. -/
theorem exists_countP_range_eq (p : Nat → Bool) {n j : Nat} (h : j ≤ (List.range n).countP p) :
    ∃ cut, cut ≤ n ∧ (List.range cut).countP p = j := by
  induction n with
  | zero => exact ⟨0, Nat.le_refl 0, (Nat.le_zero.1 h).symm⟩
  | succ n ih =>
    by_cases hn : j ≤ (List.range n).countP p
    · obtain ⟨cut, hle, hcut⟩ := ih hn
      exact ⟨cut, Nat.le_succ_of_le hle, hcut⟩
    · refine ⟨n + 1, Nat.le_refl _, ?_⟩
      have hstep : (List.range (n + 1)).countP p ≤ (List.range n).countP p + 1 := by
        rw [List.range_succ, List.countP_append]
        exact Nat.add_le_add_left List.countP_le_length _
      omega

/-! ### The accesses of the commands that do not write a slot -/

/-- `t`'s history is `s`'s with EEPROM reads after it. -/
def AppendsReads (s t : State) : Prop :=
  ∃ es, t.history = s.history ++ es ∧ ∀ e ∈ es, ∃ a v, e = .eeRead a v

theorem AppendsReads.of_eq {s t : State} (h : t.history = s.history) : AppendsReads s t := ⟨[], by simp [h], by simp⟩

/-- Reads write nothing. -/
theorem applyWrites_reads (ee : Memory) {es : List Event} (h : ∀ e ∈ es, ∃ a v, e = .eeRead a v) :
    applyWrites ee es = ee := by
  induction es with
  | nil => rfl
  | cons e es ih =>
    obtain ⟨⟨a, v, rfl⟩, hes⟩ := List.forall_mem_cons.1 h
    exact ih hes

theorem forall_mem_readEvents (m : Memory) (a n : Nat) : ∀ e ∈ m.readEvents a n, ∃ b v, e = Event.eeRead b v := by
  intro e he
  obtain ⟨i, -, rfl⟩ := List.mem_map.1 he
  exact ⟨_, _, rfl⟩

theorem appendsReads_seek {s : State} (hv : s.cfg.Valid) : AppendsReads s s.seek := by
  obtain ⟨-, -, -, hhist⟩ := State.seek_spec hv
  exact ⟨_, hhist, forall_mem_readEvents _ _ _⟩

theorem appendsReads_rload {s : State} (hv : s.cfg.Valid) (a : Nat) : AppendsReads s (s.seek.loadSlot a) := by
  obtain ⟨hframe, -, -, -⟩ := State.seek_spec hv
  have hcfg : s.seek.cfg = s.cfg := by rw [hframe]
  obtain ⟨es, hes, hreads⟩ := appendsReads_seek hv
  refine ⟨es ++ s.seek.ee.readEvents a s.seek.cfg.slot, ?_, ?_⟩
  · rw [loadSlot_history (hcfg ▸ hv), hes, List.append_assoc]
  · exact List.forall_mem_append.2 ⟨hreads, forall_mem_readEvents _ _ _⟩

theorem execBitView_appendsReads {s t : State} {sel : BitVec 4} {i : Instr}
    (hi : i = .bget sel ∨ (∃ v, i = .bset sel v) ∨ i = .bflip sel) (ht : exec i s = .next t) : AppendsReads s t := by
  rcases exec_bitview_cases hi ht with ⟨e, rfl⟩ | ⟨r, rfl⟩ | ⟨b, v, rfl⟩
  · exact .of_eq rfl
  · exact .of_eq rfl
  · exact .of_eq (by simp)

/-- A command other than an RSAVE that is carried out only reads the EEPROM, or is an EEWR and makes one write
(R185). -/
theorem exec_appendsReads_or_eewr {s t : State} (hv : s.cfg.Valid) {i : Instr} (hi : i ≠ .rsave ∨ ¬ s.CanSave)
    (ht : exec i s = .next t) :
    AppendsReads s t
      ∨ ∃ d, i = .eewr d ∧ s.arg0.toNat < s.cfg.eepromSize ∧ t.history = s.history ++ [.eeWrite s.arg0.toNat d] := by
  cases i with
  | bget sel => exact .inl (execBitView_appendsReads (.inl rfl) ht)
  | bset sel v => exact .inl (execBitView_appendsReads (.inr (.inl ⟨v, rfl⟩)) ht)
  | bflip sel => exact .inl (execBitView_appendsReads (.inr (.inr rfl)) ht)
  | rsave =>
    rw [exec_rsave_overflow (hi.resolve_left fun h => h rfl)] at ht
    cases ht
    exact .inl (.of_eq rfl)
  | rseek =>
    cases ht
    exact .inl (appendsReads_seek hv)
  | rload =>
    rw [exec_rload_next hv] at ht
    cases ht
    exact .inl (appendsReads_rload hv _)
  | eerd =>
    rcases exec_eerd_cases ht with ⟨e, rfl⟩ | ⟨a, v, -, rfl⟩
    · exact .inl (.of_eq rfl)
    · exact .inl ⟨[.eeRead a v], rfl, List.forall_mem_singleton.2 ⟨a, v, rfl⟩⟩
  | eewr d =>
    rcases s.eeOperand_cases with ⟨ha, hop⟩ | ⟨-, hop⟩
    · rw [(exec_ee_ok hop).2] at ht
      cases ht
      exact .inr ⟨d, rfl, ha, rfl⟩
    · rw [(exec_ee_error hop).2] at ht
      cases ht
      exact .inl (.of_eq rfl)
  | nop | init | henc | hscan | hcorr | hdec | fenc | fget | ffill | fscrub | fdec =>
    cases ht
    exact .inl (.of_eq rfl)

/-! ### The command words of RSAVE and EEWR (R95) -/

/-- One word alone decodes to RSAVE, for its row has no operand bit. -/
theorem decode_eq_rsave_iff {w : Word} : decode w = .ok .rsave ↔ w = 0x00000040 := by
  constructor
  · intro h
    have hrow : ∀ r ∈ opcodeTable, r.build w = .rsave → r.mask = BitVec.allOnes 32 ∧ r.pattern = 0x00000040 := by
      simp [opcodeTable, opcodeRowsLow, opcodeRowsHigh]
    unfold decode at h
    split at h
    · next r hr =>
      obtain ⟨hmask, hpattern⟩ := hrow r (List.mem_of_find?_eq_some hr) (Except.ok.inj h)
      have hselects : r.selects w = true := List.find?_some (p := (OpcodeRow.selects · w)) hr
      rw [OpcodeRow.selects, hmask, hpattern, BitVec.and_allOnes] at hselects
      exact beq_iff_eq.1 hselects
    · split at h
      · cases h
      · cases h
  · rintro rfl
    decide

theorem decode_encode_eewr (d : Byte) : decode (encode (.eewr d)) = .ok (.eewr d) := by
  have h : ∀ d : Byte, decode (encode (.eewr d)) = .ok (.eewr d) := by decide +kernel
  exact h d

/-- A command word other than a carried-out RSAVE only reads the EEPROM, or is an EEWR and makes one write. -/
theorem issueCommand_appendsReads_or_eewr {s t : State} (hv : s.cfg.Valid) {w : Word}
    (hw : w ≠ 0x00000040 ∨ ¬ s.CanSave) (ht : issueCommand w s = .next t) :
    AppendsReads (s.record [.command w]) t
      ∨ ∃ d, decode w = .ok (.eewr d) ∧ s.arg0.toNat < s.cfg.eepromSize
        ∧ t.history = s.history ++ [.command w] ++ [.eeWrite s.arg0.toNat d] := by
  cases hd : decode w with
  | error e =>
    rw [issueCommand_error hd] at ht
    cases ht
    exact .inl (.of_eq rfl)
  | ok i =>
    rw [issueCommand_ok hd] at ht
    have hi : i ≠ .rsave ∨ ¬ s.CanSave := hw.imp_left fun hne hi => hne (decode_eq_rsave_iff.1 (hi ▸ hd))
    rcases exec_appendsReads_or_eewr (s := s.record [.command w]) hv hi ht with h | ⟨d, rfl, ha, hhist⟩
    · exact .inl h
    · exact .inr ⟨d, rfl, ha, hhist⟩

/-! ### Cutting a command -/

/-- The state after a power loss that follows the accesses `done` of command `w`. -/
def State.cutAfter (s : State) (w : Word) (done : List Event) (fill : BufferFill) : State :=
  ({ s with ee := applyWrites s.ee done }.record (Event.command w :: done ++ [Event.powerLoss])).afterReset fill

@[simp] theorem State.cutAfter_ee (s : State) (w : Word) (done : List Event) (fill : BufferFill) :
    (s.cutAfter w done fill).ee = applyWrites s.ee done := rfl

/-- A power loss keeps the EEPROM, the parameters, the queue and the history; all else is the reset's (R239). -/
theorem State.cutAfter_lost (s : State) (w : Word) (done : List Event) (fill : BufferFill) :
    s.cutAfter w done fill
      = { s with ee := (s.cutAfter w done fill).ee, history := (s.cutAfter w done fill).history }.afterReset fill := rfl

/-- A command that makes the accesses `es` is cut after its first `n`, if it makes as many. -/
theorem serve_powerLossInCommand {s t : State} {w : Word} {es : List Event} (ht : issueCommand w s = .next t)
    (hes : t.history = s.history ++ [.command w] ++ es) (n : Nat) (fill : BufferFill) :
    serve (.powerLossInCommand w n fill) s
      = if n ≤ es.length then .next (s.cutAfter w (es.take n) fill) else .refused .noSuchMove := by
  have hdrop : t.history.drop (s.history.length + 1) = es := by
    rw [hes]
    exact List.drop_left' (by simp)
  simp only [serve, losePowerIn, ht, hdrop]
  rfl

/-- A cut that is served: the command, the accesses it makes, and the state after the first `n` of them. -/
theorem serve_powerLossInCommand_next {s u : State} (hv : s.cfg.Valid) {w : Word} {n : Nat} {fill : BufferFill}
    (hu : serve (.powerLossInCommand w n fill) s = .next u) :
    ∃ t es, issueCommand w s = .next t ∧ t.history = s.history ++ [.command w] ++ es ∧ n ≤ es.length
      ∧ u = s.cutAfter w (es.take n) fill := by
  obtain ⟨t, ht⟩ := issueCommand_next hv w
  obtain ⟨es, hes, -⟩ := issueCommand_appendsAccesses hv ht
  rw [serve_powerLossInCommand ht hes] at hu
  split at hu
  · next hn =>
    cases hu
    exact ⟨t, es, ht, hes, hn, rfl⟩
  · cases hu

/-- The cuts of an RSAVE that is carried out are those of its differential write (R262). -/
theorem serve_powerLossInCommand_rsave {s : State} (hv : s.cfg.Valid) (hsave : s.CanSave) (n : Nat)
    (fill : BufferFill) :
    serve (.powerLossInCommand 0x00000040 n fill) s
      = if n ≤ (saveDiff s).events.length then .next (s.cutAfter 0x00000040 ((saveDiff s).events.take n) fill)
        else .refused .noSuchMove := by
  have hissue := issueCommand_ok (decode_eq_rsave_iff.2 rfl) s
  rw [exec_rsave_next (s := s.record [.command 0x00000040]) hv hsave] at hissue
  exact serve_powerLossInCommand hissue rfl n fill

/-- The EEPROM after a cut of any other command word: as before, but for the byte an EEWR wrote. -/
theorem ee_of_cut {s u : State} (hv : s.cfg.Valid) (hwf : s.ee.wf = true) {w : Word} {n : Nat} {fill : BufferFill}
    (hw : w ≠ 0x00000040 ∨ ¬ s.CanSave) (hu : serve (.powerLossInCommand w n fill) s = .next u) :
    u.ee = s.ee
      ∨ ∃ d, decode w = .ok (.eewr d) ∧ n = 1 ∧ s.arg0.toNat < s.cfg.eepromSize
        ∧ u.ee.read s.arg0.toNat = d ∧ ∀ x, x ≠ s.arg0.toNat → u.ee.read x = s.ee.read x := by
  obtain ⟨t, es, ht, hes, hn, rfl⟩ := serve_powerLossInCommand_next hv hu
  rcases issueCommand_appendsReads_or_eewr hv hw ht with ⟨es', hes', hreads⟩ | ⟨d, hd, ha, hes'⟩
  · cases List.append_cancel_left (hes.symm.trans hes')
    exact .inl (applyWrites_reads s.ee fun e he => hreads e (List.mem_of_mem_take he))
  · cases List.append_cancel_left (hes.symm.trans hes')
    have hread := Memory.read_write hwf s.arg0.toNat d
    match n, hn with
    | 0, _ => exact .inl rfl
    | 1, _ => exact .inr ⟨d, hd, rfl, ha, (hread _).trans (if_pos rfl), fun x hx => (hread x).trans (if_neg hx)⟩

/-- Settles O45. In RSAVE a cut leaves the differential write of the image's first bytes, and any number of them is
left by some cut. -/
theorem powerLossCutsCommand : Obligations.PowerLossCutsCommand := by
  unfold Obligations.PowerLossCutsCommand
  intro s fill hinv a differs lost torn
  obtain ⟨hv, -, ⟨hwf, -⟩, -⟩ := hinv
  have htorn : ∀ done cut, cut ≤ s.cfg.slot → applyWrites s.ee done = (diffWrite s.ee a ((savedImage s).take cut)).ee →
      torn (s.cutAfter 0x00000040 done fill) cut := by
    intro done cut hcut hdone
    have hread := read_diffWrite_take hwf a (hcut.trans_eq (length_savedImage s).symm)
    rw [← hdone] at hread
    exact ⟨hcut, hread⟩
  refine ⟨fun hsave => ⟨fun j hj => ?_, fun n u hu => ?_⟩, fun w n u hu => ⟨?_, fun hw => ee_of_cut hv hwf hw hu⟩,
    fun w => ?_, fun d ha => ?_⟩
  · obtain ⟨cut, hcut, hcount⟩ := exists_countP_range_eq differs hj
    obtain ⟨n, hn, hdone⟩ := exists_applyWrites_take_diffWrite s.ee a (savedImage s) cut
    exact ⟨n, _, cut, (serve_powerLossInCommand_rsave hv hsave n fill).trans (if_pos hn), htorn _ _ hcut hdone, hcount⟩
  · rw [serve_powerLossInCommand_rsave hv hsave] at hu
    split at hu
    · cases hu
      obtain ⟨cut, hcut, hdone⟩ := applyWrites_take_diffWrite s.ee a (savedImage s) n
      exact ⟨cut, htorn _ _ (hcut.trans_eq (length_savedImage s)) hdone⟩
    · cases hu
  · obtain ⟨t, es, -, -, -, rfl⟩ := serve_powerLossInCommand_next hv hu
    exact s.cutAfter_lost ..
  · obtain ⟨t, ht⟩ := issueCommand_next hv w
    obtain ⟨es, hes, -⟩ := issueCommand_appendsAccesses hv ht
    exact ⟨_, (serve_powerLossInCommand ht hes 0 fill).trans (if_pos (Nat.zero_le _)), rfl⟩
  · have hop : (s.record [.command (encode (.eewr d))]).eeOperand = .ok s.arg0.toNat := if_pos ha
    have hissue := issueCommand_ok (decode_encode_eewr d) s
    rw [(exec_ee_ok hop).2] at hissue
    exact ⟨_, (serve_powerLossInCommand hissue rfl 1 fill).trans (if_pos (Nat.le_refl 1)),
      (Memory.read_write hwf s.arg0.toNat d s.arg0.toNat).trans (if_pos rfl)⟩

end Sys2Proof.Machine
end

section
/-! SUPPORT. Format C and the opcode map (spec/30_encoding.md R91 to R97). A word that selects a row agrees with the
row's pattern under its mask, and the bits outside the mask are the operand fields; so the row's command encodes to the
word. -/

namespace Sys2Proof.Machine

/-! ### The fields of format C in their places (R91, R92) -/

/-- The fields side by side; the bits between `sel` and `imm16` are 0. -/
theorem formatC_eq_or (op : BitVec 8) (sel : BitVec 4) (imm : BitVec 16) :
    formatC op sel imm = op.setWidth 32 ||| (imm.setWidth 32 <<< 16 ||| sel.setWidth 32 <<< 8) := by
  have h : (imm ++ 0#4 ++ sel ++ op).setWidth 32 = _ :=
    BitVec.setWidth_append_append_append_eq_shiftLeft_setWidth_or
  simpa [formatC, BitVec.or_comm] using h

/-- A field put back in its place is the word under the field's mask. -/
theorem extractLsb'_shiftLeft (w : Word) (start len : Nat) :
    (w.extractLsb' start len).setWidth 32 <<< start = w &&& (BitVec.allOnes len).setWidth 32 <<< start := by
  ext i hi
  by_cases h : i < start
  · simp [h]
  · have hsub : start + (i - start) = i := by omega
    simp [h, hsub, Bool.and_comm, BitVec.getLsbD_eq_getElem, hi]

/-- `sel` in its place (R91). -/
theorem fieldSel_shiftLeft (w : Word) : (fieldSel w).setWidth 32 <<< 8 = w &&& 0x00000F00 := by
  simp [fieldSel, extractLsb'_shiftLeft]

/-- The bit `v` of BSET in its place (R92). -/
theorem fieldV_shiftLeft (w : Word) :
    ((0#15 : BitVec 15) ++ BitVec.ofBool (fieldV w) : BitVec 16).setWidth 32 <<< 16 = w &&& 0x00010000 := by
  have hv : BitVec.ofBool (fieldV w) = w.extractLsb' 16 1 := by
    ext i hi
    simp [fieldV, Nat.lt_one_iff.1 hi]
  rw [BitVec.setWidth_append_eq_shiftLeft_setWidth_or, hv]
  simp [extractLsb'_shiftLeft]

/-- The byte of EEWR in its place (R92). -/
theorem fieldData_shiftLeft (w : Word) :
    ((0#8 : BitVec 8) ++ fieldData w : BitVec 16).setWidth 32 <<< 16 = w &&& 0x00FF0000 := by
  rw [BitVec.setWidth_append_eq_shiftLeft_setWidth_or]
  simp [fieldData, extractLsb'_shiftLeft]

/-- Two words have one opcode where they agree under the mask 0xFF. -/
theorem fieldOpcode_eq_iff {v w : Word} : fieldOpcode v = fieldOpcode w ↔ w &&& 0xFF = v &&& 0xFF := by
  have hmask : ∀ x : Word, x &&& 0xFF = (fieldOpcode x).setWidth 32 := fun x => by
    simpa [fieldOpcode] using (extractLsb'_shiftLeft x 0 8).symm
  rw [hmask, hmask]
  exact ⟨fun h => by rw [h], fun h => by simpa using congrArg (BitVec.setWidth 8) h.symm⟩

/-! ### The rows of the opcode map (R95) -/

theorem OpcodeRow.selects_iff {r : OpcodeRow} {w : Word} : r.selects w = true ↔ w &&& r.mask = r.pattern := beq_iff_eq

/-- A row's command, built from any word, encodes to the row's pattern with the word's bits outside the mask. -/
theorem encode_build {r : OpcodeRow} (hr : r ∈ opcodeTable) (w : Word) :
    encode (r.build w) = r.pattern ||| (w &&& ~~~r.mask) := by
  revert r
  simp [opcodeTable, opcodeRowsLow, opcodeRowsHigh, encode, formatC_eq_or, fieldSel_shiftLeft, fieldV_shiftLeft,
    fieldData_shiftLeft, ← BitVec.and_or_distrib_left]

/-- The command of the row a word selects encodes to the word. -/
theorem encode_build_of_selects {r : OpcodeRow} (hr : r ∈ opcodeTable) {w : Word} (hw : r.selects w = true) :
    encode (r.build w) = w := by
  rw [encode_build hr, ← OpcodeRow.selects_iff.1 hw, ← BitVec.and_or_distrib_left, BitVec.or_not_self,
    BitVec.and_allOnes]

/-- Every row's mask covers the opcode, so a selected word has the row's opcode. -/
theorem OpcodeRow.selects_opcode {r : OpcodeRow} (hr : r ∈ opcodeTable) {w : Word} (hw : r.selects w = true) :
    w &&& 0xFF = r.pattern &&& 0xFF := by
  have hmask : ∀ r ∈ opcodeTable, r.mask &&& 0xFF = 0xFF := by simp [opcodeTable, opcodeRowsLow, opcodeRowsHigh]
  rw [← OpcodeRow.selects_iff.1 hw, BitVec.and_assoc, hmask r hr]

theorem legalOpcode_iff {w : Word} :
    legalOpcode (fieldOpcode w) = true ↔ ∃ r ∈ opcodeTable, w &&& 0xFF = r.pattern &&& 0xFF := by
  simp [legalOpcode, fieldOpcode_eq_iff]

/-! ### Decoding (R96, R97) -/

/-- A word decodes to the command of a row it selects. -/
theorem decode_of_selects {w : Word} (h : ∃ r ∈ opcodeTable, r.selects w = true) :
    ∃ r ∈ opcodeTable, r.selects w = true ∧ decode w = .ok (r.build w) := by
  obtain ⟨r, hr⟩ := Option.isSome_iff_exists.1 (List.find?_isSome.2 h)
  exact ⟨r, List.mem_of_find?_eq_some hr, List.find?_some (p := (OpcodeRow.selects · w)) hr, by rw [decode, hr]⟩

/-- A word that selects no row is refused by its opcode. -/
theorem decode_of_not_selects {w : Word} (h : ¬ ∃ r ∈ opcodeTable, r.selects w = true) :
    decode w = if legalOpcode (fieldOpcode w) then .error .reservedField else .error .illegalOpcode := by
  have hnone : opcodeTable.find? (·.selects w) = none := List.find?_eq_none.2 fun r hr hw => h ⟨r, hr, hw⟩
  rw [decode, hnone]

/-- A word is the encoding of what it decodes to. -/
theorem encode_of_decode {w : Word} {i : Instr} (h : decode w = .ok i) : encode i = w := by
  by_cases hsel : ∃ r ∈ opcodeTable, r.selects w = true
  · obtain ⟨r, hr, hw, hd⟩ := decode_of_selects hsel
    cases hd.symm.trans h
    exact encode_build_of_selects hr hw
  · rw [decode_of_not_selects hsel] at h
    split at h
    · cases h
    · cases h

/-- The operand fields are finite: `sel` at its 16 values, `v` at both, `data` at its 256 (R92, R94). -/
theorem decode_encode (i : Instr) : decode (encode i) = .ok i := by
  cases i with
  | bget sel => revert sel; decide
  | bset sel v => revert sel v; decide
  | bflip sel => revert sel; decide
  | eewr data => exact decode_encode_eewr data
  | nop | init | henc | hscan | hcorr | hdec | fenc | fget | ffill | fscrub | fdec | rsave | rseek | rload | eerd => rfl

/-- Settles O1, from the two directions: a decoded word is the encoding of its command, and an encoding decodes. -/
theorem decodeEncodeAgree : Obligations.DecodeEncodeAgree := by
  unfold Obligations.DecodeEncodeAgree
  intro w i
  constructor
  · intro h
    exact (encode_of_decode h).symm
  · rintro rfl
    exact decode_encode i

/-- Settles O2, by running the decoder on the sixteen words. -/
theorem writtenWordsDecode : Obligations.WrittenWordsDecode := by
  unfold Obligations.WrittenWordsDecode
  decide

/-! ### Words that are no command (R96, R97) -/

/-- A write to CMD of a refused word leaves its error and the word, and nothing else but the record of the write. -/
theorem serve_regWrite_of_decode_error {w : Word} {e : DecodeError} (h : decode w = .error e) (s : State) :
    serve (.regWrite 0 w) s =
      .next { s with err := decodeErrCode e, errInfo := w, evCmdError := true, history := s.history ++ [.command w] } :=
  issueCommand_error h s

/-- The printed columns are those of the model's rows (R95). -/
theorem exists_matchAndMask {p : Word → Word → Prop} :
    (∃ r ∈ matchAndMask, p r.1 r.2) ↔ ∃ r ∈ opcodeTable, p r.pattern r.mask := by
  have hmap : matchAndMask = opcodeTable.map fun r => (r.pattern, r.mask) := rfl
  simp [hmap]

/-- Settles O3. The two premises are the decoder's own tests, read off the printed columns: whether a row is selected,
and whether the opcode is legal. -/
theorem rejectedWordsRaise : Obligations.RejectedWordsRaise := by
  unfold Obligations.RejectedWordsRaise
  intro s w legal matched
  have hlegal : legal ↔ legalOpcode (fieldOpcode w) = true :=
    (exists_matchAndMask (p := fun m _ => w &&& 0xFF = m &&& 0xFF)).trans legalOpcode_iff.symm
  have hmatched : matched ↔ ∃ r ∈ opcodeTable, r.selects w = true :=
    (exists_matchAndMask (p := fun m k => w &&& k = m)).trans (by simp only [OpcodeRow.selects_iff])
  have hopcode : matched → legal := fun h => by
    obtain ⟨r, hr, hw⟩ := hmatched.1 h
    exact hlegal.2 (legalOpcode_iff.2 ⟨r, hr, OpcodeRow.selects_opcode hr hw⟩)
  refine ⟨fun hl => ?_, fun hl hm => ?_, fun hm => ⟨hopcode hm, ?_⟩⟩
  · have hd := (decode_of_not_selects (mt hmatched.2 (mt hopcode hl))).trans (if_neg (mt hlegal.2 hl))
    exact serve_regWrite_of_decode_error hd s
  · have hd := (decode_of_not_selects (mt hmatched.2 hm)).trans (if_pos (hlegal.1 hl))
    exact serve_regWrite_of_decode_error hd s
  · obtain ⟨r, -, -, hd⟩ := decode_of_selects (hmatched.1 hm)
    exact ⟨r.build w, hd⟩

end Sys2Proof.Machine
end

section
/-! SUPPORT. The BitView commands (spec/40_bitview.md): the two refusals of R111, what BGET answers, and what BSET and
BFLIP leave, which are one written bit (R112 to R115). -/

namespace Sys2Proof.Machine

/-! ### The operand in range and refused (R111) -/

theorem State.bitOperand_of_ofSel (s : State) {sel : BitVec 4} {b : Buffer} (hb : Buffer.ofSel sel.toNat = some b) :
    s.bitOperand sel = if s.arg0.toNat < 8 * bufferSize s.cfg b then .ok b else .error ⟨.indexOob, s.arg0⟩ := by
  rw [State.bitOperand, hb]

theorem State.bitOperand_of_reserved (s : State) {sel : BitVec 4} (h : 4 < sel.toNat) :
    s.bitOperand sel = .error ⟨.badSelect, BitVec.ofNat 32 sel.toNat⟩ := by
  rw [State.bitOperand, Buffer.ofSel_reserved h, BitVec.ofNat_toNat]

/-- Each of the three commands raises the error its operand's check found. -/
theorem exec_bitview_of_error {s : State} {sel : BitVec 4} {i : Instr} {e : CmdError}
    (hi : i = .bget sel ∨ (∃ v, i = .bset sel v) ∨ i = .bflip sel) (he : s.bitOperand sel = .error e) :
    exec i s = .next (s.raise e.code e.info) := by
  obtain ⟨hget, hset, hflip⟩ := exec_bitview_error he
  rcases hi with rfl | ⟨v, rfl⟩ | rfl
  exacts [hget, hset v, hflip]

/-- Settles O18: the operand's check is the same for the three commands, and its error is what they raise. -/
theorem bitViewRefusals : Obligations.BitViewRefusals := by
  unfold Obligations.BitViewRefusals
  intro s sel i hi
  refine ⟨fun hsel => exec_bitview_of_error hi (s.bitOperand_of_reserved hsel), fun b hb hoob => ?_⟩
  have hop := (s.bitOperand_of_ofSel hb).trans (if_neg (Nat.not_lt.2 hoob))
  exact exec_bitview_of_error hi hop

/-! ### BGET in range (R112) -/

/-- A bit widened to a word, as BGET writes it to RET. -/
theorem setWidth_ofBool (x : Bool) : (BitVec.ofBool x).setWidth 32 = if x then 1 else 0 := by
  cases x <;> rfl

theorem exec_bget_of_lt {s : State} {sel : BitVec 4} {b : Buffer} (hb : Buffer.ofSel sel.toNat = some b)
    (hlt : s.arg0.toNat < 8 * bufferSize s.cfg b) :
    exec (.bget sel) s = .next { s with ret := if s.bufBit b s.arg0.toNat then 1 else 0, err := .ok } := by
  obtain ⟨hget, -, -⟩ := exec_bitview_ok ((s.bitOperand_of_ofSel hb).trans (if_pos hlt))
  rw [hget, setWidth_ofBool]
  rfl

/-- Settles O14. -/
theorem bgetReadsBit : Obligations.BgetReadsBit := by
  unfold Obligations.BgetReadsBit
  intro s sel b hb hlt
  exact exec_bget_of_lt hb hlt

/-! ### One written bit (R113, R114) -/

/-- What a completed write of one bit leaves: that bit, every other bit, the sizes, and all that is no buffer. -/
theorem State.setBufBit_complete_spec {s : State} (hs : s.Sized) {b : Buffer} {i : Nat}
    (hi : i < 8 * bufferSize s.cfg b) (v : Bool) :
    let t := (s.setBufBit b i v).complete
    t.bufBit b i = v ∧ (∀ b' j, (b', j) ≠ (b, i) → t.bufBit b' j = s.bufBit b' j) ∧ t.Sized
      ∧ t = { s with msg := t.msg, blk := t.blk, lbuf := t.lbuf, fb := t.fb, phys := t.phys, err := .ok } := by
  intro t
  have hread (b' : Buffer) (j : Nat) : t.bufBit b' j = if b' = b ∧ j = i then v else s.bufBit b' j :=
    State.bufBit_setBufBit hs hi v b' j
  refine ⟨?_, fun b' j hne => ?_, State.sized_setBufBit hs b i v, congrArg State.complete (s.setBufBit_frame b i v)⟩
  · rw [hread, if_pos ⟨rfl, rfl⟩]
  · rw [hread, if_neg fun h => hne (Prod.ext h.1 h.2)]

/-- Settles O15: BSET is the write of `v` at ARG0. -/
theorem bsetWritesBit : Obligations.BsetWritesBit := by
  unfold Obligations.BsetWritesBit
  intro s sel v b hs hb hlt
  obtain ⟨-, hset, -⟩ := exec_bitview_ok ((s.bitOperand_of_ofSel hb).trans (if_pos hlt))
  exact ⟨_, hset v, State.setBufBit_complete_spec hs hlt v⟩

/-- Settles O16: BFLIP is the write of the complement at ARG0. -/
theorem bflipInvertsBit : Obligations.BflipInvertsBit := by
  unfold Obligations.BflipInvertsBit
  intro s sel b hs hb hlt
  obtain ⟨-, -, hflip⟩ := exec_bitview_ok ((s.bitOperand_of_ofSel hb).trans (if_pos hlt))
  exact ⟨_, hflip, State.setBufBit_complete_spec hs hlt _⟩

/-! ### BGET after a written bit (R115) -/

theorem exec_bget_ret_of_bufBit {s : State} {sel : BitVec 4} {b : Buffer} {x : Bool}
    (hb : Buffer.ofSel sel.toNat = some b) (hlt : s.arg0.toNat < 8 * bufferSize s.cfg b)
    (hx : s.bufBit b s.arg0.toNat = x) :
    ∃ u, exec (.bget sel) s = .next u ∧ u.ret = if x then 1 else 0 := by
  subst hx
  exact ⟨_, exec_bget_of_lt hb hlt, rfl⟩

/-- After the bit at ARG0 was written, BGET answers it at ARG0 and the bit before at every other index. -/
theorem exec_bget_after_bitWrite {s : State} (hs : s.Sized) {sel : BitVec 4} {b : Buffer}
    (hb : Buffer.ofSel sel.toNat = some b) (hlt : s.arg0.toNat < 8 * bufferSize s.cfg b) (v : Bool) :
    let t := (s.setBufBit b s.arg0.toNat v).complete
    (∃ u, exec (.bget sel) t = .next u ∧ u.ret = if v then 1 else 0)
      ∧ ∀ j : Word, j ≠ s.arg0 → j.toNat < 8 * bufferSize s.cfg b →
        ∃ u, exec (.bget sel) { t with arg0 := j } = .next u ∧ u.ret = if s.bufBit b j.toNat then 1 else 0 := by
  intro t
  have hcfg : t.cfg = s.cfg := s.setBufBit_cfg b _ v
  have harg : t.arg0 = s.arg0 := s.setBufBit_arg0 b _ v
  obtain ⟨hsame, hother, -, -⟩ := State.setBufBit_complete_spec hs hlt v
  refine ⟨exec_bget_ret_of_bufBit hb ?_ ?_, fun j hne hj => exec_bget_ret_of_bufBit hb ?_ (hother b j.toNat ?_)⟩
  · rwa [hcfg, harg]
  · rwa [harg]
  · rwa [hcfg]
  · exact fun h => hne (BitVec.eq_of_toNat_eq (Prod.ext_iff.1 h).2)

/-- The complement of a bit as R114 writes it, `1 - bit`. -/
theorem bitWord_not (x : Bool) : (if !x then 1 else 0 : Word) = 1 - if x then 1 else 0 := by
  revert x
  decide

/-- Settles O17: BSET writes `v`, BFLIP the complement of what BGET reads, and BGET reads either write back. -/
theorem bitViewReadsBack : Obligations.BitViewReadsBack := by
  unfold Obligations.BitViewReadsBack
  intro s sel v b hs hb hlt
  obtain ⟨-, hset, hflip⟩ := exec_bitview_ok ((s.bitOperand_of_ofSel hb).trans (if_pos hlt))
  obtain ⟨g, hg, hgr⟩ := exec_bget_ret_of_bufBit hb hlt rfl
  obtain ⟨⟨u, hu, hur⟩, huj⟩ := exec_bget_after_bitWrite hs hb hlt v
  obtain ⟨⟨e, he, her⟩, hej⟩ := exec_bget_after_bitWrite hs hb hlt (!s.bufBit b s.arg0.toNat)
  refine ⟨g, _, u, _, e, hg, hset v, hu, hflip, he, hur, ?_, fun j hne hj => ?_⟩
  · rw [her, hgr, bitWord_not]
  · obtain ⟨g', hg', hgr'⟩ := exec_bget_ret_of_bufBit (s := { s with arg0 := j }) hb hj rfl
    obtain ⟨u', hu', hur'⟩ := huj j hne hj
    obtain ⟨e', he', her'⟩ := hej j hne hj
    exact ⟨g', u', e', hg', hu', he', hur'.trans hgr'.symm, her'.trans hgr'.symm⟩

end Sys2Proof.Machine
end

section
/-! SUPPORT. The Hamming code as a code (spec/41_hamming_block.md R121, R123, R124, R134): a block that scans clean is
determined by its data positions, hence is the encoding of its message, and one or two inverted bits of it scan as what
they are. -/

namespace Sys2Proof.Machine

/-! ### The sums and the groups (R124) -/

theorem oddCount_eq_decide (ps : List Nat) (f : Nat → Bool) : oddCount ps f = decide (ps.countP f % 2 = 1) :=
  beq_eq_decide ..

/-- Bit `t` of the XOR of the set positions is the parity of the set positions that have bit `t`. -/
theorem getLsbD_indexParity (ps : List Nat) (f : Nat → Bool) {t : Nat} (ht : t < 7) :
    (indexParity ps f).getLsbD t = oddCount (ps.filter fun p => p.testBit t) f := by
  induction ps with
  | nil => simp
  | cons p ps ih =>
    rw [indexParity_cons, BitVec.getLsbD_xor, ih, List.filter_cons]
    have hbit : (BitVec.ofNat 7 p).getLsbD t = p.testBit t := by
      rw [BitVec.getLsbD_ofNat, decide_eq_true ht, Bool.true_and]
    by_cases hp : p.testBit t
    · rw [if_pos hp, oddCount_cons]
      cases f p <;> simp [hbit, hp]
    · rw [if_neg hp]
      cases f p <;> simp [hbit, hp]

/-- The syndrome is 0 exactly where each of the seven groups has even parity. -/
theorem indexParity_eq_zero_iff (ps : List Nat) (f : Nat → Bool) :
    indexParity ps f = 0 ↔ ∀ t, t < 7 → oddCount (ps.filter fun p => p.testBit t) f = false := by
  constructor
  · intro h t ht
    rw [← getLsbD_indexParity ps f ht, h]
    simp
  · intro h
    apply BitVec.eq_of_getLsbD_eq
    intro t ht
    rw [getLsbD_indexParity ps f ht, h t ht]
    simp

/-- In a block of syndrome 0 the group positions hold the XOR of the set data positions. -/
theorem getLsbD_group_of_syndrome_zero {c : Block} (h : indexParity codePositions c.getLsbD = 0) {t : Nat} (ht : t < 7) :
    c.getLsbD (2 ^ t) = (indexParity dataPositions c.getLsbD).getLsbD t := by
  rw [indexParity_perm codePositions_perm, indexParity_append] at h
  rw [← BitVec.xor_eq_zero_iff.1 h, getLsbD_indexParity_groupPositions _ ht]

/-! ### Encodings are the clean blocks (R124) -/

/-- On positions 1 to 71 an encoding has the bits that the encoder places. -/
theorem getLsbD_hammingEncode_of_mem (m : Message) {p : Nat} (hp : p ∈ codePositions) :
    (hammingEncode m).getLsbD p = encodedBit m (messageParity m) p := by
  obtain ⟨hpos, hlt⟩ := mem_codePositions.1 hp
  rw [getLsbD_hammingEncode m hlt, if_neg (by omega)]

theorem indexParity_hammingEncode (m : Message) : indexParity codePositions (hammingEncode m).getLsbD = 0 :=
  (indexParity_congr fun _ hp => getLsbD_hammingEncode_of_mem m hp).trans (indexParity_encodedBit m)

theorem hammingEncode_overall (m : Message) :
    (hammingEncode m).getLsbD 0 = oddCount codePositions (hammingEncode m).getLsbD := by
  rw [getLsbD_hammingEncode m (by decide), if_pos rfl]
  exact (oddCount_congr fun _ hp => getLsbD_hammingEncode_of_mem m hp).symm

@[simp] theorem hammingScan_hammingEncode (policy : OorPolicy) (m : Message) :
    hammingScan policy (hammingEncode m) = .noError :=
  hammingScan_eq_noError.2 ⟨indexParity_hammingEncode m, hammingEncode_overall m⟩

@[simp] theorem hammingDecode_hammingEncode (m : Message) : hammingDecode (hammingEncode m) = m := by
  apply BitVec.eq_of_getLsbD_eq
  intro j hj
  rw [getLsbD_hammingDecode _ hj, hammingEncode_data m hj]

/-- The data positions determine a clean block: the other positions hold parities of theirs. -/
theorem eq_of_clean_of_data {policy : OorPolicy} {c d : Block} (hc : hammingScan policy c = .noError)
    (hd : hammingScan policy d = .noError)
    (hdata : ∀ j, j < 64 → c.getLsbD (dataPositions.getD j 0) = d.getLsbD (dataPositions.getD j 0)) : c = d := by
  obtain ⟨hcs, hcp⟩ := hammingScan_eq_noError.1 hc
  obtain ⟨hds, hdp⟩ := hammingScan_eq_noError.1 hd
  have hsum : indexParity dataPositions c.getLsbD = indexParity dataPositions d.getLsbD := by
    apply indexParity_congr
    intro p hp
    obtain ⟨j, hj, rfl⟩ := mem_dataPositions.1 hp
    exact hdata j hj
  have hcode : ∀ p ∈ codePositions, c.getLsbD p = d.getLsbD p := by
    intro p hp
    obtain ⟨hpos, hlt⟩ := mem_codePositions.1 hp
    obtain ⟨t, ht, rfl⟩ | ⟨j, hj, rfl⟩ := role_cases hpos hlt
    · rw [getLsbD_group_of_syndrome_zero hcs ht, hsum, getLsbD_group_of_syndrome_zero hds ht]
    · exact hdata j hj
  apply BitVec.eq_of_getLsbD_eq
  intro p hp
  rcases Nat.eq_zero_or_pos p with rfl | hpos
  · rw [hcp, hdp, oddCount_congr hcode]
  · exact hcode p (mem_codePositions.2 ⟨hpos, hp⟩)

theorem hammingEncode_hammingDecode {policy : OorPolicy} {c : Block} (h : hammingScan policy c = .noError) :
    hammingEncode (hammingDecode c) = c :=
  eq_of_clean_of_data (hammingScan_hammingEncode policy _) h fun j hj => by
    rw [hammingEncode_data _ hj, getLsbD_hammingDecode c hj]

theorem hammingScan_eq_noError_iff_encoding {policy : OorPolicy} {c : Block} :
    hammingScan policy c = .noError ↔ ∃! m, c = hammingEncode m := by
  constructor
  · intro h
    refine ⟨hammingDecode c, (hammingEncode_hammingDecode h).symm, fun m hm => ?_⟩
    rw [hm, hammingDecode_hammingEncode]
  · rintro ⟨m, rfl, -⟩
    exact hammingScan_hammingEncode policy m

/-- Settles O20. The all-zero and the all-one block scan clean, so they are the encodings of their own messages. -/
theorem validBlocksAreCodewords : Obligations.ValidBlocksAreCodewords := by
  unfold Obligations.ValidBlocksAreCodewords
  refine ⟨fun policy c => ⟨hammingScan_eq_noError, indexParity_eq_zero_iff _ _, hammingScan_eq_noError_iff_encoding⟩,
    ?_, ?_⟩
  · have hclean : hammingScan .literal 0 = .noError := by decide
    refine eq_of_clean_of_data (hammingScan_hammingEncode .literal 0) hclean fun j hj => ?_
    rw [hammingEncode_data _ hj]
    exact BitVec.getLsbD_zero.trans BitVec.getLsbD_zero.symm
  · have hclean : hammingScan .literal (BitVec.allOnes 72) = .noError := by decide
    refine eq_of_clean_of_data (hammingScan_hammingEncode .literal _) hclean fun j hj => ?_
    rw [hammingEncode_data _ hj, BitVec.getLsbD_allOnes, BitVec.getLsbD_allOnes]
    simp only [hj, dataPositions_getD_lt hj]

/-- Settles O21. -/
theorem encoderPlacesBits : Obligations.EncoderPlacesBits := by
  unfold Obligations.EncoderPlacesBits
  refine ⟨by decide, rfl, fun m => ⟨fun j hj => hammingEncode_data m hj, fun t ht => ?_, ?_⟩⟩
  · exact getLsbD_group_of_syndrome_zero (indexParity_hammingEncode m) ht
  · rw [hammingEncode_overall, oddCount_eq_decide, codePositions]

/-! ### One and two inverted bits (R125, R134) -/

/-- Inverting any position, 0 or another, turns agreeing parities into differing ones and back. -/
theorem parities_agree_flip_iff (c : Block) {q : Nat} (hq : q < 72) :
    (flipBlockBit c q).getLsbD 0 = oddCount codePositions (flipBlockBit c q).getLsbD
      ↔ c.getLsbD 0 ≠ oddCount codePositions c.getLsbD := by
  rw [getLsbD_flipBlockBit c hq (by decide), oddCount_flip c hq]
  rcases Nat.eq_zero_or_pos q with rfl | hpos
  · simp [Bool.eq_not]
  · simp [hpos.ne, hpos.ne', Bool.eq_not]

/-- One inverted bit of a clean block: the parities differ and the syndrome is its position. -/
theorem hammingScan_flip {policy : OorPolicy} {c : Block} (h : hammingScan policy c = .noError) {q : Nat} (hq : q < 72) :
    hammingScan policy (flipBlockBit c q) = .single (BitVec.ofNat 7 q) := by
  obtain ⟨hs, hp⟩ := hammingScan_eq_noError.1 h
  have hsyn : indexParity codePositions (flipBlockBit c q).getLsbD = BitVec.ofNat 7 q := by
    rw [indexParity_flip c hq, hs]
    exact BitVec.zero_xor
  have hpar : (flipBlockBit c q).getLsbD 0 ≠ oddCount codePositions (flipBlockBit c q).getLsbD :=
    (parities_agree_flip_iff c hq).not.2 (not_not.2 hp)
  have hle : (BitVec.ofNat 7 q).toNat ≤ 71 := by
    rw [BitVec.toNat_ofNat]
    omega
  rw [hammingScan_eq, if_neg hpar, hsyn, if_pos hle]

/-- Two inverted bits of a clean block: the parities agree and the syndrome is not 0. -/
theorem hammingScan_flip_flip {policy : OorPolicy} {c : Block} (h : hammingScan policy c = .noError) {i j : Nat}
    (hi : i < 72) (hj : j < 72) (hij : i ≠ j) :
    hammingScan policy (flipBlockBit (flipBlockBit c i) j) = .uncorrectable := by
  obtain ⟨hs, hp⟩ := hammingScan_eq_noError.1 h
  have hsyn : indexParity codePositions (flipBlockBit (flipBlockBit c i) j).getLsbD ≠ 0 := by
    rw [indexParity_flip _ hj, indexParity_flip c hi, hs]
    simpa using position_xor_ne_zero hi hj hij
  have hpar : (flipBlockBit (flipBlockBit c i) j).getLsbD 0
      = oddCount codePositions (flipBlockBit (flipBlockBit c i) j).getLsbD :=
    (parities_agree_flip_iff _ hj).2 ((parities_agree_flip_iff c hi).not.2 (not_not.2 hp))
  rw [hammingScan_eq, if_pos hpar, if_neg hsyn]

/-- A clean block with one bit inverted is corrected. -/
theorem hammingCorrect_flip {policy : OorPolicy} {c : Block} (h : hammingScan policy c = .noError) {q : Nat}
    (hq : q < 72) : hammingCorrect policy (flipBlockBit c q) = (c, .single (BitVec.ofNat 7 q)) := by
  have hpos : (BitVec.ofNat 7 q).toNat = q := Nat.mod_eq_of_lt (by omega)
  rw [hammingCorrect, hammingScan_flip h hq, correctedBlock, hpos, flipBlockBit_flipBlockBit c hq]

/-- Settles O19. -/
theorem secdedGuarantees : Obligations.SecdedGuarantees := by
  unfold Obligations.SecdedGuarantees
  intro policy m
  have hclean := hammingScan_hammingEncode policy m
  refine ⟨hammingDecode_hammingEncode m, hclean, fun i hi => hammingCorrect_flip hclean hi, fun i j hi hj hij => ?_⟩
  rw [hammingCorrect, hammingScan_flip_flip hclean hi hj hij, correctedBlock]

end Sys2Proof.Machine
end

section
/-! SUPPORT. The commands HENC, HSCAN, HCORR, HDEC and BFLIP on BLK bit by bit (spec/41_hamming_block.md R130 to R133;
spec/40_bitview.md R114): what each leaves in MSG, BLK and ER, read through `State.bufBit`. -/

namespace Sys2Proof.Machine

/-! ### Bits of a block or a message in the wire format -/

theorem getLsbD_ofBitFn_of_lt {n : Nat} (f : Nat → Bool) {i : Nat} (hi : i < n) : (ofBitFn n f).getLsbD i = f i := by
  rw [getLsbD_ofBitFn, decide_eq_true hi, Bool.true_and]

/-- The two sums of a scan see 72 bits only, so they are those of the bits a block was built from. -/
theorem indexParity_ofBitFn (f : Nat → Bool) :
    indexParity codePositions (ofBitFn 72 f).getLsbD = indexParity codePositions f :=
  indexParity_congr fun _ hp => getLsbD_ofBitFn_of_lt f (mem_codePositions.1 hp).2

theorem oddCount_ofBitFn (f : Nat → Bool) : oddCount codePositions (ofBitFn 72 f).getLsbD = oddCount codePositions f :=
  oddCount_congr fun _ hp => getLsbD_ofBitFn_of_lt f (mem_codePositions.1 hp).2

theorem bitAt_bytesOfBlock (o : BitOrder) (c : Block) {p : Nat} (hp : p < 72) :
    bitAt o (bytesOfBlock o c) p = c.getLsbD p :=
  bitAt_packBytes o c.getLsbD hp

theorem bitAt_bytesOfMessage (o : BitOrder) (m : Message) {j : Nat} (hj : j < 64) :
    bitAt o (bytesOfMessage o m) j = m.getLsbD j :=
  bitAt_packBytes o m.getLsbD hj

theorem getLsbD_blockOfBytes (o : BitOrder) (B : List Byte) {p : Nat} (hp : p < 72) :
    (blockOfBytes o B).getLsbD p = bitAt o B p :=
  getLsbD_ofBitFn_of_lt _ hp

/-- Inverting a bit of nine bytes inverts that position of their block. -/
theorem blockOfBytes_setBitAt_not (o : BitOrder) {B : List Byte} (hB : B.length = 9) {i : Nat} (hi : i < 72) :
    blockOfBytes o (setBitAt o B i (!bitAt o B i)) = flipBlockBit (blockOfBytes o B) i := by
  apply BitVec.eq_of_getLsbD_eq
  intro p hp
  rw [getLsbD_blockOfBytes o _ hp, bitAt_setBitAt o (by omega), getLsbD_flipBlockBit _ hi hp,
    getLsbD_blockOfBytes o _ hp]
  by_cases h : p = i <;> simp [h]

/-! ### What a correction inverts (R127) -/

/-- A correction inverts the position of a report of size 1, where it lies in the block, and no other. -/
theorem getLsbD_correctedBlock (r : ErrorReport) (c : Block) {p : Nat} (hp : p < 72) :
    (correctedBlock r c).getLsbD p = (c.getLsbD p != decide (r = .single (BitVec.ofNat 7 p))) := by
  cases r with
  | noError | uncorrectable => simp [correctedBlock]
  | single q =>
    have hq : q = BitVec.ofNat 7 p ↔ p = q.toNat := by
      rw [← BitVec.toNat_inj, BitVec.toNat_ofNat, Nat.mod_eq_of_lt (by omega)]
      exact eq_comm
    simp only [correctedBlock, ErrorReport.single.injEq, hq]
    by_cases hin : q.toNat ≤ 71
    · rw [getLsbD_flipBlockBit c (by omega) hp]
    · have hne : p ≠ q.toNat := by omega
      simp [flipBlockBit, hin, hne]

/-! ### What each command answers -/

theorem exec_henc_eq (s : State) :
    exec .henc s
      = .next { s with
          blk := bytesOfBlock s.cfg.bitOrder (hammingEncode (ofBitFn 64 (s.bufBit .msg))), err := .ok } := rfl

theorem exec_hscan_eq (s : State) :
    exec .hscan s = .next { s with er := hammingScan s.cfg.oorPolicy (ofBitFn 72 (s.bufBit .blk)), err := .ok } := rfl

/-- HCORR by what the correction makes of BLK's block (R127). -/
theorem exec_hcorr_of_hammingCorrect {s : State} {c : Block} {r : ErrorReport}
    (h : hammingCorrect s.cfg.oorPolicy (blockOfBytes s.cfg.bitOrder s.blk) = (c, r)) :
    exec .hcorr s = .next { s with blk := bytesOfBlock s.cfg.bitOrder c, er := r, err := .ok } := by
  simp only [exec, execHcorr, h]
  rfl

theorem exec_hdec_eq (s : State) :
    exec .hdec s
      = .next { s with
          msg := bytesOfMessage s.cfg.bitOrder (hammingDecode (ofBitFn 72 (s.bufBit .blk))), err := .ok } := rfl

/-- BFLIP of BLK in range (R114). -/
theorem exec_bflip_blk_eq {s : State} (h : s.arg0.toNat < 72) :
    exec (.bflip 1) s
      = .next { s with
          blk := setBitAt s.cfg.bitOrder s.blk s.arg0.toNat (!bitAt s.cfg.bitOrder s.blk s.arg0.toNat)
          err := .ok } :=
  (exec_bitview_ok (s.bitOperand_of_ofSel (b := .blk) rfl |>.trans (if_pos h))).2.2

/-! ### The obligations -/

/-- Settles O22. -/
theorem hencEncodesMessage : Obligations.HencEncodesMessage := by
  unfold Obligations.HencEncodesMessage
  intro s
  exact ⟨_, exec_henc_eq s, rfl, length_bytesOfBlock _ _, fun p hp => bitAt_bytesOfBlock _ _ hp⟩

/-- Settles O23. -/
theorem hscanReports : Obligations.HscanReports := by
  unfold Obligations.HscanReports
  intro s ip par
  refine ⟨_, exec_hscan_eq s, ?_⟩
  have hpar : oddCount codePositions (s.bufBit .blk) = par := oddCount_eq_decide ..
  have hip : indexParity codePositions (s.bufBit .blk) = ip := rfl
  rw [hammingScan_eq, getLsbD_ofBitFn_of_lt _ (by decide), oddCount_ofBitFn, indexParity_ofBitFn, hpar, hip]
  refine ⟨fun heq h0 => ?_, fun heq h0 => ?_, fun hne hle => ?_, fun hne hge hp => ?_, fun hne hge hp => ?_⟩
  · rw [if_pos heq, if_pos h0]
  · rw [if_pos heq, if_neg h0]
  · rw [if_neg hne, if_pos hle]
  · rw [if_neg hne, if_neg (by omega), hp]
  · rw [if_neg hne, if_neg (by omega), hp]

/-- Settles O24. -/
theorem hcorrInvertsReportedBit : Obligations.HcorrInvertsReportedBit := by
  unfold Obligations.HcorrInvertsReportedBit
  intro s
  refine ⟨_, exec_hcorr_of_hammingCorrect rfl, rfl, length_bytesOfBlock _ _, rfl, fun p hp => ?_⟩
  refine (bitAt_bytesOfBlock _ _ hp).trans ?_
  rw [getLsbD_correctedBlock _ _ hp, getLsbD_blockOfBytes _ _ hp]
  rfl

/-- Settles O25. -/
theorem hdecExtractsMessage : Obligations.HdecExtractsMessage := by
  unfold Obligations.HdecExtractsMessage
  intro s
  refine ⟨_, exec_hdec_eq s, rfl, length_bytesOfMessage _ _, fun j hj => ?_⟩
  refine (bitAt_bytesOfMessage _ _ hj).trans ?_
  rw [getLsbD_hammingDecode _ hj, getLsbD_ofBitFn_of_lt _ (dataPositions_getD_lt hj)]

/-- Settles O26: BFLIP inverts one position of the encoding, which HCORR corrects. -/
theorem singleErrorRepairedByCommands : Obligations.SingleErrorRepairedByCommands := by
  unfold Obligations.SingleErrorRepairedByCommands
  intro s hi
  generalize hc : hammingEncode (ofBitFn 64 (s.bufBit .msg)) = c
  have hclean : hammingScan s.cfg.oorPolicy c = .noError := hc ▸ hammingScan_hammingEncode ..
  have hlen : (bytesOfBlock s.cfg.bitOrder c).length = 9 := length_bytesOfBlock ..
  have hhenc := exec_henc_eq s
  rw [hc] at hhenc
  have hcorrect := hammingCorrect_flip hclean hi
  rw [← blockOfBytes_bytesOfBlock s.cfg.bitOrder c, ← blockOfBytes_setBitAt_not _ hlen hi,
    blockOfBytes_bytesOfBlock] at hcorrect
  refine ⟨_, _, _, hhenc, exec_bflip_blk_eq hi, exec_hcorr_of_hammingCorrect hcorrect, fun hsame => ?_, rfl, rfl⟩
  have hbit := congrArg (bitAt s.cfg.bitOrder · s.arg0.toNat) hsame
  simp [bitAt_setBitAt, hlen, hi] at hbit

end Sys2Proof.Machine
end

section
/-! SUPPORT. A single upset of the EEPROM (spec/60_exceptions.md R238) against the interleave (spec/42_encoded_file.md
R143): the inverted bit is one bit of the slot's image, hence one bit of one block, which a scrub corrects. -/

namespace Sys2Proof.Machine

/-! ### Files in which each block has at most one inverted bit -/

/-- `d` is `c`, or `c` with one bit inverted. -/
def AtMostOneFlip (c d : Block) : Prop := d = c ∨ ∃ q, q < 72 ∧ d = flipBlockBit c q

/-- A scrub turns a clean block with at most one inverted bit back into the clean block. -/
theorem scrubBlock_of_atMostOneFlip {policy : OorPolicy} {c d : Block} (hc : hammingScan policy c = .noError)
    (h : AtMostOneFlip c d) : scrubBlock policy d = c ∧ hammingScan policy d ≠ .uncorrectable := by
  obtain rfl | ⟨q, hq, rfl⟩ := h
  · simp [scrubBlock_eq, hc]
  · have hpos : (BitVec.ofNat 7 q).toNat = q := Nat.mod_eq_of_lt (by omega)
    simp [scrubBlock_eq, hammingScan_flip hc hq, hpos, flipBlockBit_flipBlockBit c hq]

theorem fileScrub_of_atMostOneFlip {policy : OorPolicy} {F G : List Block}
    (hF : ∀ c ∈ F, hammingScan policy c = .noError) (h : List.Forall₂ AtMostOneFlip F G) :
    (fileScrub policy G).1 = F ∧ (fileScrub policy G).2.uncorrected = 0 := by
  suffices hG : G.map (scrubBlock policy) = F ∧ ∀ d ∈ G, hammingScan policy d ≠ .uncorrectable from
    ⟨hG.1, uncorrected_eq_zero.2 hG.2⟩
  induction h with
  | nil => simp
  | cons hcd _ ih =>
    obtain ⟨hc, hF⟩ := List.forall_mem_cons.1 hF
    obtain ⟨hblock, hscan⟩ := scrubBlock_of_atMostOneFlip hc hcd
    obtain ⟨hmap, hscans⟩ := ih hF
    exact ⟨by rw [List.map_cons, hblock, hmap], List.forall_mem_cons.2 ⟨hscan, hscans⟩⟩

theorem numErrors_eq_zero {policy : OorPolicy} {F : List Block} :
    (scrubReport policy F).numErrors = 0 ↔ ∀ c ∈ F, hammingScan policy c = .noError := by
  simp only [scrubReport, List.countP_eq_zero]
  refine forall_congr' fun c => forall_congr' fun _ => ?_
  cases hammingScan policy c <;> simp [ErrorReport.size]

/-! ### One inverted bit of an image (R143) -/

/-- One inverted bit of the image is at most one inverted bit of each block: the places `k + b * n` of a block's bits
are distinct. -/
theorem fileFill_of_flip (o : BitOrder) {n : Nat} {P Q : List Byte} {g : Nat}
    (h : ∀ i, i < 72 * n → bitAt o Q i = (bitAt o P i ^^ decide (i = g))) :
    List.Forall₂ AtMostOneFlip (fileFill o n P) (fileFill o n Q) := by
  rw [fileFill, fileFill, List.forall₂_map_left_iff, List.forall₂_map_right_iff, List.forall₂_same]
  intro k hk
  have hk : k < n := List.mem_range.1 hk
  by_cases hg : ∃ q, q < 72 ∧ k + q * n = g
  · obtain ⟨q, hq, rfl⟩ := hg
    refine .inr ⟨q, hq, BitVec.eq_of_getLsbD_eq fun b hb => ?_⟩
    have hplace : k + b * n = k + q * n ↔ b = q :=
      ⟨fun he => by rw [← (interleave_place hk b).2, he, (interleave_place hk q).2], fun he => by rw [he]⟩
    rw [getLsbD_flipBlockBit _ hq hb, getLsbD_ofBitFn_of_lt _ hb, getLsbD_ofBitFn_of_lt _ hb,
      h _ (interleave_lt hk hb), decide_eq_decide.2 hplace]
  · refine .inl (ofBitFn_congr fun b hb => ?_)
    rw [h _ (interleave_lt hk hb), decide_eq_false fun he => hg ⟨b, hb, he⟩, Bool.xor_false]

/-! ### One inverted bit of the device (R238) -/

theorem getLsbD_xor_bit (v : Byte) (bit : Fin 8) (j : Nat) :
    (v ^^^ (1#8 <<< bit.val)).getLsbD j = (v.getLsbD j ^^ decide (j = bit)) := by
  rw [← BitVec.twoPow_eq, BitVec.getLsbD_xor, BitVec.getLsbD_twoPow, decide_eq_true bit.isLt, Bool.true_and,
    decide_eq_decide.2 eq_comm]

/-- A bit of the device is at most one bit of a range of bytes (R65). -/
theorem exists_bitIndex (o : BitOrder) (base n a : Nat) (bit : Fin 8) :
    ∃ g, ∀ i, i < 8 * n → (i = g ↔ base + i / 8 = a ∧ bitPlace o (i % 8) = bit) := by
  by_cases hbase : base ≤ a
  · refine ⟨8 * (a - base) + bitPlace o bit, fun i hi => ?_⟩
    have hlt := bitPlace_lt o bit.isLt
    have hplace : bitPlace o (i % 8) = bit ↔ i % 8 = bitPlace o bit :=
      ⟨fun h => by rw [← h, bitPlace_bitPlace o (by omega)], fun h => by rw [h, bitPlace_bitPlace o bit.isLt]⟩
    rw [hplace]
    omega
  · exact ⟨8 * n, fun i hi => by omega⟩

/-- An upset inverts at most one bit of any range of bytes. -/
theorem exists_bitAt_readBytes_upset (o : BitOrder) {m : Memory} (hm : m.wf = true) (a : Nat) (bit : Fin 8)
    (base n : Nat) :
    ∃ g, ∀ i, i < 8 * n →
      bitAt o ((m.write a (m.read a ^^^ (1#8 <<< bit.val))).readBytes base n) i
        = (bitAt o (m.readBytes base n) i ^^ decide (i = g)) := by
  obtain ⟨g, hg⟩ := exists_bitIndex o base n a bit
  refine ⟨g, fun i hi => ?_⟩
  have hbyte : i / 8 < n := by omega
  rw [bitAt, bitAt, getD_readBytes _ _ hbyte, getD_readBytes _ _ hbyte, Memory.read_write hm]
  by_cases ha : base + i / 8 = a
  · rw [if_pos ha, getLsbD_xor_bit]
    simp [hg i hi, ha]
  · rw [if_neg ha]
    simp [hg i hi, ha]

/-- Settles O46. -/
theorem singleUpsetIsHarmless : Obligations.SingleUpsetIsHarmless := by
  unfold Obligations.SingleUpsetIsHarmless
  intro s k a bit hinv hk hclean ha
  obtain ⟨-, -, ⟨hwf, -⟩, -⟩ := hinv
  have hF := numErrors_eq_zero.1 hclean
  obtain ⟨g, hg⟩ := exists_bitAt_readBytes_upset s.cfg.bitOrder hwf a bit (k * s.cfg.slot) s.cfg.slot
  have hslot : 8 * s.cfg.slot = 72 * s.cfg.bc := by simp only [Config.slot]; omega
  rw [hslot] at hg
  obtain ⟨hblocks, hunc⟩ := fileScrub_of_atMostOneFlip hF (fileFill_of_flip s.cfg.bitOrder hg)
  have hbefore : slotBlocks s (k * s.cfg.slot) = _ := congrArg Prod.fst (fileScrub_of_noError hF)
  refine ⟨_, if_pos ha, beq_iff_eq.2 hunc, hblocks.trans hbefore.symm, ?_⟩
  exact congrArg (counterOfFile s.cfg) (hblocks.trans hbefore.symm)

end Sys2Proof.Machine
end

section
/-! SUPPORT. The file commands FENC, FGET, FFILL and FDEC bit by bit (spec/42_encoded_file.md R141 to R152), and the
round trips of encoding, decoding, interleaving and filling (R153). -/

namespace Sys2Proof.Machine

/-! ### Bits read through the blocks and through the padding -/

/-- Index `72 k + b` of FBW is bit `b` of block `k` (spec/20_memory.md R62). -/
theorem State.bufBit_fbw (s : State) (k : Nat) {b : Nat} (hb : b < 72) :
    s.bufBit .fbw (72 * k + b) = (s.fb.getD k 0).getLsbD b := by
  have hdiv : (72 * k + b) / 72 = k := by omega
  have hmod : (72 * k + b) % 72 = b := by omega
  simp only [State.bufBit, hdiv, hmod]

/-- A message of the file has the buffer's bits, and zeros beyond the buffer's end (R141). -/
theorem fileMessage_eq_padded (o : BitOrder) (L : List Byte) (k : Nat) :
    fileMessage o L k = ofBitFn 64 fun j => if 64 * k + j < 8 * L.length then bitAt o L (64 * k + j) else false := by
  refine ofBitFn_congr fun j _ => ?_
  split
  · rfl
  · exact bitAt_of_length_le o (by omega)

/-! ### Round trips (R153) -/

theorem fileFill_fileGetData (o : BitOrder) (F : List Block) : fileFill o F.length (fileGetData o F) = F := by
  refine ext_blocks (length_fileFill ..) fun k hk b hb => ?_
  rw [length_fileFill] at hk
  rw [getLsbD_fileFill o _ hk hb, bitAt_fileGetData_place o F hk hb]

/-- Offset `g` of the image is bit `g div n` of block `g mod n`, which the fill took from offset `g`. -/
theorem fileGetData_fileFill (o : BitOrder) {n : Nat} {P : List Byte} (h : P.length = 9 * n) :
    fileGetData o (fileFill o n P) = P := by
  have hlen : (fileGetData o (fileFill o n P)).length = P.length := by
    rw [length_fileGetData, length_fileFill, h, Nat.mul_comm]
  refine ext_bitAt o hlen fun g hg => ?_
  have hg72 : g < 72 * n := by omega
  have hblock : g % n < n := Nat.mod_lt _ (by omega)
  have hbit : g / n < 72 := Nat.div_lt_of_lt_mul (by rwa [Nat.mul_comm])
  rw [bitAt_fileGetData o _ (by rwa [length_fileFill]), length_fileFill, getLsbD_fileFill o P hblock hbit,
    Nat.mod_add_div']

theorem fileDecode_fileEncode (o : BitOrder) {n : Nat} {L : List Byte} (h : L.length ≤ 8 * n) :
    fileDecode o L.length (fileEncode o n L) = L := by
  have hfile : L.length ≤ 8 * (fileEncode o n L).length := by rwa [length_fileEncode]
  refine ext_bitAt o (length_fileDecode o hfile) fun i hi => ?_
  rw [length_fileDecode o hfile] at hi
  rw [bitAt_fileDecode o hfile hi, getD_fileEncode o L (by omega), hammingDecode_hammingEncode,
    getLsbD_fileMessage o L _ (by omega), Nat.div_add_mod]

/-- Every block of an encoded buffer is clean. -/
theorem hammingScan_of_mem_fileEncode (policy : OorPolicy) {o : BitOrder} {n : Nat} {L : List Byte} :
    ∀ c ∈ fileEncode o n L, hammingScan policy c = .noError :=
  List.forall_mem_map.2 fun _ _ => hammingScan_hammingEncode policy _

/-! ### The obligations -/

/-- Settles O27: beyond LBUF's `D` bytes a message reads zeros. -/
theorem fencEncodesFile : Obligations.FencEncodesFile := by
  unfold Obligations.FencEncodesFile
  rintro s ⟨-, -, hlbuf, -, -⟩
  refine ⟨_, rfl, rfl, length_fileEncode .., fun k hk => ?_⟩
  rw [← hlbuf]
  exact (getD_fileEncode _ _ hk).trans (congrArg hammingEncode (fileMessage_eq_padded ..))

/-- Settles O28. -/
theorem fgetInterleaves : Obligations.FgetInterleaves := by
  unfold Obligations.FgetInterleaves
  rintro s ⟨-, -, -, hfb, -⟩
  rw [Config.slot, ← hfb]
  refine ⟨_, rfl, rfl, length_fileGetData .., fun k b hk hb => ?_⟩
  rw [s.bufBit_fbw k hb]
  exact bitAt_fileGetData_place _ _ hk hb

/-- Settles O29. -/
theorem ffillDeinterleaves : Obligations.FfillDeinterleaves := by
  unfold Obligations.FfillDeinterleaves
  intro s
  refine ⟨_, rfl, rfl, length_fileFill .., fun k b hk hb => ?_⟩
  rw [State.bufBit_fbw _ k hb]
  exact getLsbD_fileFill _ _ hk hb

/-- Settles O31. -/
theorem fdecDecodesFile : Obligations.FdecDecodesFile := by
  unfold Obligations.FdecDecodesFile
  rintro s ⟨-, -, -, hfb, -⟩
  have hfile : s.cfg.dSize ≤ 8 * s.fb.length := hfb ▸ dSize_le_blockBytes s.cfg
  refine ⟨_, rfl, rfl, length_fileDecode _ hfile, fun n hn => ?_⟩
  have hj : n % 64 < 64 := Nat.mod_lt _ (by decide)
  rw [s.bufBit_fbw _ (dataPositions_getD_lt hj), ← getLsbD_hammingDecode _ hj]
  exact bitAt_fileDecode _ hfile hn

/-- Settles O32; the blocks of an encoded buffer are clean, so a scrub leaves them. -/
theorem fileRoundTrips : Obligations.FileRoundTrips := by
  unfold Obligations.FileRoundTrips
  intro o policy
  exact ⟨fileFill_fileGetData o, fun _ _ hP => fileGetData_fileFill o hP,
    fun _ => fileDecode_fileEncode o (by omega),
    fun _ _ => fileScrub_of_noError (hammingScan_of_mem_fileEncode policy)⟩

end Sys2Proof.Machine
end

section
/-! SUPPORT. FSCRUB and the counts of a scrub (spec/42_encoded_file.md R146, R151, R155): each block by its own report,
the registers against the counts, and what a second scrub finds. -/

namespace Sys2Proof.Machine

/-! ### The three counts -/

/-- The blocks with an error (R146). -/
theorem scrubReport_numErrors (policy : OorPolicy) (F : List Block) :
    (scrubReport policy F).numErrors = F.countP fun c => hammingScan policy c != .noError :=
  List.countP_congr fun c _ => by cases hammingScan policy c <;> simp [ErrorReport.size]

/-- The blocks that a scrub zero-clears (R146). -/
theorem scrubReport_uncorrected (policy : OorPolicy) (F : List Block) :
    (scrubReport policy F).uncorrected = F.countP fun c => hammingScan policy c == .uncorrectable :=
  List.countP_congr fun c _ => by cases hammingScan policy c <;> simp [ErrorReport.size]

/-- Counting blocks is counting their numbers. -/
theorem countP_range_getD (F : List Block) (p : Block → Bool) :
    (List.range F.length).countP (fun k => p (F.getD k 0)) = F.countP p := by
  have hF : (List.range F.length).map (fun k => F.getD k 0) = F :=
    List.ext_getElem (by simp) fun k _ hk => by simp [List.getD_eq_getElem?_getD, hk]
  conv_rhs => rw [← hF, List.countP_map]
  rfl

/-- The uncorrected blocks are those left 0 for an uncorrectable report (R155). -/
theorem scrubReport_uncorrected_eq_cleared (policy : OorPolicy) (F : List Block) :
    (scrubReport policy F).uncorrected
      = (List.range F.length).countP (fun k =>
          (fileScrub policy F).1.getD k 0 == 0 && hammingScan policy (F.getD k 0) == .uncorrectable) := by
  rw [scrubReport_uncorrected, ← countP_range_getD]
  refine List.countP_congr fun k hk => ?_
  rw [getD_fileScrub policy F (List.mem_range.1 hk), scrubBlock_eq]
  cases hammingScan policy (F.getD k 0) <;> simp

/-! ### What a scrub leaves of a block -/

/-- Inverting a position twice gives the block back, at a position outside the block too, where nothing is inverted. -/
theorem flipBlockBit_involutive (p : Nat) : Function.Involutive (flipBlockBit · p) := by
  intro c
  by_cases hp : p ≤ 71
  · exact flipBlockBit_flipBlockBit c (by omega)
  · simp [flipBlockBit, hp]

/-- A block that a scrub leaves 0 was 0, uncorrectable, or one inverted bit away from 0. -/
theorem scrubBlock_eq_zero {policy : OorPolicy} {c : Block} (h : scrubBlock policy c = 0) (hc : c ≠ 0) :
    hammingScan policy c = .uncorrectable ∨ ∃ p, c = flipBlockBit 0 p := by
  rw [scrubBlock_eq] at h
  cases hscan : hammingScan policy c with
  | noError => rw [hscan] at h; exact absurd h hc
  | single p => rw [hscan] at h; exact .inr ⟨p.toNat, (flipBlockBit_involutive p.toNat).eq_iff.1 h⟩
  | uncorrectable => exact .inl rfl

/-- A report of size 1 is the syndrome, of a block whose parities differ (R125, R126). -/
theorem hammingScan_eq_single {policy : OorPolicy} {c : Block} {p : Syndrome} (h : hammingScan policy c = .single p) :
    c.getLsbD 0 ≠ oddCount codePositions c.getLsbD ∧ indexParity codePositions c.getLsbD = p := by
  rw [hammingScan_eq] at h
  split at h
  · split at h <;> cases h
  · rename_i hpar
    refine ⟨hpar, ?_⟩
    split at h
    · exact ErrorReport.single.inj h
    · cases policy
      · cases h
      · exact ErrorReport.single.inj h

/-- Inverting the reported position, where it lies in the block, leaves a clean block (R127). -/
theorem hammingScan_flip_reported {policy : OorPolicy} {c : Block} {p : Syndrome}
    (h : hammingScan policy c = .single p) (hp : p.toNat ≤ 71) :
    hammingScan policy (flipBlockBit c p.toNat) = .noError := by
  obtain ⟨hpar, hsyn⟩ := hammingScan_eq_single h
  have hlt : p.toNat < 72 := by omega
  refine hammingScan_eq_noError.2 ⟨?_, (parities_agree_flip_iff c hlt).2 hpar⟩
  rw [indexParity_flip c hlt, hsyn, BitVec.ofNat_toNat, BitVec.setWidth_eq]
  exact BitVec.xor_self

/-- Under the default policy every block a scrub leaves is clean: a report of size 1 names a position of the block. -/
theorem hammingScan_scrubBlock (c : Block) : hammingScan .uncorrectable (scrubBlock .uncorrectable c) = .noError := by
  rw [scrubBlock_eq]
  cases hscan : hammingScan .uncorrectable c with
  | noError => exact hscan
  | single p =>
    have hrange := reportInRange_hammingScan .uncorrectable c
    rw [hscan] at hrange
    exact hammingScan_flip_reported hscan (by simpa [reportInRange] using hrange)
  | uncorrectable => exact show hammingScan .uncorrectable 0 = .noError by decide

/-! ### What FSCRUB answers -/

/-- Everything FSCRUB does (R151). -/
theorem exec_fscrub_eq (s : State) :
    exec .fscrub s
      = .next
        (({ s with fb := (fileScrub s.cfg.oorPolicy s.fb).1 }.withScrub (fileScrub s.cfg.oorPolicy s.fb).2).complete) :=
  rfl

/-- FSCRUB of clean blocks changes no block and reports 0, 0, 0. -/
theorem exec_fscrub_of_noError {s : State} (h : ∀ c ∈ s.fb, hammingScan s.cfg.oorPolicy c = .noError) :
    exec .fscrub s = .next { s with scrubNumErr := 0, scrubCorr := 0, scrubUncorr := 0, err := .ok } := by
  rw [exec_fscrub_eq, fileScrub_of_noError h]
  rfl

/-! ### The obligations -/

/-- Settles O30: the counts fit the registers, for they are at most `BC`. -/
theorem fscrubScrubsFile : Obligations.FscrubScrubsFile := by
  unfold Obligations.FscrubScrubsFile
  rintro s hv ⟨-, -, -, hfb, -⟩
  have hcount (p : Block → Bool) : (BitVec.ofNat 32 (s.fb.countP p)).toNat = s.fb.countP p :=
    toNat_scrubCount hv (hfb ▸ List.countP_le_length)
  refine ⟨_, exec_fscrub_eq s, rfl, (length_fileScrub ..).trans hfb, fun k hk => ?_,
    (hcount _).trans (scrubReport_numErrors ..), hcount _, (hcount _).trans (scrubReport_uncorrected ..)⟩
  have hblock := (getD_fileScrub s.cfg.oorPolicy s.fb (hfb ▸ hk)).trans (scrubBlock_eq ..)
  refine ⟨fun h => ?_, fun p h => ?_, fun h => ?_⟩
  all_goals
    rw [h] at hblock
    exact hblock

/-- Settles O34. The registers are those of the invariant, which every command keeps. -/
theorem scrubCounterIdentities : Obligations.ScrubCounterIdentities := by
  unfold Obligations.ScrubCounterIdentities
  refine ⟨fun policy F => ⟨scrubReport_sum policy F, scrubReport_le policy F, List.countP_le_length,
    List.countP_le_length, scrubReport_uncorrected_eq_cleared policy F, fun k hk hzero hne => ?_⟩,
    fun s i hinv _ => ?_⟩
  · rw [getD_fileScrub policy F hk] at hzero
    exact scrubBlock_eq_zero hzero hne
  · obtain ⟨t, ht⟩ := exec_next hinv.1 i
    obtain ⟨-, -, -, -, ⟨hsum, hle⟩, -⟩ := exec_keeps_inv hinv ht
    obtain ⟨hcfg, -⟩ := commandsTouchOnlyTheirState i s t ht
    exact ⟨t, ht, hsum, hcfg ▸ hle⟩

/-- Settles O35: the first scrub leaves clean blocks only. -/
theorem secondScrubIsClean : Obligations.SecondScrubIsClean := by
  unfold Obligations.SecondScrubIsClean
  intro s hpolicy
  have hclean : ∀ c ∈ (fileScrub s.cfg.oorPolicy s.fb).1, hammingScan s.cfg.oorPolicy c = .noError := by
    rw [hpolicy]
    exact List.forall_mem_map.2 fun c _ => hammingScan_scrubBlock c
  exact ⟨_, exec_fscrub_eq s, exec_fscrub_of_noError hclean⟩

end Sys2Proof.Machine
end

section
/-! SUPPORT. Bursts (spec/42_encoded_file.md R154): the interleave spreads adjacent offsets over the blocks, so a burst
of at most one round inverts at most one bit of each block. -/

namespace Sys2Proof.Machine

/-! ### Adjacent offsets and the blocks they belong to -/

/-- `n` consecutive offsets belong to `n` different blocks. -/
theorem eq_of_add_mod_eq {n g i j : Nat} (hi : i < n) (hj : j < n) (h : (g + i) % n = (g + j) % n) : i = j :=
  (Nat.ModEq.add_left_cancel' g h).eq_of_lt_of_lt hi hj

/-- `m` consecutive offsets put at most `ceil (m / n)` into block `k`: those of one block are congruent. -/
theorem countP_block_le {n : Nat} (hn : 0 < n) (g m k : Nat) :
    (List.range m).countP (fun i => (g + i) % n == k) ≤ (m + n - 1) / n := by
  by_cases h : ∃ v, (g + v) % n = k
  · obtain ⟨v, rfl⟩ := h
    have hcongr : ∀ i, (g + i) % n = (g + v) % n ↔ i ≡ v [MOD n] := fun i =>
      ⟨Nat.ModEq.add_left_cancel' g, Nat.ModEq.add_left g⟩
    have hcount : (List.range m).countP (fun i => (g + i) % n == (g + v) % n) = m.count (· ≡ v [MOD n]) :=
      List.countP_congr fun i _ => by simp [hcongr]
    rw [hcount, Nat.count_modEq_card m hn, Nat.le_div_iff_mul_le hn, Nat.add_mul]
    have hm := Nat.div_add_mod' m n
    split <;> omega
  · rw [List.countP_eq_zero.2 fun i _ hi => h ⟨i, beq_iff_eq.1 hi⟩]
    exact Nat.zero_le _

/-! ### A burst of at most one round -/

/-- Blocks that differ in at most one position are one inverted bit apart, or the same. -/
theorem atMostOneFlip_of_unique {c d : Block}
    (h : ∀ p q, p < 72 → q < 72 → d.getLsbD p ≠ c.getLsbD p → d.getLsbD q ≠ c.getLsbD q → p = q) :
    AtMostOneFlip c d := by
  by_cases hne : ∃ q, q < 72 ∧ d.getLsbD q ≠ c.getLsbD q
  · obtain ⟨q, hq, hdiff⟩ := hne
    refine .inr ⟨q, hq, BitVec.eq_of_getLsbD_eq fun p hp => ?_⟩
    rw [getLsbD_flipBlockBit c hq hp]
    by_cases hpq : p = q
    · simpa [hpq, Bool.eq_not] using hdiff
    · simpa [hpq] using mt (h p q hp hq · hdiff) hpq
  · refine .inl (BitVec.eq_of_getLsbD_eq fun p hp => ?_)
    exact by_contra fun hdiff => hne ⟨p, hp, hdiff⟩

/-- Images that differ within `n` consecutive offsets fill blocks that have at most one inverted bit each. -/
theorem fileFill_of_burst (o : BitOrder) {n : Nat} {P Q : List Byte} {g : Nat}
    (h : ∀ i, i < 72 * n → ¬ (g ≤ i ∧ i < g + n) → bitAt o Q i = bitAt o P i) :
    List.Forall₂ AtMostOneFlip (fileFill o n P) (fileFill o n Q) := by
  rw [fileFill, fileFill, List.forall₂_map_left_iff, List.forall₂_map_right_iff, List.forall₂_same]
  intro k hk
  have hk : k < n := List.mem_range.1 hk
  refine atMostOneFlip_of_unique fun p q hp hq hdp hdq => ?_
  rw [getLsbD_ofBitFn_of_lt _ hp, getLsbD_ofBitFn_of_lt _ hp] at hdp
  rw [getLsbD_ofBitFn_of_lt _ hq, getLsbD_ofBitFn_of_lt _ hq] at hdq
  have hpIn := not_imp_comm.1 (h _ (interleave_lt hk hp)) hdp
  have hqIn := not_imp_comm.1 (h _ (interleave_lt hk hq)) hdq
  have hsame : k + p * n - g = k + q * n - g := by
    refine eq_of_add_mod_eq (n := n) (g := g) (by omega) (by omega) ?_
    rw [Nat.add_sub_cancel' hpIn.1, Nat.add_sub_cancel' hqIn.1, (interleave_place hk p).1, (interleave_place hk q).1]
  rw [← (interleave_place hk p).2, ← (interleave_place hk q).2, show k + p * n = k + q * n by omega]

/-- Settles O33: the fill of the image is the encoded buffer, that of the damaged image one inverted bit in each block
away from it. -/
theorem burstIsCorrected : Obligations.BurstIsCorrected := by
  unfold Obligations.BurstIsCorrected
  intro o policy L P g hL n F
  have hlen : 0 < L.length := List.length_pos_iff.2 hL
  have hn : 0 < n := by omega
  refine ⟨fun i j hi hj hij h => hij (eq_of_add_mod_eq hi hj h), countP_block_le hn g, fun hburst => ?_⟩
  have hfill : fileFill o n (fileGetData o F) = F := by
    have := fileFill_fileGetData o F
    rwa [length_fileEncode] at this
  have hflips := fileFill_of_burst o hburst
  rw [hfill] at hflips
  obtain ⟨hblocks, hunc⟩ := fileScrub_of_atMostOneFlip (hammingScan_of_mem_fileEncode policy) hflips
  exact ⟨hblocks, hunc, by rw [hblocks]; exact fileDecode_fileEncode o (by omega)⟩

end Sys2Proof.Machine
end

section
/-! SUPPORT. The ring's geometry and RSAVE (spec/43_ring_manager.md R161, R164 to R166): the next counter's slot, and
the EEPROM, the count and the accesses that the differential write of a save leaves. -/

namespace Sys2Proof.Machine

/-! ### Slot addresses (R161) -/

theorem slotAddress_end_le {c : Config} (h : c.Valid) (w : Word) : slotAddress c w + c.slot ≤ c.maxAddr := by
  rw [slotAddress_eq]
  exact slot_end_le (Nat.mod_lt _ (nslots_pos h))

@[simp] theorem slotAddress_zero (c : Config) : slotAddress c 0 = 0 := by simp [slotAddress]

theorem toNat_add_one {w : Word} (h : w ≠ 0xFFFFFFFF) : (w + 1).toNat = w.toNat + 1 := by
  bv_omega

/-- The next counter's slot is one slot further round the ring. -/
theorem slotAddress_add_one (c : Config) {w : Word} (h : w ≠ 0xFFFFFFFF) :
    slotAddress c (w + 1) = (slotAddress c w + c.slot) % c.maxAddr := by
  rw [slotAddress, slotAddress, toNat_add_one h, Nat.succ_mul, Nat.mod_add_mod]

/-- Settles O36. -/
theorem slotAddressOfCounter : Obligations.SlotAddressOfCounter := by
  unfold Obligations.SlotAddressOfCounter
  intro c w hv
  exact ⟨rfl, slotAddress_eq c w, slotAddress_add_one c, slotAddress_end_le hv w, maxAddr_le c⟩

/-! ### The accesses of a differential write (R165) -/

@[simp] theorem countWrites_eeRead_cons (a : Nat) (v : Byte) (es : List Event) :
    countWrites (.eeRead a v :: es) = countWrites es := List.countP_cons_of_neg Bool.false_ne_true

@[simp] theorem countWrites_eeWrite_cons (a : Nat) (v : Byte) (es : List Event) :
    countWrites (.eeWrite a v :: es) = countWrites es + 1 := List.countP_cons_of_pos rfl

@[simp] theorem countReads_eeRead_cons (a : Nat) (v : Byte) (es : List Event) :
    countReads (.eeRead a v :: es) = countReads es + 1 := List.countP_cons_of_pos rfl

@[simp] theorem countReads_eeWrite_cons (a : Nat) (v : Byte) (es : List Event) :
    countReads (.eeWrite a v :: es) = countReads es := List.countP_cons_of_neg Bool.false_ne_true

/-- A differential write writes as often as it counts. -/
theorem countWrites_diffWrite (ee : Memory) (a : Nat) (P : List Byte) :
    countWrites (diffWrite ee a P).events = (diffWrite ee a P).count := by
  induction P generalizing ee a with
  | nil => rfl
  | cons v P ih =>
    by_cases hv : ee.read a = v
    · simp [diffWrite_cons_same hv, ih]
    · simp [diffWrite_cons_differs hv, ih]

/-- A differential write reads each byte of its range once. -/
theorem countReads_diffWrite (ee : Memory) (a : Nat) (P : List Byte) :
    countReads (diffWrite ee a P).events = P.length := by
  induction P generalizing ee a with
  | nil => rfl
  | cons v P ih =>
    by_cases hv : ee.read a = v
    · simp [diffWrite_cons_same hv, ih]
    · simp [diffWrite_cons_differs hv, ih]

/-! ### The differential write of a save -/

/-- The slot of the new counter holds the image after a save, byte by byte, and every other byte is as before. -/
theorem read_saveDiff {s : State} (hwf : s.ee.wf = true) :
    (∀ i, i < s.cfg.slot →
        (saveDiff s).ee.read (slotAddress s.cfg (s.wctr + 1) + i) = (savedImage s).getD i 0)
      ∧ ∀ x, x < slotAddress s.cfg (s.wctr + 1) ∨ slotAddress s.cfg (s.wctr + 1) + s.cfg.slot ≤ x →
        (saveDiff s).ee.read x = s.ee.read x := by
  have hread := read_diffWrite_take hwf (slotAddress s.cfg (s.wctr + 1)) (length_savedImage s).ge
  rwa [← length_savedImage s, List.take_length, length_savedImage s] at hread

/-- A save counts the bytes of its slot that differed. -/
theorem count_saveDiff {s : State} (hwf : s.ee.wf = true) :
    (saveDiff s).count
      = (List.range s.cfg.slot).countP fun i =>
          s.ee.read (slotAddress s.cfg (s.wctr + 1) + i) != (savedImage s).getD i 0 := by
  obtain ⟨-, -, -, hcount, -⟩ := diffWrite_spec hwf (slotAddress s.cfg (s.wctr + 1)) (savedImage s)
  rwa [length_savedImage] at hcount

/-- A save makes at most one write a byte of the slot, so its count fits RET. -/
theorem toNat_count_saveDiff {s : State} (hv : s.cfg.Valid) (hwf : s.ee.wf = true) :
    (BitVec.ofNat 32 (saveDiff s).count).toNat = (saveDiff s).count := by
  have hle : (saveDiff s).count ≤ s.cfg.slot := by
    rw [count_saveDiff hwf]
    exact List.countP_le_length.trans_eq List.length_range
  have hslot := slotAddress_end_le hv 0
  have hmax := maxAddr_lt hv
  exact Nat.mod_eq_of_lt (by omega)

/-- Settles O38. -/
theorem rsaveWritesRecord : Obligations.RsaveWritesRecord := by
  unfold Obligations.RsaveWritesRecord
  rintro s ⟨hv, -, ⟨hwf, -⟩, -⟩ hsave
  obtain ⟨hslot, hrest⟩ := read_saveDiff hwf
  exact ⟨_, exec_rsave_next hv hsave, rfl, rfl, rfl, rfl, hslot, hrest,
    (toNat_count_saveDiff hv hwf).trans (count_saveDiff hwf), rfl⟩

/-- Settles O39. -/
theorem rsaveAccessesInOrder : Obligations.RsaveAccessesInOrder := by
  unfold Obligations.RsaveAccessesInOrder
  rintro s ⟨hv, -, ⟨hwf, -⟩, -⟩ hsave a es
  have hlen := length_savedImage s
  have hevents : (saveDiff s).events = es := by
    obtain ⟨-, -, -, -, hevents⟩ := diffWrite_spec hwf a (savedImage s)
    rwa [hlen] at hevents
  have hstored : (saveDiff s).ee.readBytes a s.cfg.slot = savedImage s := by
    rw [← hlen]
    exact readBytes_diffWrite hwf a (savedImage s)
  rw [← hevents]
  exact ⟨_, exec_rsave_next hv hsave, rfl,
    (countWrites_diffWrite ..).trans (toNat_count_saveDiff hv hwf).symm, (countReads_diffWrite ..).trans hlen,
    hstored⟩

/-- Settles O40: under `wrap` the next counter is 0, and 0 is the address of its slot. -/
theorem rsaveCounterOverflow : Obligations.RsaveCounterOverflow := by
  unfold Obligations.RsaveCounterOverflow
  intro s hmax
  refine ⟨fun hfault => ?_, fun hwrap hinv => ?_⟩
  · have hrefused : ¬ s.CanSave := by simp [State.CanSave, hmax, hfault]
    exact exec_rsave_overflow hrefused
  · obtain ⟨hv, -, ⟨hwf, -⟩, -⟩ := hinv
    have hzero : s.wctr + 1 = 0 := by rw [hmax]; rfl
    have haddr : slotAddress s.cfg (s.wctr + 1) = 0 := by rw [hzero, slotAddress_zero]
    obtain ⟨hread, -⟩ := read_saveDiff hwf
    simp only [haddr, Nat.zero_add] at hread
    exact ⟨_, exec_rsave_next hv (.inr hwrap), rfl, hzero, hread⟩

end Sys2Proof.Machine
end

section
/-! SUPPORT. RSEEK (spec/43_ring_manager.md R163, R167 to R171): the two comparisons, and the seek in one equation. -/

namespace Sys2Proof.Machine

/-! ### The two comparisons (R163) -/

theorem newerThan_unsigned (a b : Word) : newerThan .unsigned a b = true ↔ b.toNat < a.toNat := decide_eq_true_iff

theorem newerThan_serial (a b : Word) :
    newerThan .serial a b = true ↔ 1 ≤ (a - b).toNat ∧ (a - b).toNat ≤ 2 ^ 31 - 1 := by
  simp only [newerThan, Bool.and_eq_true, decide_eq_true_eq]

theorem toNat_sub_eq (a b : Word) : (a - b).toNat = (a.toNat + 2 ^ 32 - b.toNat) % 2 ^ 32 := by
  rw [BitVec.toNat_sub]
  omega

/-! ### The seek in one equation (R167 to R171) -/

/-- SEEK_ADDR after a seek: the chosen slot's address, or 0 (R170). -/
def chosenAddr (s : State) : Nat := (seekChoice s).elim 0 Prod.fst

/-- SEEK_CTR after a seek: the chosen slot's counter, or 0 (R170). -/
def chosenCounter (s : State) : Word := (seekChoice s).elim 0 Prod.snd

theorem chosenAddr_of_none {s : State} (h : seekChoice s = none) : chosenAddr s = 0 := by simp [chosenAddr, h]

theorem chosenCounter_of_none {s : State} (h : seekChoice s = none) : chosenCounter s = 0 := by
  simp [chosenCounter, h]

theorem chosenAddr_of_some {s : State} {a : Nat} {ctr : Word} (h : seekChoice s = some (a, ctr)) :
    chosenAddr s = a := by simp [chosenAddr, h]

theorem chosenCounter_of_some {s : State} {a : Nat} {ctr : Word} (h : seekChoice s = some (a, ctr)) :
    chosenCounter s = ctr := by simp [chosenCounter, h]

theorem holdsChoice_iff (t : State) (best : Option (Nat × Word)) :
    HoldsChoice t best
      ↔ t.seekValid = best.isSome ∧ t.seekAddr = BitVec.ofNat 32 (best.elim 0 Prod.fst)
        ∧ t.seekCtr = best.elim 0 Prod.snd := by
  cases best <;> rfl

/-- The seek registers hold the choice, and PHYS, FB and SCRUB_* the slot at `a`, after the accesses `es`. -/
def State.withSeek (s : State) (a : Nat) (es : List Event) : State :=
  { s with
    phys := s.ee.readBytes a s.cfg.slot
    fb := slotBlocks s a
    scrubNumErr := BitVec.ofNat 32 (slotReport s a).numErrors
    scrubCorr := BitVec.ofNat 32 (slotReport s a).corrected
    scrubUncorr := BitVec.ofNat 32 (slotReport s a).uncorrected
    seekValid := (seekChoice s).isSome
    seekAddr := BitVec.ofNat 32 (chosenAddr s)
    seekCtr := chosenCounter s
    history := s.history ++ es }

@[simp] theorem State.withSeek_cfg (s : State) (a : Nat) (es : List Event) : (s.withSeek a es).cfg = s.cfg := rfl
@[simp] theorem State.withSeek_ee (s : State) (a : Nat) (es : List Event) : (s.withSeek a es).ee = s.ee := rfl
@[simp] theorem State.withSeek_seekValid (s : State) (a : Nat) (es : List Event) :
    (s.withSeek a es).seekValid = (seekChoice s).isSome := rfl
@[simp] theorem State.withSeek_seekAddr (s : State) (a : Nat) (es : List Event) :
    (s.withSeek a es).seekAddr = BitVec.ofNat 32 (chosenAddr s) := rfl
@[simp] theorem State.withSeek_seekCtr (s : State) (a : Nat) (es : List Event) :
    (s.withSeek a es).seekCtr = chosenCounter s := rfl

/-- Everything a seek does. -/
theorem State.seek_eq {s : State} (hv : s.cfg.Valid) :
    s.seek
      = s.withSeek ((s.cfg.nslots - 1) * s.cfg.slot) (s.ee.readEvents 0 (s.cfg.nslots * s.cfg.slot)) := by
  obtain ⟨hframe, hchoice, ⟨hphys, hfb, hnum, hcorr, huncorr⟩, hhist⟩ := State.seek_spec hv
  obtain ⟨hvalid, haddr, hctr⟩ := (holdsChoice_iff _ _).1 hchoice
  rw [hframe, hphys, hfb, hnum, hcorr, huncorr, hvalid, haddr, hctr, hhist]
  rfl

/-- Everything RSEEK does. -/
theorem exec_rseek_eq {s : State} (hv : s.cfg.Valid) :
    exec .rseek s
      = .next
        { s.withSeek ((s.cfg.nslots - 1) * s.cfg.slot) (s.ee.readEvents 0 (s.cfg.nslots * s.cfg.slot)) with
          ret := BitVec.ofNat 32 (chosenAddr s) }.complete := by
  rw [exec_rseek_next, State.seek_eq hv]
  rfl

theorem toNat_chosenAddr {s : State} (hv : s.cfg.Valid) : (BitVec.ofNat 32 (chosenAddr s)).toNat = chosenAddr s := by
  unfold chosenAddr
  cases hc : seekChoice s with
  | none => rfl
  | some best => exact toNat_seekChoice hv hc

theorem slotReport_corrected_le (s : State) (a : Nat) : (slotReport s a).corrected ≤ s.cfg.bc :=
  (Nat.le_add_right ..).trans ((slotReport_sum s a).ge.trans (slotReport_le s a))

theorem slotReport_uncorrected_le (s : State) (a : Nat) : (slotReport s a).uncorrected ≤ s.cfg.bc :=
  (Nat.le_add_left ..).trans ((slotReport_sum s a).ge.trans (slotReport_le s a))

/-- Settles O41. -/
theorem rseekFollowsLoop : Obligations.RseekFollowsLoop := by
  unfold Obligations.RseekFollowsLoop
  refine ⟨fun a b => ⟨newerThan_unsigned a b, ?_⟩, fun s hinv => ?_⟩
  · rw [newerThan_serial, toNat_sub_eq]
  · have hv := hinv.1
    refine ⟨_, exec_rseek_eq hv, fun a ctr hc => ?_, fun hc => ?_, rfl, rfl, rfl,
      toNat_scrubCount hv (slotReport_le ..), toNat_scrubCount hv (slotReport_corrected_le ..),
      toNat_scrubCount hv (slotReport_uncorrected_le ..), rfl, rfl⟩
    · simp [chosenAddr_of_some hc, chosenCounter_of_some hc, hc, toNat_seekChoice hv hc]
    · simp [chosenAddr_of_none hc, chosenCounter_of_none hc, hc]

end Sys2Proof.Machine
end

section
/-! SUPPORT. Which slot RSEEK chooses (spec/43_ring_manager.md R168 to R170): the loop keeps the best of the slots it
has visited, whichever rank of the counters the comparison follows. -/

namespace Sys2Proof.Machine

/-! ### The slot that the loop chooses (R168, R169) -/

/-- Slot `j` of the ring is a candidate (R168). -/
def Candidate (s : State) (j : Nat) : Prop := j < s.cfg.nslots ∧ slotAccepted s (j * s.cfg.slot) = true

/-- Among the candidates the comparison follows the rank `f` of their counters. -/
def RanksCandidates (s : State) (f : Word → Nat) : Prop :=
  ∀ i j, Candidate s i → Candidate s j →
    (newerThan s.cfg.newer (slotCounter s (i * s.cfg.slot)) (slotCounter s (j * s.cfg.slot)) = true
      ↔ f (slotCounter s (j * s.cfg.slot)) < f (slotCounter s (i * s.cfg.slot)))

/-- Slot `k` is the choice among the first `n` slots: no later candidate is newer, and every earlier one has a lower
rank, whichever rank the comparison follows. -/
structure BestBelow (s : State) (n k : Nat) : Prop where
  lt : k < n
  accepted : slotAccepted s (k * s.cfg.slot) = true
  later : ∀ j, k < j → j < n → slotAccepted s (j * s.cfg.slot) = true →
    newerThan s.cfg.newer (slotCounter s (j * s.cfg.slot)) (slotCounter s (k * s.cfg.slot)) = false
  earlier : ∀ f, RanksCandidates s f → ∀ j, j < k → slotAccepted s (j * s.cfg.slot) = true →
    f (slotCounter s (j * s.cfg.slot)) < f (slotCounter s (k * s.cfg.slot))

/-- What the loop holds after the first `n` slots. -/
def HoldsBest (s : State) (n : Nat) : Option (Nat × Word) → Prop
  | none => ∀ j, j < n → slotAccepted s (j * s.cfg.slot) = false
  | some (a, ctr) => ∃ k, BestBelow s n k ∧ a = k * s.cfg.slot ∧ ctr = slotCounter s (k * s.cfg.slot)

theorem chooseSlot_of_rejected {s : State} {k : Nat} (h : slotAccepted s (k * s.cfg.slot) = false)
    (best : Option (Nat × Word)) : chooseSlot s best k = best := by
  cases best <;> simp [chooseSlot, h]

theorem chooseSlot_none {s : State} {k : Nat} (h : slotAccepted s (k * s.cfg.slot) = true) :
    chooseSlot s none k = some (k * s.cfg.slot, slotCounter s (k * s.cfg.slot)) := if_pos h

theorem chooseSlot_some {s : State} {k : Nat} (h : slotAccepted s (k * s.cfg.slot) = true) (a : Nat) (ctr : Word) :
    chooseSlot s (some (a, ctr)) k
      = if newerThan s.cfg.newer (slotCounter s (k * s.cfg.slot)) ctr = true then
          some (k * s.cfg.slot, slotCounter s (k * s.cfg.slot))
        else some (a, ctr) := by
  simp only [chooseSlot, h, Bool.true_and]

/-- A rejected slot, or one that is not newer, leaves the choice. -/
theorem BestBelow.succ {s : State} {n k : Nat} (h : BestBelow s n k)
    (hn : slotAccepted s (n * s.cfg.slot) = true →
      newerThan s.cfg.newer (slotCounter s (n * s.cfg.slot)) (slotCounter s (k * s.cfg.slot)) = false) :
    BestBelow s (n + 1) k where
  lt := Nat.lt_succ_of_lt h.lt
  accepted := h.accepted
  later j hkj hj hacc := by
    rcases Nat.lt_succ_iff_lt_or_eq.1 hj with hj | rfl
    · exact h.later j hkj hj hacc
    · exact hn hacc
  earlier := h.earlier

/-- The first candidate is the choice. -/
theorem bestBelow_first {s : State} {n : Nat} (hacc : slotAccepted s (n * s.cfg.slot) = true)
    (h : ∀ j, j < n → slotAccepted s (j * s.cfg.slot) = false) : BestBelow s (n + 1) n where
  lt := Nat.lt_succ_self n
  accepted := hacc
  later j hnj hj := by omega
  earlier f _ j hj hjacc := by simp [h j hj] at hjacc

/-- A newer candidate becomes the choice: its rank is above that of the choice so far, which no candidate between the
two exceeds. -/
theorem BestBelow.replace {s : State} {n k : Nat} (h : BestBelow s n k) (hn : n < s.cfg.nslots)
    (hacc : slotAccepted s (n * s.cfg.slot) = true)
    (hnew : newerThan s.cfg.newer (slotCounter s (n * s.cfg.slot)) (slotCounter s (k * s.cfg.slot)) = true) :
    BestBelow s (n + 1) n where
  lt := Nat.lt_succ_self n
  accepted := hacc
  later j hnj hj := by omega
  earlier f hf j hj hjacc := by
    have hkn := h.lt
    have hk : Candidate s k := ⟨by omega, h.accepted⟩
    have habove := (hf n k ⟨hn, hacc⟩ hk).1 hnew
    rcases Nat.lt_trichotomy j k with hjk | rfl | hkj
    · exact (h.earlier f hf j hjk hjacc).trans habove
    · exact habove
    · have hnot : ¬ f (slotCounter s (k * s.cfg.slot)) < f (slotCounter s (j * s.cfg.slot)) := by
        rw [← hf j k ⟨by omega, hjacc⟩ hk, h.later j hkj hj hjacc]
        exact Bool.false_ne_true
      omega

/-- One round of the loop. -/
theorem holdsBest_chooseSlot {s : State} {n : Nat} {best : Option (Nat × Word)} (hn : n < s.cfg.nslots)
    (h : HoldsBest s n best) : HoldsBest s (n + 1) (chooseSlot s best n) := by
  cases hacc : slotAccepted s (n * s.cfg.slot) with
  | false =>
    rw [chooseSlot_of_rejected hacc]
    match best, h with
    | none, h =>
      intro j hj
      rcases Nat.lt_succ_iff_lt_or_eq.1 hj with hj | rfl
      · exact h j hj
      · exact hacc
    | some (a, ctr), ⟨k, hk, ha, hctr⟩ => exact ⟨k, hk.succ (by simp [hacc]), ha, hctr⟩
  | true =>
    match best, h with
    | none, h =>
      rw [chooseSlot_none hacc]
      exact ⟨n, bestBelow_first hacc h, rfl, rfl⟩
    | some (_, _), ⟨k, hk, rfl, rfl⟩ =>
      rw [chooseSlot_some hacc]
      split
      next hnew => exact ⟨n, hk.replace hn hacc hnew, rfl, rfl⟩
      next hnot => exact ⟨k, hk.succ fun _ => Bool.eq_false_iff.2 hnot, rfl, rfl⟩

/-- The loop holds the best of all slots at its end. -/
theorem holdsBest_seekChoice (s : State) : HoldsBest s s.cfg.nslots (seekChoice s) := by
  have hfirst : ∀ n, n ≤ s.cfg.nslots → HoldsBest s n ((List.range n).foldl (chooseSlot s) none) := by
    intro n
    induction n with
    | zero => exact fun _ j hj => absurd hj (Nat.not_lt_zero j)
    | succ n ih =>
      intro hn
      rw [foldl_range_succ]
      exact holdsBest_chooseSlot hn (ih (Nat.le_of_succ_le hn))
  exact hfirst s.cfg.nslots (Nat.le_refl _)

/-- The choice has the highest rank, and of the candidates with its counter it is the lowest. -/
theorem BestBelow.highest {s : State} {k : Nat} (h : BestBelow s s.cfg.nslots k) {f : Word → Nat}
    (hf : RanksCandidates s f) {j : Nat} (hj : Candidate s j) :
    f (slotCounter s (j * s.cfg.slot)) ≤ f (slotCounter s (k * s.cfg.slot))
      ∧ (slotCounter s (j * s.cfg.slot) = slotCounter s (k * s.cfg.slot) → k ≤ j) := by
  rcases Nat.lt_trichotomy j k with hjk | rfl | hkj
  · have hlt := h.earlier f hf j hjk hj.2
    exact ⟨hlt.le, fun he => by rw [he] at hlt; omega⟩
  · exact ⟨Nat.le_refl _, fun _ => Nat.le_refl _⟩
  · have hnot := hf j k hj ⟨h.lt, h.accepted⟩
    rw [h.later j hkj hj.1 hj.2] at hnot
    exact ⟨Nat.not_lt.1 fun hlt => Bool.false_ne_true (hnot.2 hlt), fun _ => hkj.le⟩

theorem ranksCandidates_unsigned {s : State} (h : s.cfg.newer = .unsigned) : RanksCandidates s BitVec.toNat := by
  intro i j _ _
  rw [h, newerThan_unsigned]

/-- Counters less than `2 ^ 31` above a base are compared by their distance from it. -/
theorem newerThan_serial_of_base {a b base : Word} (ha : (a - base).toNat < 2 ^ 31) (hb : (b - base).toNat < 2 ^ 31) :
    newerThan .serial a b = true ↔ (b - base).toNat < (a - base).toNat := by
  rw [newerThan_serial]
  simp only [toNat_sub_eq] at ha hb ⊢
  omega

theorem ranksCandidates_serial {s : State} (h : s.cfg.newer = .serial) {base : Word}
    (hbase : ∀ j, Candidate s j → (slotCounter s (j * s.cfg.slot) - base).toNat < 2 ^ 31) :
    RanksCandidates s fun ctr => (ctr - base).toNat := by
  intro i j hi hj
  rw [h, newerThan_serial_of_base (hbase i hi) (hbase j hj)]

/-- Settles O42: the default comparison ranks by the counter, the serial one by the distance from the base. -/
theorem rseekFindsGreatestCounter : Obligations.RseekFindsGreatestCounter := by
  unfold Obligations.RseekFindsGreatestCounter
  intro s hinv accepted counter
  have hv := hinv.1
  have hbest := holdsBest_seekChoice s
  refine ⟨_, exec_rseek_eq hv, ?_⟩
  cases hc : seekChoice s with
  | none =>
    rw [hc] at hbest
    have hnone : ¬ ∃ k, accepted k := fun ⟨k, hk, hacc⟩ => by simp [hbest k hk] at hacc
    simp [chosenAddr_of_none hc, chosenCounter_of_none hc, hc, hnone]
  | some best =>
    obtain ⟨a, ctr⟩ := best
    have haddr := toNat_seekChoice hv hc
    rw [hc] at hbest
    obtain ⟨k, hk, rfl, rfl⟩ := hbest
    have hacc : accepted k := ⟨hk.lt, hk.accepted⟩
    simp only [State.complete_seekValid, State.complete_seekAddr, State.complete_seekCtr, State.withSeek_seekValid,
      State.withSeek_seekAddr, State.withSeek_seekCtr, chosenAddr_of_some hc, chosenCounter_of_some hc, hc,
      Option.isSome_some]
    refine ⟨iff_of_true trivial ⟨k, hacc⟩, fun _ => ⟨k, hacc, haddr, rfl, ?_, ?_, ?_⟩, fun h => ?_⟩
    · exact fun j hkj hj => hk.later j hkj hj.1 hj.2
    · exact fun hnewer j hj => hk.highest (ranksCandidates_unsigned hnewer) hj
    · exact fun hnewer base hbase j hj => hk.highest (ranksCandidates_serial hnewer hbase) hj
    · cases h

end Sys2Proof.Machine
end

section
/-! SUPPORT. RLOAD (spec/43_ring_manager.md R172 to R174): the chosen slot is read once more and, where there is one,
its record decoded. -/

namespace Sys2Proof.Machine

/-! ### The load (R172, R173) -/

theorem counterOfBytes_congr (o : ByteOrder) {B C : List Byte} (h : ∀ i, i < 4 → B.getD i 0 = C.getD i 0) :
    counterOfBytes o B = counterOfBytes o C := by
  cases o <;> simp only [counterOfBytes, h 0 (by decide), h 1 (by decide), h 2 (by decide), h 3 (by decide)]

/-- The first four bytes of the decoded file are the counter that a seek reads from block 0 (R162). -/
theorem counterOfBytes_fileDecode {c : Config} (hv : c.Valid) {F : List Block} (hF : F.length = c.bc) :
    counterOfBytes c.byteOrder (fileDecode c.bitOrder c.dSize F) = counterOfFile c F := by
  have hbc := bc_pos hv
  cases F with
  | nil => simp at hF; omega
  | cons b F =>
    refine counterOfBytes_congr _ fun i hi => ?_
    have hd : i < c.dSize := hi.trans_le hv.1
    have hmsg : i < (bytesOfMessage c.bitOrder (hammingDecode b)).length := by
      rw [length_bytesOfMessage]
      omega
    simp only [fileDecode, List.flatMap_cons, List.getD_eq_getElem?_getD, List.getElem?_take_of_lt hd,
      List.getElem?_append_left hmsg, List.getElem?_cons_zero, Option.getD_some]

/-- The accesses of a load from the slot at `a`: the seek's, and those of the slot once more (R174). -/
def loadEvents (s : State) (a : Nat) : List Event :=
  s.ee.readEvents 0 (s.cfg.nslots * s.cfg.slot) ++ s.ee.readEvents a s.cfg.slot

theorem countWrites_readEvents (m : Memory) (a n : Nat) : countWrites (m.readEvents a n) = 0 := by
  refine List.countP_eq_zero.2 fun e he => ?_
  obtain ⟨b, v, rfl⟩ := forall_mem_readEvents m a n e he
  exact Bool.false_ne_true

theorem countReads_readEvents (m : Memory) (a n : Nat) : countReads (m.readEvents a n) = n := by
  have hall : countReads (m.readEvents a n) = (m.readEvents a n).length := by
    refine List.countP_eq_length.2 fun e he => ?_
    obtain ⟨b, v, rfl⟩ := forall_mem_readEvents m a n e he
    rfl
  rw [hall, Memory.readEvents, List.length_map, List.length_range]

theorem countWrites_loadEvents (s : State) (a : Nat) : countWrites (loadEvents s a) = 0 := by
  rw [loadEvents, countWrites, List.countP_append]
  exact congrArg₂ (· + ·) (countWrites_readEvents ..) (countWrites_readEvents ..)

theorem countReads_loadEvents (s : State) (a : Nat) :
    countReads (loadEvents s a) = (s.cfg.nslots + 1) * s.cfg.slot := by
  rw [loadEvents, countReads, List.countP_append, Nat.succ_mul]
  exact congrArg₂ (· + ·) (countReads_readEvents ..) (countReads_readEvents ..)

theorem slotAccepted_congr {s t : State} (hc : t.cfg = s.cfg) (he : t.ee = s.ee) (a : Nat) :
    slotAccepted t a = slotAccepted s a := by
  rw [slotAccepted, slotReport_congr hc he, slotAccepted]

/-- Reading one more slot after a seek leaves that slot in PHYS, FB and SCRUB_*. -/
theorem State.readSlot_withSeek (s : State) (b : Nat) (es : List Event) (a : Nat) :
    (s.withSeek b es).readSlot a = s.withSeek a (es ++ s.ee.readEvents a s.cfg.slot) := by
  rw [State.readSlot_eq]
  simp only [State.withSeek, List.append_assoc]
  rfl

/-- The load reads an accepted slot exactly where the seek chose one, for otherwise it reads slot 0. -/
theorem slotAccepted_chosenAddr {s : State} (hv : s.cfg.Valid) :
    slotAccepted s (chosenAddr s) = (seekChoice s).isSome := by
  unfold chosenAddr
  cases hc : seekChoice s with
  | none =>
    have hfirst := seekChoice_none.1 hc 0 (nslots_pos hv)
    rwa [Nat.zero_mul] at hfirst
  | some best =>
    obtain ⟨k, -, -, hacc, -⟩ := seekChoice_some hc
    exact hacc

/-- Everything RLOAD does. -/
theorem exec_rload_eq {s : State} (hv : s.cfg.Valid) :
    exec .rload s
      = .next (if (seekChoice s).isSome = true then
          { s.withSeek (chosenAddr s) (loadEvents s (chosenAddr s)) with
            lbuf := fileDecode s.cfg.bitOrder s.cfg.dSize (slotBlocks s (chosenAddr s))
            wctr := slotCounter s (chosenAddr s)
            ret := 1 }
        else
          { s.withSeek (chosenAddr s) (loadEvents s (chosenAddr s)) with
            evCorrupted := true, ret := 0 }).complete := by
  have hcfg : s.seek.cfg = s.cfg := by rw [State.seek_eq hv, State.withSeek_cfg]
  have hee : s.seek.ee = s.ee := by rw [State.seek_eq hv, State.withSeek_ee]
  have haddr : s.seek.seekAddr.toNat = chosenAddr s := by
    rw [State.seek_eq hv, State.withSeek_seekAddr, toNat_chosenAddr hv]
  rw [exec_rload_next hv, haddr, State.loadSlot_eq (hcfg ▸ hv), slotAccepted_congr hcfg hee,
    slotAccepted_chosenAddr hv, slotBlocks_congr hcfg hee, hcfg, counterOfBytes_fileDecode hv (length_slotBlocks ..),
    State.seek_eq hv, State.readSlot_withSeek]
  rfl

/-- RLOAD where the seek chooses a slot (R172). -/
theorem exec_rload_of_some {s : State} (hv : s.cfg.Valid) {a : Nat} {ctr : Word} (hc : seekChoice s = some (a, ctr)) :
    exec .rload s
      = .next
        { s.withSeek a (loadEvents s a) with
          lbuf := fileDecode s.cfg.bitOrder s.cfg.dSize (slotBlocks s a), wctr := ctr, ret := 1 }.complete := by
  have hsome : (seekChoice s).isSome = true := congrArg Option.isSome hc
  obtain ⟨k, -, -, -, hctr⟩ := seekChoice_some hc
  rw [exec_rload_eq hv, if_pos hsome, chosenAddr_of_some hc, hctr]

/-- RLOAD where the seek chooses none (R173). -/
theorem exec_rload_of_none {s : State} (hv : s.cfg.Valid) (hc : seekChoice s = none) :
    exec .rload s = .next { s.withSeek 0 (loadEvents s 0) with evCorrupted := true, ret := 0 }.complete := by
  have hnone : ¬ (seekChoice s).isSome = true := by simp [hc]
  rw [exec_rload_eq hv, if_neg hnone, chosenAddr_of_none hc]

/-- Settles O43. -/
theorem rloadLoadsFreshest : Obligations.RloadLoadsFreshest := by
  unfold Obligations.RloadLoadsFreshest
  intro s hinv
  have hv := hinv.1
  have hnum := fun a => toNat_scrubCount hv (slotReport_le s a)
  have hcorr := fun a => toNat_scrubCount hv (slotReport_corrected_le s a)
  have huncorr := fun a => toNat_scrubCount hv (slotReport_uncorrected_le s a)
  have hevents := fun a => And.intro (countWrites_loadEvents s a) (countReads_loadEvents s a)
  have haddr := toNat_chosenAddr hv
  have hvalid : ∀ best, seekChoice s = best → (seekChoice s).isSome = best.isSome := fun _ => congrArg Option.isSome
  cases hc : seekChoice s with
  | none =>
    have hnonzero : BitVec.ofNat 32 (slotReport s 0).uncorrected ≠ 0 := by
      rw [Ne, scrubUncorr_eq_zero hv, ← chosenAddr_of_none hc, slotAccepted_chosenAddr hv, hc]
      exact Bool.false_ne_true
    refine ⟨_, exec_rload_of_none hv hc, fun a ctr h => ?_, fun _ => ?_, ⟨_, rfl, hevents 0⟩, rfl⟩
    · cases h
    · exact ⟨hvalid _ hc, congrArg (BitVec.ofNat 32) (chosenAddr_of_none hc), chosenCounter_of_none hc, rfl, rfl, rfl,
        hnum 0, hcorr 0, huncorr 0, hnonzero, rfl, rfl, rfl⟩
  | some best =>
    obtain ⟨a, ctr⟩ := best
    obtain ⟨k, -, -, hacc, -⟩ := seekChoice_some hc
    refine ⟨_, exec_rload_of_some hv hc, fun b w h => ?_, fun h => ?_, ⟨_, rfl, hevents a⟩, rfl⟩
    · cases h
      exact ⟨hvalid _ hc, haddr.trans (chosenAddr_of_some hc), chosenCounter_of_some hc, rfl, rfl, rfl, hnum a, hcorr a,
        (scrubUncorr_eq_zero hv a).2 hacc, rfl, rfl, rfl⟩
    · cases h

end Sys2Proof.Machine
end

section
/-! SUPPORT. Wear leveling (spec/43_ring_manager.md R175): the slot a save writes is accepted with the new counter and
the others stay as they were, so that the slot written last is the one a seek with the default comparison chooses. -/

namespace Sys2Proof.Machine

/-! ### The slots after a save -/

/-- A record with its counter in place has the record's size (R164). -/
theorem length_putCounter_record {s : State} (hinv : s.Inv) (w : Word) :
    (putCounter s.cfg.byteOrder w s.lbuf).length = s.cfg.dSize := by
  obtain ⟨⟨hmin, -⟩, ⟨-, -, hlbuf, -⟩, -⟩ := hinv
  rw [length_putCounter]
  omega

/-- The counter of an encoded record is the one in its first four bytes (R162, R164). -/
theorem counterOfFile_fileEncode_putCounter {s : State} (hinv : s.Inv) (w : Word) :
    counterOfFile s.cfg (fileEncode s.cfg.bitOrder s.cfg.bc (putCounter s.cfg.byteOrder w s.lbuf)) = w := by
  have hlen := length_putCounter_record hinv w
  have hdecode := fileDecode_fileEncode s.cfg.bitOrder (hlen.trans_le (dSize_le_blockBytes s.cfg))
  rw [hlen] at hdecode
  rw [← counterOfBytes_fileDecode hinv.1 (length_fileEncode ..), hdecode, counterOfBytes_putCounter]

/-- A slot that holds the image of an encoded buffer is accepted, with the buffer's blocks. -/
theorem slot_of_encoded_image {t : State} {a : Nat} {L : List Byte}
    (h : t.ee.readBytes a t.cfg.slot = fileGetData t.cfg.bitOrder (fileEncode t.cfg.bitOrder t.cfg.bc L)) :
    slotAccepted t a = true ∧ slotBlocks t a = fileEncode t.cfg.bitOrder t.cfg.bc L := by
  have hfill := fileFill_fileGetData t.cfg.bitOrder (fileEncode t.cfg.bitOrder t.cfg.bc L)
  rw [length_fileEncode] at hfill
  have hscrub := fileScrub_of_noError (hammingScan_of_mem_fileEncode t.cfg.oorPolicy (o := t.cfg.bitOrder)
    (n := t.cfg.bc) (L := L))
  simp [slotAccepted, slotReport, slotBlocks, h, hfill, hscrub]

/-- Slots of the ring do not overlap. -/
theorem slots_disjoint {c : Config} {j k : Nat} (h : j * c.slot ≠ k * c.slot) :
    j * c.slot + c.slot ≤ k * c.slot ∨ k * c.slot + c.slot ≤ j * c.slot := by
  rw [← Nat.succ_mul, ← Nat.succ_mul]
  rcases Nat.lt_or_gt_of_ne fun hjk : j = k => h (by rw [hjk]) with hlt | hlt
  · exact .inl (Nat.mul_le_mul_right _ hlt)
  · exact .inr (Nat.mul_le_mul_right _ hlt)

/-- A save leaves the bytes of every slot but the new counter's. -/
theorem readBytes_saveDiff_other {s : State} (hwf : s.ee.wf = true) {k : Nat}
    (hk : k * s.cfg.slot ≠ slotAddress s.cfg (s.wctr + 1)) :
    (saveDiff s).ee.readBytes (k * s.cfg.slot) s.cfg.slot = s.ee.readBytes (k * s.cfg.slot) s.cfg.slot := by
  obtain ⟨-, hrest⟩ := read_saveDiff hwf
  have haddr := slotAddress_eq s.cfg (s.wctr + 1)
  rw [haddr] at hk
  have hdisjoint := slots_disjoint hk
  exact readBytes_congr fun i hi => hrest _ (by omega)

/-- A slot whose bytes are the same is accepted alike, with the same counter. -/
theorem slot_congr {s t : State} {a : Nat} (hc : t.cfg = s.cfg)
    (h : t.ee.readBytes a s.cfg.slot = s.ee.readBytes a s.cfg.slot) :
    slotAccepted t a = slotAccepted s a ∧ slotCounter t a = slotCounter s a := by
  simp only [slotAccepted, slotReport, slotCounter, slotBlocks, hc, h, and_self]

/-! ### The slot written last (R175) -/

/-- No candidate's counter is above WCTR: the premise of R175. -/
def CountersBounded (s : State) : Prop :=
  ∀ k, Candidate s k → (slotCounter s (k * s.cfg.slot)).toNat ≤ s.wctr.toNat

/-- The slot of WCTR is accepted with WCTR as its counter, and every other candidate has a lower one. -/
structure HoldsNewest (s : State) : Prop where
  accepted : slotAccepted s (slotAddress s.cfg s.wctr) = true
  counter : slotCounter s (slotAddress s.cfg s.wctr) = s.wctr
  others : ∀ k, Candidate s k → k * s.cfg.slot ≠ slotAddress s.cfg s.wctr →
    (slotCounter s (k * s.cfg.slot)).toNat < s.wctr.toNat

theorem HoldsNewest.bounded {s : State} (h : HoldsNewest s) : CountersBounded s := by
  intro k hk
  by_cases haddr : k * s.cfg.slot = slotAddress s.cfg s.wctr
  · rw [haddr, h.counter]
  · exact (h.others k hk haddr).le

/-- Where no candidate's counter is above WCTR, a save makes the slot it writes the newest. -/
theorem exec_rsave_holdsNewest {s : State} (hinv : s.Inv) (hb : CountersBounded s) (hw : s.wctr.toNat + 1 < 2 ^ 32) :
    ∃ t, exec .rsave s = .next t ∧ t.Inv ∧ t.cfg = s.cfg ∧ t.wctr.toNat = s.wctr.toNat + 1
      ∧ HoldsNewest t := by
  obtain ⟨hv, -, ⟨hwf, -⟩, -⟩ := id hinv
  have hmax : s.wctr ≠ 0xFFFFFFFF := by bv_omega
  have hexec := exec_rsave_next hv (.inl hmax)
  refine ⟨_, hexec, exec_keeps_inv hinv hexec, rfl, toNat_add_one hmax, ?_⟩
  have himage := readBytes_diffWrite hwf (slotAddress s.cfg (s.wctr + 1)) (savedImage s)
  rw [length_savedImage] at himage
  obtain ⟨hacc, hblocks⟩ := slot_of_encoded_image (t := { s with ee := (saveDiff s).ee }) himage
  refine ⟨hacc, ?_, fun k hk haddr => ?_⟩
  · exact (congrArg (counterOfFile s.cfg) hblocks).trans (counterOfFile_fileEncode_putCounter hinv _)
  · obtain ⟨hacc', hctr⟩ :=
      slot_congr (s := s) (t := { s with ee := (saveDiff s).ee }) rfl (readBytes_saveDiff_other hwf haddr)
    have hbound := hb k ⟨hk.1, hacc'.symm.trans hk.2⟩
    rw [← hctr] at hbound
    exact (Nat.lt_succ_of_le hbound).trans_eq (toNat_add_one hmax).symm

/-- One save of `saveAll`: the host fills LBUF, then RSAVE. -/
theorem saveAll_cons {s t : State} {L : List Byte} (h : exec .rsave { s with lbuf := L } = .next t)
    (rest : List (List Byte)) : saveAll (L :: rest) s = saveAll rest t := by
  rw [saveAll, h, andThen]

/-- The host may fill LBUF with any record (R175). -/
theorem State.Inv.withLbuf {s : State} (h : s.Inv) {L : List Byte} (hL : L.length = s.cfg.dSize) :
    ({ s with lbuf := L } : State).Inv := by
  obtain ⟨hmsg, hblk, -, hfb, hphys⟩ := h.2.1
  exact h.withBuffers ⟨hmsg, hblk, hL, hfb, hphys⟩

/-- One or more saves make the slot written last the newest. -/
theorem saveAll_holdsNewest {L : List Byte} {rest : List (List Byte)} {s : State} (hinv : s.Inv)
    (hb : CountersBounded s) (hrec : ∀ M ∈ L :: rest, M.length = s.cfg.dSize)
    (hw : s.wctr.toNat + (L :: rest).length < 2 ^ 32) :
    ∃ t, saveAll (L :: rest) s = .next t ∧ t.cfg = s.cfg
      ∧ t.wctr.toNat = s.wctr.toNat + (L :: rest).length ∧ HoldsNewest t := by
  induction rest generalizing s L with
  | nil =>
    obtain ⟨t, ht, -, hcfg, hctr, hnewest⟩ :=
      exec_rsave_holdsNewest (hinv.withLbuf (hrec L List.mem_cons_self)) hb hw
    exact ⟨t, saveAll_cons ht [], hcfg, hctr, hnewest⟩
  | cons M rest ih =>
    obtain ⟨hL, hrest⟩ := List.forall_mem_cons.1 hrec
    rw [List.length_cons] at hw ⊢
    have hw1 : s.wctr.toNat + 1 < 2 ^ 32 := by rw [List.length_cons] at hw; omega
    obtain ⟨t, ht, hinv', hcfg, hctr, hnewest⟩ := exec_rsave_holdsNewest (hinv.withLbuf hL) hb hw1
    have hsum : t.wctr.toNat + (M :: rest).length = s.wctr.toNat + ((M :: rest).length + 1) := by
      rw [hctr, Nat.add_assoc, Nat.add_comm 1]
    obtain ⟨u, hu, hcfg', hctr', hnewest'⟩ := ih hinv' hnewest.bounded (hcfg ▸ hrest) (hsum ▸ hw)
    exact ⟨u, (saveAll_cons ht _).trans hu, hcfg'.trans hcfg, hctr'.trans hsum, hnewest'⟩

/-- With the default comparison a seek chooses the newest slot. -/
theorem seekChoice_of_holdsNewest {s : State} (hv : s.cfg.Valid) (hnewer : s.cfg.newer = .unsigned)
    (h : HoldsNewest s) : seekChoice s = some (slotAddress s.cfg s.wctr, s.wctr) := by
  obtain ⟨hacc, hctr, hothers⟩ := h
  have haddr := slotAddress_eq s.cfg s.wctr
  have hslot : Candidate s (s.wctr.toNat % s.cfg.nslots) := ⟨Nat.mod_lt _ (nslots_pos hv), haddr ▸ hacc⟩
  have hbest := holdsBest_seekChoice s
  match seekChoice s, hbest with
  | none, hnone =>
    have hrejected := hnone _ hslot.1
    rw [hslot.2] at hrejected
    cases hrejected
  | some (_, _), ⟨k, hk, rfl, rfl⟩ =>
    obtain ⟨hle, -⟩ := hk.highest (ranksCandidates_unsigned hnewer) hslot
    rw [← haddr, hctr] at hle
    have hchosen : k * s.cfg.slot = slotAddress s.cfg s.wctr :=
      by_contra fun hne => (hothers k ⟨hk.lt, hk.accepted⟩ hne).not_ge hle
    rw [hchosen, hctr]

/-- Settles O44. -/
theorem wearLevelingMonotonicity : Obligations.WearLevelingMonotonicity := by
  unfold Obligations.WearLevelingMonotonicity
  intro s records hinv hnewer hne hrec hbound hw
  obtain ⟨L, rest, rfl⟩ := List.exists_cons_of_ne_nil hne
  have hb : CountersBounded s := fun k hk => hbound k hk.1 hk.2
  obtain ⟨t, ht, hcfg, hctr, hnewest⟩ := saveAll_holdsNewest hinv hb hrec hw
  have hv : t.cfg.Valid := hcfg ▸ hinv.1
  have hc := seekChoice_of_holdsNewest hv (hcfg ▸ hnewer) hnewest
  have hlast : t.wctr = s.wctr + BitVec.ofNat 32 (L :: rest).length :=
    BitVec.eq_of_toNat_eq (by rw [hctr, BitVec.toNat_add, BitVec.toNat_ofNat, Nat.add_mod_mod, Nat.mod_eq_of_lt hw])
  have haddr : chosenAddr t = slotAddress s.cfg (s.wctr + BitVec.ofNat 32 (L :: rest).length) := by
    rw [chosenAddr_of_some hc, ← hcfg, ← hlast]
  exact ⟨t, _, ht, exec_rseek_eq hv, congrArg Option.isSome hc,
    (congrArg BitVec.toNat (chosenCounter_of_some hc)).trans hctr, (toNat_chosenAddr hv).trans haddr⟩

end Sys2Proof.Machine
end

section
/-! SUPPORT. The system commands (spec/44_system_commands.md): NOP, INIT, and EERD and EEWR at an address of the device
and beyond it (R181 to R185). -/

namespace Sys2Proof.Machine

/-! ### The address in the device and beyond it -/

theorem State.eeOperand_of_lt {s : State} (h : s.arg0.toNat < s.cfg.eepromSize) :
    s.eeOperand = .ok s.arg0.toNat := if_pos h

theorem State.eeOperand_of_le {s : State} (h : s.cfg.eepromSize ≤ s.arg0.toNat) :
    s.eeOperand = .error ⟨.eeAddrOob, s.arg0⟩ := if_neg (Nat.not_lt.2 h)

/-- EERD in range (R184). -/
theorem exec_eerd_of_lt {s : State} (h : s.arg0.toNat < s.cfg.eepromSize) :
    exec .eerd s
      = .next { s with
          ret := BitVec.ofNat 32 (s.ee.read s.arg0.toNat).toNat
          err := .ok
          history := s.history ++ [.eeRead s.arg0.toNat (s.ee.read s.arg0.toNat)] } := by
  obtain ⟨hread, -⟩ := exec_ee_ok (State.eeOperand_of_lt h)
  rw [hread, BitVec.ofNat_toNat]
  rfl

/-- EEWR in range (R185). -/
theorem exec_eewr_of_lt {s : State} (data : Byte) (h : s.arg0.toNat < s.cfg.eepromSize) :
    exec (.eewr data) s
      = .next { s with
          ee := s.ee.write s.arg0.toNat data
          err := .ok
          history := s.history ++ [.eeWrite s.arg0.toNat data] } := by
  obtain ⟨-, hwrite⟩ := exec_ee_ok (State.eeOperand_of_lt h)
  exact hwrite data

/-! ### The obligations -/

/-- Settles O10. -/
theorem nopClearsErrOnly : Obligations.NopClearsErrOnly := by
  unfold Obligations.NopClearsErrOnly
  exact fun _ => rfl

/-- Settles O11. -/
theorem initClearsVolatileState : Obligations.InitClearsVolatileState := by
  unfold Obligations.InitClearsVolatileState
  exact fun _ => rfl

/-- Settles O12. -/
theorem eerdReadsByte : Obligations.EerdReadsByte := by
  unfold Obligations.EerdReadsByte
  intro s
  refine ⟨exec_eerd_of_lt, fun hbeyond => ?_⟩
  obtain ⟨hread, -⟩ := exec_ee_error (State.eeOperand_of_le hbeyond)
  exact hread

/-- Settles O13: the state EEWR leaves is written out, and a read of its EEPROM is a read after one write. -/
theorem eewrWritesByte : Obligations.EewrWritesByte := by
  unfold Obligations.EewrWritesByte
  rintro s data ⟨hwf, -⟩
  refine ⟨fun hin => ⟨_, exec_eewr_of_lt data hin, ?written, fun a ha => ?others, rfl⟩, fun hbeyond => ?refused⟩
  case written => exact (Memory.read_write hwf _ _ _).trans (if_pos rfl)
  case others => exact (Memory.read_write hwf _ _ _).trans (if_neg ha)
  case refused =>
    obtain ⟨-, hwrite⟩ := exec_ee_error (State.eeOperand_of_le hbeyond)
    exact hwrite data

end Sys2Proof.Machine
end

section
/-! SUPPORT. Fault logging and the action loop of the host (spec/48_host_software_contract.md R199 to R205): what one
count does to an entry, what one log does to the table, and the loop of `handleFaults()` entry by entry. -/

namespace Sys2Proof.Machine

/-! ### One occurrence counted (R200, R202) -/

/-- `occurrences` counts up to 255. -/
theorem FaultReport.toNat_count_occurrences (r : FaultReport) (startCount : BitVec 16) (nowMs : Nat) :
    (r.count startCount nowMs).occurrences.toNat = min 255 (r.occurrences.toNat + 1) := by
  have hlt := r.occurrences.isLt
  simp only [FaultReport.count]
  split
  next hbelow =>
    have hfits : r.occurrences.toNat + (1 : Byte).toNat < 2 ^ 8 := Nat.succ_lt_succ hbelow
    exact (BitVec.toNat_add_of_lt hfits).trans (Nat.min_eq_right hbelow).symm
  next hfull => omega

/-- The pending action is set on the transitions to 1 and to 255, and kept otherwise. -/
theorem FaultReport.count_pendingAction (r : FaultReport) (startCount : BitVec 16) (nowMs : Nat) :
    (r.count startCount nowMs).pendingAction = true
      ↔ r.pendingAction = true ∨ r.occurrences.toNat = 0 ∨ r.occurrences.toNat = 254 := by
  have hcount := r.toNat_count_occurrences startCount nowMs
  have hmark : (r.count startCount nowMs).pendingAction
      = (r.pendingAction || ((r.count startCount nowMs).occurrences != r.occurrences
        && ((r.count startCount nowMs).occurrences == 1 || (r.count startCount nowMs).occurrences == 255))) := rfl
  rw [hmark, Bool.or_eq_true]
  refine or_congr_right ?_
  simp only [Bool.and_eq_true, Bool.or_eq_true, bne_iff_ne, beq_iff_eq, Ne, ← BitVec.toNat_inj, hcount,
    BitVec.reduceToNat]
  omega

/-- An entry with its pending mark cleared (R203). -/
def FaultReport.cleared (r : FaultReport) : FaultReport := { r with pendingAction := false }

theorem FaultReport.cleared_of_not_pending {r : FaultReport} (h : r.pendingAction = false) : r.cleared = r := by
  rw [FaultReport.cleared, ← h]

/-- Settles O56, by induction on the number of calls. -/
theorem faultCountSaturates : Obligations.FaultCountSaturates := by
  unfold Obligations.FaultCountSaturates
  intro startCount nowMs k r
  have hr : r.occurrences.toNat = min k 255 ∧ r.pendingAction = false := by
    induction k with
    | zero => exact ⟨rfl, rfl⟩
    | succ k ih =>
      obtain ⟨hcount, -⟩ := ih
      simp only [r, Function.iterate_succ_apply', FaultReport.toNat_count_occurrences, hcount, and_true]
      omega
  obtain ⟨hcount, hpending⟩ := hr
  refine ⟨hcount, ?_⟩
  rw [FaultReport.count_pendingAction, hpending, hcount]
  simp only [Bool.false_eq_true, false_or]
  omega

/-! ### One log (R199, R200) -/

/-- Logging a code of the table counts its entry and marks a save. -/
theorem HostState.logFault_of_lt (h : HostState) {c : Nat} (hc : c < h.params.nf) (nowMs : Nat) :
    h.logFault c nowMs
      = { h with
          table := h.table.modify c fun r => r.count h.payload.startCount nowMs
          saveRequired := true } :=
  if_pos ⟨Int.natCast_nonneg c, Int.ofNat_lt.2 hc⟩

/-- Logging a code outside the table only warns. -/
theorem HostState.logFault_of_invalid (h : HostState) {code : Int} (hc : code < 0 ∨ (h.params.nf : Int) ≤ code)
    (nowMs : Nat) : h.logFault code nowMs = h.say (.warnInvalidCode code) :=
  if_neg (by omega)

/-- Messaging decides what a line adds to what was emitted (R205). -/
theorem HostState.say_eq (h : HostState) (a : HostAction) :
    h.say a = { h with emitted := if h.messaging then h.emitted ++ [a] else h.emitted } := by
  unfold HostState.say
  split
  all_goals rfl

theorem getD_modify_self {α : Type} {l : List α} {i : Nat} (h : i < l.length) (f : α → α) (d : α) :
    (l.modify i f).getD i d = f (l.getD i d) := by
  simp [List.getD_eq_getElem?_getD, h]

theorem getD_modify_ne {α : Type} (l : List α) {i j : Nat} (h : j ≠ i) (f : α → α) (d : α) :
    (l.modify i f).getD j d = l.getD j d := by
  simp [List.getD_eq_getElem?_getD, List.getElem?_modify_ne _ _ h.symm]

/-- Settles O55. -/
theorem logFaultRules : Obligations.LogFaultRules := by
  unfold Obligations.LogFaultRules
  intro h code nowMs hlen
  refine ⟨fun hinvalid => ?_, ?_⟩
  · rw [h.logFault_of_invalid hinvalid, HostState.say_eq]
  · rintro c rfl hc
    rw [h.logFault_of_lt hc]
    have hnew := getD_modify_self (hlen ▸ hc) (fun r => r.count h.payload.startCount nowMs) FaultReport.default
    refine ⟨rfl, List.length_modify .., fun d hd => getD_modify_ne _ hd _ _, ?_⟩
    simp only [hnew]
    exact ⟨rfl, BitVec.toNat_ofNat .., FaultReport.toNat_count_occurrences .., FaultReport.count_pendingAction ..⟩

/-! ### The loop of `handleFaults()` (R203, R204) -/

/-- The corrective action of a code as the actions it emits (R204). -/
def HostState.actionOf (h : HostState) (c : Nat) : List HostAction :=
  if c = h.params.unexpectedRestart ∨ c = h.params.eepromCorrupted then [HostAction.enterSafeMode]
  else if c ∈ h.params.temperatureFaults then [.setHeaterOverride false]
  else if h.messaging then [.logNoAction c] else []

theorem HostState.dispatch_eq (h : HostState) (c : Nat) :
    h.dispatch c = { h with emitted := h.emitted ++ h.actionOf c } := by
  unfold HostState.dispatch HostState.actionOf
  split
  · rfl
  · split
    · rfl
    · rw [HostState.say_eq]
      split
      · rfl
      · rw [List.append_nil]

/-- An action is pending for code `c`. -/
def HostState.isPending (h : HostState) (c : Nat) : Bool := (h.table.getD c FaultReport.default).pendingAction

/-- What one round for code `c` emits (R203). -/
def HostState.emittedFor (h : HostState) (c : Nat) : List HostAction :=
  if h.actOnFaults && h.isPending c then h.actionOf c else []

/-- Clearing the mark of an entry that has none changes nothing. -/
theorem modify_cleared_of_not_pending {l : List FaultReport} {c : Nat}
    (h : (l.getD c FaultReport.default).pendingAction = false) : l.modify c FaultReport.cleared = l := by
  refine List.ext_getElem? fun i => ?_
  rw [List.getElem?_modify]
  by_cases hi : c = i
  · subst hi
    rw [List.getD_eq_getElem?_getD] at h
    cases hentry : l[c]? with
    | none => rfl
    | some r =>
      rw [hentry] at h
      simpa using FaultReport.cleared_of_not_pending h
  · simp [hi]

/-- One round clears the code's mark and emits its action where one was pending. -/
theorem HostState.handleCode_eq (h : HostState) (c : Nat) :
    h.handleCode c
      = { h with table := h.table.modify c FaultReport.cleared, emitted := h.emitted ++ h.emittedFor c } := by
  by_cases hpending : (h.table.getD c FaultReport.default).pendingAction = true
  · rw [HostState.handleCode, if_pos hpending]
    cases hact : h.actOnFaults with
    | false =>
      simp only [HostState.emittedFor, hact, Bool.false_and, Bool.false_eq_true, if_false, List.append_nil]
      rfl
    | true =>
      simp only [HostState.emittedFor, HostState.isPending, hpending, hact, HostState.dispatch_eq, Bool.and_self,
        if_true]
      rfl
  · have hnone : h.isPending c = false := Bool.eq_false_iff.2 hpending
    rw [HostState.handleCode, if_neg hpending, modify_cleared_of_not_pending hnone]
    simp only [HostState.emittedFor, hnone, Bool.and_false, Bool.false_eq_true, if_false, List.append_nil]

theorem modify_map_take_append_drop {α : Type} (f : α → α) {l : List α} {n : Nat} (hn : n < l.length) :
    ((l.take n).map f ++ l.drop n).modify n f = (l.take (n + 1)).map f ++ l.drop (n + 1) := by
  have hlen : ((l.take n).map f).length = n := by simp; omega
  rw [List.modify_eq_take_drop, List.take_left' hlen, List.drop_left' hlen, List.drop_eq_getElem_cons hn,
    List.take_add_one, List.getElem?_eq_getElem hn, List.modifyHead_cons, List.map_append, List.append_assoc]
  rfl

/-- What the host is after the rounds for the codes below `n`. -/
def HostState.handledBelow (h : HostState) (n : Nat) : HostState :=
  { h with
    table := (h.table.take n).map FaultReport.cleared ++ h.table.drop n
    emitted := h.emitted ++ (List.range n).flatMap h.emittedFor }

/-- A round for a code does not touch the entries above it. -/
theorem HostState.emittedFor_handledBelow (h : HostState) {n : Nat} (hn : n < h.table.length) :
    (h.handledBelow n).emittedFor n = h.emittedFor n := by
  have hentry : (h.handledBelow n).isPending n = h.isPending n := by
    have hlen : ((h.table.take n).map FaultReport.cleared).length = n := by simp; omega
    rw [HostState.isPending, HostState.handledBelow, List.getD_eq_getElem?_getD, List.getElem?_append_right hlen.le,
      hlen, List.getElem?_drop, Nat.sub_self, Nat.add_zero, ← List.getD_eq_getElem?_getD]
    rfl
  simp only [HostState.emittedFor, hentry]
  rfl

theorem HostState.foldl_handleCode (h : HostState) {n : Nat} (hn : n ≤ h.table.length) :
    (List.range n).foldl HostState.handleCode h = h.handledBelow n := by
  induction n with
  | zero => simp [HostState.handledBelow]
  | succ n ih =>
    rw [foldl_range_succ, ih (Nat.le_of_succ_le hn), HostState.handleCode_eq, h.emittedFor_handledBelow hn]
    simp only [HostState.handledBelow, modify_map_take_append_drop _ hn, List.range_succ, List.flatMap_append,
      List.flatMap_singleton, List.append_assoc]

/-- Everything the loop does. -/
theorem HostState.handleCodes_eq {h : HostState} (hlen : h.table.length = h.params.nf) :
    h.handleCodes
      = { h with
          table := h.table.map FaultReport.cleared
          emitted := h.emitted ++ (List.range h.params.nf).flatMap h.emittedFor } := by
  rw [HostState.handleCodes, h.foldl_handleCode hlen.ge, HostState.handledBelow, ← hlen, List.take_length,
    List.drop_length, List.append_nil]

theorem flatMap_filter_eq {α β : Type} (p : α → Bool) (f : α → List β) (l : List α) :
    (l.filter p).flatMap f = l.flatMap fun x => if p x then f x else [] := by
  induction l with
  | nil => rfl
  | cons x l ih =>
    rw [List.filter_cons, List.flatMap_cons, ← ih]
    split
    · rfl
    · rfl

/-- Settles O60. -/
theorem handleFaultsClearsActions : Obligations.HandleFaultsClearsActions := by
  unfold Obligations.HandleFaultsClearsActions
  intro h hlen pending action
  rw [HostState.handleCodes_eq hlen]
  refine ⟨rfl, fun hoff => ?_, fun hon => ?_, rfl⟩
  · simp [HostState.emittedFor, hoff]
  · refine congrArg (h.emitted ++ ·) ?_
    rw [flatMap_filter_eq]
    exact List.flatMap_congr fun c _ => by simp only [HostState.emittedFor, hon, Bool.true_and]; rfl

end Sys2Proof.Machine
end

section
/-! SUPPORT. The host's record (spec/48_host_software_contract.md R191, R193): the value of a field's bytes, reading a
field at its offset, and the record deserialised field by field. -/

namespace Sys2Proof.Machine

/-! ### Fields (R66, R191) -/

/-- The low `n` bytes of a number, lowest first, are the number below `256 ^ n`. -/
theorem natOfBytes_shifts (n v : Nat) :
    natOfBytes ((List.range n).map fun i => BitVec.ofNat 8 (v >>> (8 * i))) = v % 256 ^ n := by
  induction n generalizing v with
  | zero => simp [natOfBytes, Nat.mod_one]
  | succ n ih =>
    have htail : (List.range n).map ((fun i => BitVec.ofNat 8 (v >>> (8 * i))) ∘ Nat.succ)
        = (List.range n).map fun i => BitVec.ofNat 8 ((v / 256) >>> (8 * i)) :=
      List.map_congr_left fun i _ => by
        rw [Function.comp_apply, Nat.mul_succ, Nat.add_comm, Nat.shiftRight_add, Nat.shiftRight_eq_div_pow v 8]
    rw [List.range_succ_eq_map, List.map_cons, List.map_map, htail, natOfBytes, ih, Nat.pow_succ', Nat.mod_mul]
    rfl

/-- A field has the value its bytes were made of, in either byte order. -/
theorem fieldValue_fieldBytes (o : ByteOrder) (n v : Nat) : fieldValue o (fieldBytes o n v) = v % 256 ^ n := by
  cases o with
  | le => exact natOfBytes_shifts n v
  | be => exact (congrArg natOfBytes (List.reverse_reverse _)).trans (natOfBytes_shifts n v)

/-- A word of `n` bytes is the value of its field. -/
theorem ofNat_fieldValue_fieldBytes (o : ByteOrder) {n w : Nat} (hw : 256 ^ n = 2 ^ w) (x : BitVec w) :
    BitVec.ofNat w (fieldValue o (fieldBytes o n x.toNat)) = x := by
  rw [fieldValue_fieldBytes, hw, Nat.mod_eq_of_lt x.isLt, BitVec.ofNat_toNat, BitVec.setWidth_eq]

theorem ofNat_fieldValue_singleton (o : ByteOrder) (b : Byte) : BitVec.ofNat 8 (fieldValue o [b]) = b := by
  cases o
  all_goals simp [fieldValue, natOfBytes]

/-- A record that is a row of fields, read at the offset of field `i`, gives that field's value. -/
theorem recordField_flatten {o : ByteOrder} {L F : List Byte} {fields : List (List Byte)} (hL : L = fields.flatten)
    (i : Nat) (hF : fields[i]? = some F) {offset n : Nat} (hoffset : (fields.take i).flatten.length = offset)
    (hn : F.length = n) : recordField o L offset n = fieldValue o F := by
  obtain ⟨hi, rfl⟩ := List.getElem?_eq_some_iff.1 hF
  have hsplit : L = (fields.take i).flatten ++ (fields[i] ++ (fields.drop (i + 1)).flatten) := by
    rw [hL, ← List.flatten_cons, ← List.drop_eq_getElem_cons hi, ← List.flatten_append, List.take_append_drop]
  rw [recordField, hsplit, List.drop_left' hoffset, List.take_left' hn]

/-! ### The record (R191, R193) -/

/-- The three fields of one fault code (R191). -/
def FaultReport.fields (o : ByteOrder) (r : FaultReport) : List (List Byte) :=
  [[r.occurrences], fieldBytes o 2 r.startNum.toNat, fieldBytes o 4 r.timestamp.toNat]

theorem FaultReport.bytes_eq_flatten (o : ByteOrder) (r : FaultReport) : r.bytes o = (r.fields o).flatten := by
  simp [FaultReport.bytes, FaultReport.fields]

/-- Entry `c` of a record that has an entry's seven bytes at their offset. -/
theorem recordEntry_eq {o : ByteOrder} {L A B : List Byte} {r : FaultReport} {c : Nat} (hL : L = A ++ r.bytes o ++ B)
    (hA : A.length = 9 + 7 * c) : recordEntry o L c = r.cleared := by
  have hfields : L = (A :: r.fields o ++ [B]).flatten := by simp [hL, FaultReport.bytes_eq_flatten]
  have hocc : recordField o L (9 + 7 * c) 1 = fieldValue o [r.occurrences] :=
    recordField_flatten hfields 1 rfl (by simp [hA]) rfl
  have hnum : recordField o L (10 + 7 * c) 2 = fieldValue o (fieldBytes o 2 r.startNum.toNat) :=
    recordField_flatten hfields 2 rfl (by simp [FaultReport.fields, hA]; omega) (length_fieldBytes ..)
  have htime : recordField o L (12 + 7 * c) 4 = fieldValue o (fieldBytes o 4 r.timestamp.toNat) :=
    recordField_flatten hfields 3 rfl (by simp [FaultReport.fields, hA]; omega) (length_fieldBytes ..)
  rw [recordEntry, hocc, hnum, htime, ofNat_fieldValue_singleton, ofNat_fieldValue_fieldBytes o (by decide),
    ofNat_fieldValue_fieldBytes o (by decide), FaultReport.cleared]

theorem length_flatMap_faultBytes (o : ByteOrder) (l : List FaultReport) :
    (l.flatMap (FaultReport.bytes o)).length = 7 * l.length := by
  simp [List.length_flatMap, Nat.mul_comm]

/-- The entries of a record are the table's, each at its offset. -/
theorem map_recordEntry (o : ByteOrder) {A B : List Byte} (hA : A.length = 9) (l : List FaultReport) :
    (List.range l.length).map (recordEntry o (A ++ l.flatMap (FaultReport.bytes o) ++ B))
      = l.map FaultReport.cleared := by
  refine List.ext_getElem (by simp) fun c hc _ => ?_
  have hc : c < l.length := by simpa using hc
  have hsplit : l.flatMap (FaultReport.bytes o)
      = (l.take c).flatMap (FaultReport.bytes o) ++ l[c].bytes o
        ++ (l.drop (c + 1)).flatMap (FaultReport.bytes o) := by
    conv_lhs => rw [← List.take_append_drop c l, List.drop_eq_getElem_cons hc]
    rw [List.flatMap_append, List.flatMap_cons, List.append_assoc]
  rw [List.getElem_map, List.getElem_map, List.getElem_range]
  refine recordEntry_eq (A := A ++ (l.take c).flatMap (FaultReport.bytes o))
    (B := (l.drop (c + 1)).flatMap (FaultReport.bytes o) ++ B) (by rw [hsplit]; simp) ?_
  rw [List.length_append, hA, length_flatMap_faultBytes, List.length_take_of_le hc.le]

/-- The fields of a record with counter `w`, the table as one (R191). -/
def HostState.recordFields (h : HostState) (o : ByteOrder) (w : Word) : List (List Byte) :=
  [counterBytes o w, fieldBytes o 2 h.payload.startCount.toNat, fieldBytes o 2 h.payload.consecutiveBadRestarts.toNat,
    [h.payload.recoveredMode], h.table.flatMap (FaultReport.bytes o), [h.payload.expectingRestart]]

theorem HostState.record_eq_flatten (h : HostState) (o : ByteOrder) (w : Word) :
    counterBytes o w ++ h.recordBody o = (h.recordFields o w).flatten := by
  simp [HostState.recordBody, HostState.recordFields]

/-- A host that deserialises the record of a host with as many fault codes has its payload, with the write counter it
is given, and its table with no action pending. -/
theorem HostState.deserialise_record (o : ByteOrder) {h g : HostState} (w v : Word)
    (hlen : h.table.length = g.params.nf) :
    g.deserialise o (counterBytes o w ++ h.recordBody o) v
      = { g with payload := { h.payload with writeCounter := v }, table := h.table.map FaultReport.cleared } := by
  have hfields := h.record_eq_flatten o w
  have hcount : recordField o (counterBytes o w ++ h.recordBody o) 4 2
      = fieldValue o (fieldBytes o 2 h.payload.startCount.toNat) :=
    recordField_flatten hfields 1 rfl (by simp [HostState.recordFields]) (length_fieldBytes ..)
  have hbad : recordField o (counterBytes o w ++ h.recordBody o) 6 2
      = fieldValue o (fieldBytes o 2 h.payload.consecutiveBadRestarts.toNat) :=
    recordField_flatten hfields 2 rfl (by simp [HostState.recordFields]) (length_fieldBytes ..)
  have hmode : recordField o (counterBytes o w ++ h.recordBody o) 8 1 = fieldValue o [h.payload.recoveredMode] :=
    recordField_flatten hfields 3 rfl (by simp [HostState.recordFields]) rfl
  have hexpecting : recordField o (counterBytes o w ++ h.recordBody o) (9 + 7 * h.table.length) 1
      = fieldValue o [h.payload.expectingRestart] :=
    recordField_flatten hfields 5 rfl
      (by simp [HostState.recordFields, length_flatMap_faultBytes, -List.length_flatMap]; omega) rfl
  have htable : (List.range h.table.length).map (recordEntry o (counterBytes o w ++ h.recordBody o))
      = h.table.map FaultReport.cleared := by
    have hhead : (((h.recordFields o w).take 4).flatten).length = 9 := by simp [HostState.recordFields]
    rw [← map_recordEntry o hhead (B := [h.payload.expectingRestart]) h.table, hfields]
    simp [HostState.recordFields]
  rw [HostState.deserialise, ← hlen, hcount, hbad, hmode, hexpecting, htable,
    ofNat_fieldValue_fieldBytes o (by decide), ofNat_fieldValue_fieldBytes o (by decide), ofNat_fieldValue_singleton,
    ofNat_fieldValue_singleton]

end Sys2Proof.Machine
end

section
/-! SUPPORT. `save()` and `load()` (spec/48_host_software_contract.md R192, R193, R196): the command each issues, up to
the history, and what the host has of it. -/

namespace Sys2Proof.Machine

/-! ### Parts of the invariant -/

theorem State.Inv.length_lbuf {s : State} (h : s.Inv) : s.lbuf.length = s.cfg.dSize := by
  obtain ⟨-, ⟨-, -, hlbuf, -⟩, -⟩ := h
  exact hlbuf

theorem State.Inv.eeOk {s : State} (h : s.Inv) : s.EeOk := by
  obtain ⟨-, -, hee, -⟩ := h
  exact hee

/-! ### Accesses -/

/-- A row of reads leaves the host with the core as it was, up to the history. -/
theorem withCore_reads {xs : List Input} (hxs : ∀ x ∈ xs, x.isRead = true) (s : State)
    (k : State → Host.Outcome (HostState × State) Fault Refusal) :
    ∃ es, withCore xs s k = k (s.record es) := by
  obtain ⟨es, hes⟩ := serveAll_reads xs hxs s
  have hserve := hes []
  rw [List.append_nil] at hserve
  exact ⟨es, by rw [withCore, hserve]; rfl⟩

/-- A command and then reads: the host goes on from what the command left, up to the history. -/
theorem withCore_issue {i : Instr} {s t : State} (ht : exec i (s.record [.command (encode i)]) = .next t)
    {xs : List Input} (hxs : ∀ x ∈ xs, x.isRead = true)
    (k : State → Host.Outcome (HostState × State) Fault Refusal) :
    ∃ es, withCore (issue i :: xs) s k = k (t.record es) := by
  obtain ⟨es, hes⟩ := withCore_reads hxs t k
  refine ⟨es, ?_⟩
  rw [← hes, withCore, withCore, serveAll_cons_next ((serve_issue i (decode_encode i) s).trans ht)]

/-- The history plays no part in what RSAVE does. -/
theorem exec_rsave_record {s t : State} (hv : s.cfg.Valid) (hsave : s.CanSave) (ht : exec .rsave s = .next t)
    (es : List Event) :
    exec .rsave (s.record es) = .next { t with history := s.history ++ (es ++ (saveDiff s).events) } := by
  rw [exec_rsave_next hv hsave] at ht
  cases ht
  rw [exec_rsave_next (s := s.record es) hv hsave, State.record_history, List.append_assoc]
  rfl

/-- The history plays no part in what RLOAD does. -/
theorem exec_rload_record {s t : State} (hv : s.cfg.Valid) (ht : exec .rload s = .next t) (es : List Event) :
    ∃ fs, exec .rload (s.record es) = .next { t with history := fs } := by
  cases hc : seekChoice s with
  | none =>
    rw [exec_rload_of_none hv hc] at ht
    cases ht
    exact ⟨_, exec_rload_of_none (s := s.record es) hv hc⟩
  | some best =>
    rw [exec_rload_of_some hv hc] at ht
    cases ht
    exact ⟨_, exec_rload_of_some (s := s.record es) hv hc⟩

/-! ### `save()` (R192, R196) -/

/-- The host once its write counter equals `w` (R192). -/
def HostState.withCounter (h : HostState) (w : Word) : HostState :=
  { h with payload := { h.payload with writeCounter := w } }

/-- The state of which `save()` has the core make its RSAVE: the record in LBUF from offset 4 up. -/
def HostState.serialised (h : HostState) (s : State) : State :=
  { s with lbuf := s.lbuf.take 4 ++ h.recordBody s.cfg.byteOrder }

theorem HostState.inv_serialised {h : HostState} {s : State} (hinv : s.Inv) (hp : h.params.Valid s.cfg)
    (hlen : h.table.length = h.params.nf) : (h.serialised s).Inv := by
  obtain ⟨-, -, -, -, hd⟩ := hp
  have hlbuf := hinv.length_lbuf
  refine hinv.withLbuf ?_
  rw [List.length_append, List.length_take, length_recordBody]
  omega

/-- Everything `save()` does, up to the history: RSAVE of the serialised record, and its counter for the host. -/
theorem HostState.save_eq_rsave {h : HostState} {s t : State} (hinv : s.Inv) (hsave : s.CanSave)
    (hp : h.params.Valid s.cfg) (hlen : h.table.length = h.params.nf)
    (ht : exec .rsave (h.serialised s) = .next t) :
    ∃ fs, h.save s = .next (h.withCounter t.wctr, { t with history := fs }) := by
  obtain ⟨fs, hfs⟩ := HostState.save_eq hinv.length_lbuf hp hlen fun es =>
    ⟨_, exec_rsave_record (s := h.serialised s) hinv.1 hsave ht es⟩
  exact ⟨_, hfs⟩

/-- `t` is a state that a save of `h` in `s` can leave: the new counter and the record in LBUF, their image in the new
counter's slot, which is the newest where no stored counter was above WCTR. -/
structure StoresRecord (h : HostState) (s t : State) : Prop where
  inv : t.Inv
  cfg : t.cfg = s.cfg
  wctr : t.wctr = s.wctr + 1
  lbuf : t.lbuf = counterBytes s.cfg.byteOrder t.wctr ++ h.recordBody s.cfg.byteOrder
  image : t.ee.readBytes (slotAddress s.cfg t.wctr) s.cfg.slot
    = fileGetData s.cfg.bitOrder (fileEncode s.cfg.bitOrder s.cfg.bc t.lbuf)
  evCorrupted : t.evCorrupted = s.evCorrupted
  newest : CountersBounded s → s.wctr.toNat + 1 < 2 ^ 32 → HoldsNewest t

theorem StoresRecord.withHistory {h : HostState} {s t : State} (hs : StoresRecord h s t) (es : List Event) :
    StoresRecord h s { t with history := es } :=
  ⟨hs.inv, hs.cfg, hs.wctr, hs.lbuf, hs.image, hs.evCorrupted, fun hb hw =>
    have hnew := hs.newest hb hw
    ⟨hnew.accepted, hnew.counter, hnew.others⟩⟩

/-- An RSAVE of the serialised record stores it. -/
theorem exec_rsave_serialised {h : HostState} {s : State} (hinv : s.Inv) (hsave : s.CanSave)
    (hp : h.params.Valid s.cfg) (hlen : h.table.length = h.params.nf) :
    ∃ t, exec .rsave (h.serialised s) = .next t ∧ StoresRecord h s t := by
  have hinv' := HostState.inv_serialised hinv hp hlen
  have hexec := exec_rsave_next hinv'.1 (s := h.serialised s) hsave
  refine ⟨_, hexec, exec_keeps_inv hinv' hexec, rfl, rfl, ?lbuf, ?image, rfl, fun hb hw => ?newest⟩
  case lbuf =>
    have hhead : (s.lbuf.take 4).length = 4 := by
      have hlbuf := hinv.length_lbuf
      obtain ⟨⟨hmin, -⟩, -⟩ := hinv
      rw [List.length_take]
      omega
    exact congrArg (counterBytes _ _ ++ ·) (List.drop_left' hhead)
  case image =>
    obtain ⟨hwf, -⟩ := hinv'.eeOk
    have hstored := readBytes_diffWrite hwf (slotAddress s.cfg (s.wctr + 1)) (savedImage (h.serialised s))
    rw [length_savedImage] at hstored
    exact hstored
  case newest =>
    obtain ⟨t, ht, -, -, -, hnewest⟩ := exec_rsave_holdsNewest hinv' hb hw
    cases hexec.symm.trans ht
    exact hnewest

/-- `save()` stores the host's record, and the host has the new counter. -/
theorem HostState.save_stores {h : HostState} {s : State} (hinv : s.Inv) (hsave : s.CanSave)
    (hp : h.params.Valid s.cfg) (hlen : h.table.length = h.params.nf) :
    ∃ t, h.save s = .next (h.withCounter t.wctr, t) ∧ StoresRecord h s t := by
  obtain ⟨t, ht, hstores⟩ := exec_rsave_serialised hinv hsave hp hlen
  obtain ⟨fs, hfs⟩ := HostState.save_eq_rsave hinv hsave hp hlen ht
  exact ⟨_, hfs, hstores.withHistory fs⟩

/-- The host that announces a restart: the sentinel set and the mode stored (R196). -/
def HostState.announcing (h : HostState) (mode : Byte) : HostState :=
  { h with payload := { h.payload with expectingRestart := h.params.sentinelMagic, recoveredMode := mode } }

theorem HostState.prepareForRestart_eq (h : HostState) (mode : Byte) (s : State) :
    h.prepareForRestart mode s = (h.announcing mode).save s := rfl

/-- Settles O58: `prepareForRestart()` is a save too. -/
theorem hostSaveStoresRecord : Obligations.HostSaveStoresRecord := by
  unfold Obligations.HostSaveStoresRecord
  intro h s mode hinv hsave hp hlen stored
  have hstored : ∀ k : HostState, k.params = h.params → k.table = h.table → stored k (k.save s) := by
    intro k hkp hkt
    obtain ⟨t, ht, hstores⟩ := HostState.save_stores (h := k) hinv hsave (hkp ▸ hp) (by rw [hkp, hkt, hlen])
    exact ⟨_, t, ht, hstores.wctr, hstores.lbuf, hstores.image, rfl⟩
  rw [HostState.prepareForRestart_eq]
  exact ⟨hstored h rfl rfl, hstored (h.announcing mode) rfl rfl⟩

/-! ### `load()` (R193) -/

/-- Clearing EVENTS[0] and the log of it. -/
theorem HostState.noteCorruption_eq (h : HostState) (nowMs : Nat) (s : State) :
    h.noteCorruption nowMs s
      = .next (h.logFault h.params.eepromCorrupted nowMs,
          { s with evCorrupted := false, history := s.history ++ [.regWrite 11 1] }) := by
  have hclear : s.regStore 11 1 = { s with evCorrupted := false } := by simp [State.regStore]
  have hserve : serveAll [.regWrite 11 1] s
      = .next ((s.regStore 11 1).record [.regWrite 11 1]) := rfl
  rw [HostState.noteCorruption, withCore, hserve, hclear]
  rfl

/-- The host after it has seen EVENTS[0], set or not (R193, R241). -/
def HostState.noteIf (h : HostState) (corrupted : Bool) (nowMs : Nat) : HostState :=
  if corrupted then h.logFault h.params.eepromCorrupted nowMs else h

/-- The host with every field from the bytes it reads from LBUF, and from WCTR (R193). -/
def HostState.readBack (h : HostState) (u : State) : HostState :=
  h.deserialise u.cfg.byteOrder ((List.range u.cfg.dSize).map (u.hostBufRead 2)) u.wctr

theorem HostState.readBack_eq (h : HostState) {u : State} (hlbuf : u.lbuf.length = u.cfg.dSize) :
    h.readBack u = h.deserialise u.cfg.byteOrder u.lbuf u.wctr := by
  rw [HostState.readBack, map_hostBufRead_lbuf hlbuf]

/-- What the host does once RLOAD has answered with `t`, whatever was recorded since (R193). -/
theorem HostState.load_eq (h : HostState) (nowMs : Nat) {s t : State} (hv : s.cfg.Valid)
    (ht : exec .rload s = .next t) :
    ∃ fs, h.load nowMs s
      = if t.ret = 1 then
          withCore (bufReads 2 t.cfg.dSize ++ [.regRead 8]) { t with history := fs } fun u =>
            if t.evCorrupted then (h.readBack u).noteCorruption nowMs u else .next (h.readBack u, u)
        else h.withDefaults.noteCorruption nowMs { t with history := fs } := by
  obtain ⟨fs, hfs⟩ := exec_rload_record hv ht [.command (encode .rload)]
  obtain ⟨es, hes⟩ := withCore_issue hfs (xs := [.regRead 3, .regRead 11]) (by simp [Input.isRead]) _
  refine ⟨fs ++ es, hes.trans ?_⟩
  simp only [State.regRead, State.eventsWord_corrupted]
  rfl

/-- `load()` where RLOAD answers RET = 1: every field from LBUF and WCTR, then a corruption noted where EVENTS[0] is
set. -/
theorem HostState.load_of_ret_one (h : HostState) (nowMs : Nat) {s t : State} (hinv : s.Inv)
    (ht : exec .rload s = .next t) (hret : t.ret = 1) :
    ∃ fs, h.load nowMs s
      = .next
        ((h.deserialise t.cfg.byteOrder t.lbuf t.wctr).noteIf t.evCorrupted nowMs,
          { t with evCorrupted := false, history := fs }) := by
  have hlbuf := (exec_keeps_inv hinv ht).length_lbuf
  obtain ⟨fs, hload⟩ := h.load_eq nowMs hinv.1 ht
  have hreads : ∀ x ∈ bufReads 2 t.cfg.dSize ++ [.regRead 8], x.isRead = true :=
    List.forall_mem_append.2 ⟨isRead_bufReads 2 _, by simp [Input.isRead]⟩
  obtain ⟨es, hes⟩ := withCore_reads hreads { t with history := fs } _
  rw [hload, if_pos hret, hes, h.readBack_eq (u := ({ t with history := fs } : State).record es) hlbuf]
  cases hev : t.evCorrupted with
  | true => exact ⟨_, HostState.noteCorruption_eq ..⟩
  | false =>
    refine ⟨fs ++ es, ?_⟩
    rw [if_neg Bool.false_ne_true, HostState.noteIf, if_neg Bool.false_ne_true, ← hev]
    rfl

/-- `load()` where RLOAD answers RET = 0: the defaults, then the corruption noted. -/
theorem HostState.load_of_ret_ne_one (h : HostState) (nowMs : Nat) {s t : State} (hinv : s.Inv)
    (ht : exec .rload s = .next t) (hret : t.ret ≠ 1) :
    ∃ fs, h.load nowMs s
      = .next (h.withDefaults.logFault h.params.eepromCorrupted nowMs,
          { t with evCorrupted := false, history := fs }) := by
  obtain ⟨fs, hload⟩ := h.load_eq nowMs hinv.1 ht
  exact ⟨_, by rw [hload, if_neg hret, HostState.noteCorruption_eq]; rfl⟩

/-- Settles O57. -/
theorem recordRoundTrip : Obligations.RecordRoundTrip := by
  unfold Obligations.RecordRoundTrip
  refine ⟨fun o h g w hlen hparams => ?codec, fun h s nowMs hinv hp => ?load⟩
  case codec =>
    rw [HostState.deserialise_record o w w (by rw [hlen, hparams])]
    exact ⟨rfl, rfl⟩
  case load =>
    have hv := hinv.1
    cases hc : seekChoice s with
    | none =>
      have ht := exec_rload_of_none hv hc
      obtain ⟨fs, hload⟩ := h.load_of_ret_ne_one nowMs hinv ht (by simp)
      exact ⟨_, _, _, ht, hload, fun k hk => absurd rfl hk, fun _ => ⟨rfl, rfl⟩⟩
    | some best =>
      have ht := exec_rload_of_some hv hc
      obtain ⟨fs, hload⟩ := h.load_of_ret_one nowMs hinv ht rfl
      refine ⟨_, _, _, ht, hload, fun k _ hkp hklen hrecord => ⟨?_, rfl⟩, fun hnone => by cases hnone⟩
      have hloaded :=
        HostState.deserialise_record s.cfg.byteOrder (h := k) (g := h) best.2 best.2 (by rw [hklen, hkp])
      exact congrArg (·.noteIf s.evCorrupted nowMs) ((congrArg (h.deserialise _ · _) hrecord).trans hloaded)

end Sys2Proof.Machine
end

section
/-! SUPPORT. The restart of core and host (spec/48_host_software_contract.md R195 to R197;
spec/70_reset_and_hazards.md R257, R258): what a boot loads, and what `recordNewStart()` makes of it. -/

namespace Sys2Proof.Machine

/-! ### `recordNewStart()` before its save (R195) -/

/-- A matching sentinel: the boot is counted as planned. -/
theorem HostState.countStart_of_match {h : HostState} (hs : h.payload.expectingRestart = h.params.sentinelMagic)
    (nowMs : Nat) :
    h.countStart nowMs
      = { h with
          payload :=
            { h.payload with
              startCount := h.payload.startCount + 1, consecutiveBadRestarts := 0, expectingRestart := 0 } } := by
  rw [HostState.countStart, if_neg (not_not.2 hs)]

/-- A mismatched sentinel: the boot is counted as unplanned and the restart logged with the new boot's number. -/
theorem HostState.countStart_of_mismatch {h : HostState} (hs : h.payload.expectingRestart ≠ h.params.sentinelMagic)
    (hc : h.params.unexpectedRestart < h.params.nf) (nowMs : Nat) :
    h.countStart nowMs
      = { h with
          payload :=
            { h.payload with
              startCount := h.payload.startCount + 1
              consecutiveBadRestarts := h.payload.consecutiveBadRestarts + 1
              expectingRestart := 0 }
          table := h.table.modify h.params.unexpectedRestart fun r => r.count (h.payload.startCount + 1) nowMs
          saveRequired := true } := by
  have hlog := HostState.logFault_of_lt
    { h with payload := { h.payload with startCount := h.payload.startCount + 1 } } hc nowMs
  simp only [HostState.countStart, if_pos hs, hlog]

@[simp] theorem HostState.logFault_payload (h : HostState) (code : Int) (nowMs : Nat) :
    (h.logFault code nowMs).payload = h.payload := by
  unfold HostState.logFault
  split
  · rfl
  · rw [HostState.say_eq]

/-- Whether planned or not, the boot is counted and the sentinel cleared. -/
theorem HostState.countStart_counts (h : HostState) (nowMs : Nat) :
    (h.countStart nowMs).payload.startCount = h.payload.startCount + 1
      ∧ (h.countStart nowMs).payload.expectingRestart = 0 := by
  refine ⟨?_, rfl⟩
  by_cases hs : h.payload.expectingRestart = h.params.sentinelMagic
  · rw [HostState.countStart_of_match hs]
  · simp only [HostState.countStart, if_pos hs, HostState.logFault_payload]

/-- The bookkeeping changes neither the parameters nor the number of entries. -/
theorem HostState.countStart_frame {h : HostState} (hc : h.params.unexpectedRestart < h.params.nf) (nowMs : Nat) :
    (h.countStart nowMs).params = h.params ∧ (h.countStart nowMs).table.length = h.table.length := by
  by_cases hs : h.payload.expectingRestart = h.params.sentinelMagic
  · rw [HostState.countStart_of_match hs]
    exact ⟨rfl, rfl⟩
  · rw [HostState.countStart_of_mismatch hs hc]
    exact ⟨rfl, List.length_modify ..⟩

/-- `recordNewStart()` stores the counted boot, and the host has the new counter. -/
theorem HostState.recordNewStart_stores {h : HostState} {s : State} (hinv : s.Inv) (hsave : s.CanSave)
    (hp : h.params.Valid s.cfg) (hlen : h.table.length = h.params.nf) (nowMs : Nat) :
    ∃ t, h.recordNewStart nowMs s = .next ((h.countStart nowMs).withCounter (s.wctr + 1), t)
      ∧ t.wctr = s.wctr + 1 ∧ t.evCorrupted = s.evCorrupted := by
  obtain ⟨-, -, hc, -, -⟩ := id hp
  obtain ⟨hparams, htable⟩ := HostState.countStart_frame hc nowMs
  obtain ⟨t, ht, hstores⟩ := HostState.save_stores (h := h.countStart nowMs) hinv hsave (hparams ▸ hp)
    (by rw [htable, hparams, hlen])
  rw [hstores.wctr] at ht
  exact ⟨t, ht, hstores.wctr, hstores.evCorrupted⟩

/-! ### The boot (R257, R258) -/

/-- The core after INIT and the accesses `es`: the EEPROM and the parameters are as they were (R182). -/
def State.initialised (s : State) (es : List Event) : State := (s.afterReset ⟨[], [], [], [], []⟩).record es

theorem State.Inv.initialised {s : State} (h : s.Inv) (es : List Event) : (s.initialised es).Inv :=
  inv_afterReset h.1 h.eeOk _

/-- A boot issues INIT and goes on with `load()`. -/
theorem HostState.boot_eq (p : HostParams) (actOnFaults messaging : Bool) (loadMs startMs : Nat) (s : State) :
    ∃ es, HostState.boot p actOnFaults messaging loadMs startMs s
      = thenHost ((HostState.initial p actOnFaults messaging).load loadMs (s.initialised es)) fun h u =>
          h.recordNewStart startMs u := by
  have hinit := exec_init_eq (s.record [.command (encode .init)])
  obtain ⟨es, hes⟩ := withCore_issue hinit (xs := []) (by simp) _
  exact ⟨.command (encode .init) :: es, hes.trans (by simp [State.initialised, State.record, State.afterReset])⟩

/-- `u` is a core as a boot in `s` leaves it before `recordNewStart()`: WCTR holds `w` and no corruption is
signalled. -/
structure Booted (s u : State) (w : Word) : Prop where
  inv : u.Inv
  cfg : u.cfg = s.cfg
  wctr : u.wctr = w
  evCorrupted : u.evCorrupted = false

/-- The host after a boot has loaded the record of `k` with counter `w`. -/
def HostState.reloaded (k : HostState) (p : HostParams) (actOnFaults messaging : Bool) (w : Word) : HostState :=
  { HostState.initial p actOnFaults messaging with
    payload := { k.payload with writeCounter := w }, table := k.table.map FaultReport.cleared }

/-- A boot where the chosen slot holds the record of `k` with counter `w`. -/
theorem HostState.boot_of_record {s : State} (hinv : s.Inv) {a : Nat} {w : Word} (hc : seekChoice s = some (a, w))
    {k : HostState} {p : HostParams} (hlen : k.table.length = p.nf)
    (hrecord : fileDecode s.cfg.bitOrder s.cfg.dSize (slotBlocks s a)
      = counterBytes s.cfg.byteOrder w ++ k.recordBody s.cfg.byteOrder)
    (actOnFaults messaging : Bool) (loadMs startMs : Nat) :
    ∃ u, HostState.boot p actOnFaults messaging loadMs startMs s
        = (k.reloaded p actOnFaults messaging w).recordNewStart startMs u
      ∧ Booted s u w := by
  obtain ⟨es, hboot⟩ := HostState.boot_eq p actOnFaults messaging loadMs startMs s
  have ht := exec_rload_of_some (s := s.initialised es) hinv.1 hc
  have hinv' := exec_keeps_inv (hinv.initialised es) ht
  obtain ⟨fs, hload⟩ :=
    (HostState.initial p actOnFaults messaging).load_of_ret_one loadMs (hinv.initialised es) ht rfl
  have hloaded := HostState.deserialise_record s.cfg.byteOrder (h := k)
    (g := HostState.initial p actOnFaults messaging) w w hlen
  rw [← hrecord] at hloaded
  rw [hload] at hboot
  exact ⟨_, hboot.trans (congrArg (HostState.recordNewStart · startMs _) hloaded), hinv', rfl, rfl, rfl⟩

/-- A boot where no slot is accepted: the defaults of R194, with the corruption logged. -/
theorem HostState.boot_of_none {s : State} (hinv : s.Inv) (hc : seekChoice s = none) {p : HostParams}
    (hcode : p.eepromCorrupted < p.nf) (actOnFaults messaging : Bool) (loadMs startMs : Nat) :
    ∃ (g : HostState) (u : State),
      HostState.boot p actOnFaults messaging loadMs startMs s = g.recordNewStart startMs u
      ∧ g.params = p ∧ g.payload = PayloadData.default
      ∧ g.table = (List.replicate p.nf FaultReport.default).modify p.eepromCorrupted (fun r => r.count 0 loadMs)
      ∧ Booted s u 0 := by
  obtain ⟨es, hboot⟩ := HostState.boot_eq p actOnFaults messaging loadMs startMs s
  have ht := exec_rload_of_none (s := s.initialised es) hinv.1 hc
  have hinv' := exec_keeps_inv (hinv.initialised es) ht
  obtain ⟨fs, hload⟩ :=
    (HostState.initial p actOnFaults messaging).load_of_ret_ne_one loadMs (hinv.initialised es) ht (by simp)
  rw [hload, HostState.logFault_of_lt _ (show _ < _ from hcode)] at hboot
  exact ⟨_, _, hboot, rfl, rfl, rfl, hinv', rfl, rfl, rfl⟩

/-! ### The restart (R197) -/

theorem State.canSave_of_lt {s : State} (h : s.wctr.toNat + 1 < 2 ^ 32) : s.CanSave :=
  .inl fun hmax => by simp [hmax] at h

/-- What a restart boots from: the EEPROM and the parameters are as they were (R44, R250). -/
theorem HostState.restart_eq (h : HostState) (fill : BufferFill) (actOnFaults messaging : Bool) (loadMs startMs : Nat)
    (s : State) :
    h.restart fill actOnFaults messaging loadMs startMs s
      = HostState.boot h.params actOnFaults messaging loadMs startMs ((s.record [.powerLoss]).afterReset fill) := rfl

/-- The record that a save stored is what the next load decodes. -/
theorem StoresRecord.decoded {h : HostState} {s t : State} (hs : StoresRecord h s t) :
    fileDecode t.cfg.bitOrder t.cfg.dSize (slotBlocks t (slotAddress t.cfg t.wctr))
      = counterBytes t.cfg.byteOrder t.wctr ++ h.recordBody t.cfg.byteOrder := by
  have hlbuf := hs.inv.length_lbuf
  have himage := hs.image
  rw [← hs.cfg] at himage
  obtain ⟨-, hblocks⟩ := slot_of_encoded_image himage
  rw [hblocks, ← hlbuf, fileDecode_fileEncode _ (hlbuf.trans_le (dSize_le_blockBytes t.cfg)), hs.lbuf, hs.cfg]

/-- Across a restart after a save, with the default comparison and no stored counter above WCTR, the record survives and
the new boot is counted from it. -/
theorem HostState.save_then_restart {h : HostState} {s : State} (hinv : s.Inv) (hnewer : s.cfg.newer = .unsigned)
    (hp : h.params.Valid s.cfg) (hlen : h.table.length = h.params.nf) (hb : CountersBounded s)
    (hw : s.wctr.toNat + 2 < 2 ^ 32) (fill : BufferFill) (actOnFaults messaging : Bool) (loadMs startMs : Nat) :
    ∃ g t u, h.save s = .next (g, t)
      ∧ g.restart fill actOnFaults messaging loadMs startMs t
        = .next (((h.reloaded h.params actOnFaults messaging (s.wctr + 1)).countStart startMs).withCounter
            (s.wctr + 2), u)
      ∧ u.wctr = s.wctr + 2 := by
  have hsave : s.CanSave := State.canSave_of_lt (by omega)
  obtain ⟨t, ht, hstores⟩ := HostState.save_stores hinv hsave hp hlen
  have hnewest := hstores.newest hb (by omega)
  have hc := seekChoice_of_holdsNewest hstores.inv.1 (hstores.cfg ▸ hnewer) hnewest
  have hinvR : ((t.record [.powerLoss]).afterReset fill).Inv := inv_afterReset hstores.inv.1 hstores.inv.eeOk fill
  obtain ⟨u, hu, hbooted⟩ := HostState.boot_of_record (p := h.params) hinvR hc hlen hstores.decoded
    actOnFaults messaging loadMs startMs
  have hlow : u.wctr = s.wctr + 1 := hbooted.wctr.trans hstores.wctr
  have hcfg : u.cfg = s.cfg := hbooted.cfg.trans hstores.cfg
  have hnext : u.wctr.toNat + 1 < 2 ^ 32 := by rw [hlow]; bv_omega
  have hsum : u.wctr + 1 = s.wctr + 2 := by rw [hlow]; bv_omega
  obtain ⟨v, hv, hvw, -⟩ := HostState.recordNewStart_stores
    (h := h.reloaded h.params actOnFaults messaging t.wctr) hbooted.inv (State.canSave_of_lt hnext) (hcfg ▸ hp)
    ((List.length_map _).trans hlen) startMs
  rw [hstores.wctr] at hu
  rw [hsum, hstores.wctr] at hv
  exact ⟨_, t, v, ht, (HostState.restart_eq ..).trans (hu.trans hv), hvw.trans hsum⟩

/-- A boot that finds no slot counts as unplanned, from the defaults, and logs both faults. -/
theorem HostState.boot_of_none_counts {p : HostParams} {s : State} (hinv : s.Inv) (hp : p.Valid s.cfg)
    (hc : seekChoice s = none) (act messaging : Bool) (loadMs startMs : Nat) :
    ∃ g u, HostState.boot p act messaging loadMs startMs s = .next (g, u)
      ∧ g.payload = ⟨1, 1, 1, 0, 0⟩
      ∧ g.table
        = ((List.replicate p.nf FaultReport.default).modify p.eepromCorrupted (fun r => r.count 0 loadMs)).modify
            p.unexpectedRestart (fun r => r.count 1 startMs)
      ∧ u.wctr = 1 ∧ u.evCorrupted = false := by
  obtain ⟨-, hmagic, hrestartCode, hcorruptCode, -⟩ := id hp
  obtain ⟨g, u, hboot, rfl, hpayload, htable, hbooted⟩ :=
    HostState.boot_of_none hinv hc hcorruptCode act messaging loadMs startMs
  have hsave : u.CanSave := State.canSave_of_lt (by rw [hbooted.wctr]; decide)
  obtain ⟨v, hv, hwctr, hev⟩ := HostState.recordNewStart_stores (h := g) hbooted.inv hsave (hbooted.cfg ▸ hp)
    (by simp [htable]) startMs
  have hs : g.payload.expectingRestart ≠ g.params.sentinelMagic := by rw [hpayload]; exact hmagic.symm
  rw [HostState.countStart_of_mismatch hs hrestartCode, hbooted.wctr] at hv
  refine ⟨_, v, hboot.trans hv, ?_, ?_, ?_, ?_⟩
  · simp only [HostState.withCounter, hpayload]
    rfl
  · simp only [HostState.withCounter, hpayload, htable]
    rfl
  · rw [hwctr, hbooted.wctr]
    rfl
  · rw [hev, hbooted.evCorrupted]

/-- Settles O59. -/
theorem newStartBookkeeping : Obligations.NewStartBookkeeping := by
  unfold Obligations.NewStartBookkeeping
  refine ⟨fun h nowMs s => ?rules,
    fun h s fill act messaging mode loadMs startMs hinv hnewer hp hlen hb hw => ?restarts,
    fun p s act messaging loadMs startMs hinv hp hc => ?noSlot⟩
  case rules =>
    obtain ⟨hcount, hsentinel⟩ := h.countStart_counts nowMs
    refine ⟨rfl, hcount, hsentinel, fun hs => ?_, fun hs hc hlen => ?_⟩
    · rw [HostState.countStart_of_match hs]
      exact ⟨rfl, rfl⟩
    · rw [HostState.countStart_of_mismatch hs hc]
      exact ⟨rfl, congrArg FaultReport.startNum (getD_modify_self (hlen ▸ hc) _ _)⟩
  case restarts =>
    have hbound : CountersBounded s := fun k hk => hb k hk.1 hk.2
    refine ⟨?planned, fun hs => ?unplanned⟩
    case planned =>
      obtain ⟨g, t, u, hsave, hrestart, hwctr⟩ := HostState.save_then_restart (h := h.announcing mode) hinv hnewer hp
        hlen hbound hw fill act messaging loadMs startMs
      rw [HostState.countStart_of_match rfl] at hrestart
      exact ⟨g, t, _, u, hsave, hrestart, rfl, rfl, hwctr⟩
    case unplanned =>
      obtain ⟨g, t, u, hsave, hrestart, hwctr⟩ := HostState.save_then_restart hinv hnewer hp hlen hbound hw fill act
        messaging loadMs startMs
      obtain ⟨-, -, hcode, -, -⟩ := hp
      rw [HostState.countStart_of_mismatch (h := h.reloaded h.params act messaging (s.wctr + 1)) hs hcode]
        at hrestart
      exact ⟨g, t, _, u, hsave, hrestart, rfl, rfl, hwctr⟩
  case noSlot => exact HostState.boot_of_none_counts hinv hp hc act messaging loadMs startMs

end Sys2Proof.Machine
end

section
/-! SUPPORT. Errors and upsets (spec/60_exceptions.md R221 to R223, R231, R238): the command errors that a command can
raise, and that one which raises none completes; what the host's accesses and an upset leave as it was. -/

namespace Sys2Proof.Machine

/-! ### The errors of a command (R223) -/

/-- The command error that `i` raises in the state `s`, if it raises one: that of its operand's check, or for RSAVE that
of the counter (R166, R223). -/
def Raises (s : State) (e : CmdError) : Instr → Prop
  | .bget sel | .bset sel _ | .bflip sel => s.bitOperand sel = .error e
  | .eerd | .eewr _ => s.eeOperand = .error e
  | .rsave => ¬ s.CanSave ∧ e = ⟨.ctrWrap, BitVec.allOnes 32⟩
  | _ => False

/-- A BitView command completes where its operand names a bit (R111). -/
theorem exec_bitview_err_of_ok {s t : State} {sel : BitVec 4} {b : Buffer} {i : Instr}
    (hi : i = .bget sel ∨ (∃ v, i = .bset sel v) ∨ i = .bflip sel) (hop : s.bitOperand sel = .ok b)
    (ht : exec i s = .next t) : t.err = .ok := by
  obtain ⟨hget, hset, hflip⟩ := exec_bitview_ok hop
  rcases hi with rfl | ⟨v, rfl⟩ | rfl
  · cases hget.symm.trans ht
    rfl
  · cases (hset v).symm.trans ht
    rfl
  · cases hflip.symm.trans ht
    rfl

/-- A BitView command completes or raises the error of its operand's check (R111). -/
theorem exec_bitview_completes_or_raises {s t : State} {sel : BitVec 4} {i : Instr}
    (hi : i = .bget sel ∨ (∃ v, i = .bset sel v) ∨ i = .bflip sel) (ht : exec i s = .next t) :
    t.err = .ok ∨ ∃ e : CmdError, s.bitOperand sel = .error e ∧ t = s.raise e.code e.info := by
  cases hop : s.bitOperand sel with
  | ok b => exact .inl (exec_bitview_err_of_ok hi hop ht)
  | error e =>
    cases (exec_bitview_of_error hi hop).symm.trans ht
    exact .inr ⟨e, rfl, rfl⟩

/-- EERD and EEWR complete or raise the error of their address's check (R184, R185). -/
theorem exec_ee_completes_or_raises {s t : State} {i : Instr} (hi : i = .eerd ∨ ∃ d, i = .eewr d)
    (ht : exec i s = .next t) :
    t.err = .ok ∨ ∃ e : CmdError, s.eeOperand = .error e ∧ t = s.raise e.code e.info := by
  cases hop : s.eeOperand with
  | ok a =>
    obtain ⟨hread, hwrite⟩ := exec_ee_ok hop
    rcases hi with rfl | ⟨d, rfl⟩
    · cases hread.symm.trans ht
      exact .inl rfl
    · cases (hwrite d).symm.trans ht
      exact .inl rfl
  | error e =>
    obtain ⟨hread, hwrite⟩ := exec_ee_error hop
    rcases hi with rfl | ⟨d, rfl⟩
    · cases hread.symm.trans ht
      exact .inr ⟨e, rfl, rfl⟩
    · cases (hwrite d).symm.trans ht
      exact .inr ⟨e, rfl, rfl⟩

/-- RSAVE overflows at the maximum counter under the policy that faults (R166). -/
theorem State.not_canSave_iff {s : State} :
    ¬ s.CanSave ↔ s.wctr = BitVec.allOnes 32 ∧ s.cfg.wrapPolicy = .fault := by
  cases hw : s.cfg.wrapPolicy with
  | fault => simp [State.CanSave, hw]
  | wrap => simp [State.CanSave, hw]

/-- RSAVE completes or raises CTR_WRAP, for any parameters (R166). -/
theorem exec_rsave_completes_or_raises {s t : State} (ht : exec .rsave s = .next t) :
    t.err = .ok ∨ ¬ s.CanSave ∧ t = s.raise .ctrWrap (BitVec.allOnes 32) := by
  by_cases hsave : s.CanSave
  · have hrecord : exec .rsave s = saveRecord s := if_neg fun h => State.not_canSave_iff.2 h hsave
    rw [hrecord, saveRecord] at ht
    split at ht
    · cases ht
      exact .inl rfl
    · cases ht
  · cases (exec_rsave_overflow hsave).symm.trans ht
    exact .inr ⟨hsave, rfl⟩

/-- A command completes, or it raises an error of its own and makes no other write (R222, R223). -/
theorem exec_completes_or_raises {s t : State} {i : Instr} (ht : exec i s = .next t) :
    t.err = .ok ∨ ∃ e : CmdError, Raises s e i ∧ t = s.raise e.code e.info := by
  cases i with
  | nop | init | henc | hscan | hcorr | hdec | fenc | fget | ffill | fscrub | fdec | rseek =>
    cases ht
    exact .inl rfl
  | bget sel => exact exec_bitview_completes_or_raises (.inl rfl) ht
  | bset sel v => exact exec_bitview_completes_or_raises (.inr (.inl ⟨v, rfl⟩)) ht
  | bflip sel => exact exec_bitview_completes_or_raises (.inr (.inr rfl)) ht
  | eerd => exact exec_ee_completes_or_raises (.inl rfl) ht
  | eewr d => exact exec_ee_completes_or_raises (.inr ⟨d, rfl⟩) ht
  | rsave => exact (exec_rsave_completes_or_raises ht).imp_right fun ⟨hsave, h⟩ => ⟨_, ⟨hsave, rfl⟩, h⟩
  | rload =>
    obtain ⟨u, -, ⟨lbuf, wctr, rfl⟩ | rfl⟩ := exec_rload_cases ht
    · exact .inl rfl
    · exact .inl rfl

/-- The error of a BitView operand: a reserved select with the select as detail, or an index out of range (R221). -/
theorem State.bitOperand_error {s : State} {sel : BitVec 4} {e : CmdError} (h : s.bitOperand sel = .error e) :
    e = ⟨.badSelect, sel.setWidth 32⟩ ∨ e = ⟨.indexOob, s.arg0⟩ := by
  rcases s.bitOperand_cases sel with ⟨-, hop⟩ | ⟨b, -, ⟨-, hop⟩ | ⟨-, hop⟩⟩
  · cases hop.symm.trans h
    exact .inl rfl
  · cases hop.symm.trans h
  · cases hop.symm.trans h
    exact .inr rfl

/-- The error of an EEPROM address (R221). -/
theorem State.eeOperand_error {s : State} {e : CmdError} (h : s.eeOperand = .error e) : e = ⟨.eeAddrOob, s.arg0⟩ := by
  rcases s.eeOperand_cases with ⟨-, hop⟩ | ⟨-, hop⟩
  · cases hop.symm.trans h
  · cases hop.symm.trans h
    rfl

/-! ### The obligations about command errors -/

/-- Settles O47: a command that does not complete is `raise` and nothing more, and a word that is no command too. -/
theorem commandErrorsArePrecise : Obligations.CommandErrorsArePrecise := by
  unfold Obligations.CommandErrorsArePrecise
  have hexec (i : Instr) (s t : State) (ht : exec i s = .next t) (herr : t.err ≠ .ok) :
      t = { s with err := t.err, errInfo := t.errInfo, evCmdError := true } := by
    obtain ⟨e, -, rfl⟩ := (exec_completes_or_raises ht).resolve_left herr
    rfl
  refine ⟨fun w s t ht herr => ?_, hexec⟩
  cases hd : decode w with
  | ok i =>
    rw [issueCommand_ok hd] at ht
    exact hexec i _ t ht herr
  | error e =>
    cases (issueCommand_error hd s).symm.trans ht
    rfl

/-- Settles O48: the word does not decode, or its command raises an error of its own. -/
theorem errorsOfEachCommand : Obligations.ErrorsOfEachCommand := by
  unfold Obligations.ErrorsOfEachCommand
  intro w s t ht herr
  cases hd : decode w with
  | error e =>
    cases (issueCommand_error hd s).symm.trans ht
    cases e with
    | illegalOpcode => exact .inl ⟨rfl, rfl, rfl⟩
    | reservedField => exact .inr (.inl ⟨rfl, rfl, rfl⟩)
  | ok i =>
    rw [issueCommand_ok hd] at ht
    obtain ⟨e, hraises, rfl⟩ := (exec_completes_or_raises ht).resolve_left herr
    refine .inr (.inr ?_)
    have hbit {sel : BitVec 4} (h : s.bitOperand sel = .error e) :
        (e.code = .badSelect ∧ e.info.toNat = sel.toNat) ∨ (e.code = .indexOob ∧ e.info = s.arg0) := by
      rcases State.bitOperand_error h with rfl | rfl
      · exact .inl ⟨rfl, BitVec.toNat_setWidth_of_le (by decide)⟩
      · exact .inr ⟨rfl, rfl⟩
    have hee (h : s.eeOperand = .error e) : e.code = .eeAddrOob ∧ e.info = s.arg0 := by
      rw [State.eeOperand_error h]
      exact ⟨rfl, rfl⟩
    cases i with
    | bget sel => exact .inl ⟨sel, .inl rfl, hbit hraises⟩
    | bflip sel => exact .inl ⟨sel, .inr (.inl rfl), hbit hraises⟩
    | bset sel v => exact .inl ⟨sel, .inr (.inr ⟨v, rfl⟩), hbit hraises⟩
    | eerd => exact .inr (.inl ⟨.inl rfl, hee hraises⟩)
    | eewr d => exact .inr (.inl ⟨.inr ⟨d, rfl⟩, hee hraises⟩)
    | rsave =>
      obtain ⟨hsave, rfl⟩ := hraises
      obtain ⟨hctr, hpolicy⟩ := State.not_canSave_iff.1 hsave
      exact .inr (.inr ⟨rfl, rfl, rfl, hctr, hpolicy⟩)
    | _ => exact hraises.elim

/-! ### An upset (R238) -/

/-- Settles O54: the upset is one write of the byte with the bit inverted. -/
theorem upsetInvertsOneBit : Obligations.UpsetInvertsOneBit := by
  unfold Obligations.UpsetInvertsOneBit
  rintro s a bit ⟨hwf, -⟩
  refine ⟨fun ha => ⟨_, if_pos ha, fun x hx => ?others, fun j _ => ?inverted, rfl⟩, fun ha => if_neg (Nat.not_lt.2 ha)⟩
  case others => exact (Memory.read_write hwf _ _ _).trans (if_neg hx)
  case inverted =>
    have hbyte := (Memory.read_write hwf a (s.ee.read a ^^^ (1#8 <<< bit.val)) a).trans (if_pos rfl)
    exact (congrArg (BitVec.getLsbD · j) hbyte).trans (getLsbD_xor_bit _ bit j)

/-! ### Host accesses (R231) -/

/-- A register write other than a command can clear EVENTS[1] and cannot set it (R36). -/
theorem State.evCmdError_of_regStore {s : State} {n : Nat} {v : Word} (h : (s.regStore n v).evCmdError = true) :
    s.evCmdError = true := by
  unfold State.regStore at h
  split at h
  case h_3 => exact (Bool.and_eq_true_iff.1 h).1
  all_goals exact h

/-- Settles O5: reads by their definition, writes by what a register store and a buffer write leave alone. -/
theorem hostAccessesNeverRaise : Obligations.HostAccessesNeverRaise := by
  unfold Obligations.HostAccessesNeverRaise
  intro s x rest hv hp
  rw [step_cons hv hp]
  refine ⟨?regRead, ?bufRead, ?write⟩
  case regRead =>
    rintro n rfl
    rfl
  case bufRead =>
    rintro sel off rfl
    rfl
  case write =>
    rintro n sel off u v (⟨hn, rfl⟩ | rfl)
    · exact ⟨_, if_neg hn, by simp, by simp, State.evCmdError_of_regStore, by simp, by simp, by simp⟩
    · exact ⟨_, rfl, by simp⟩

end Sys2Proof.Machine
end
